-- ==== Sys2Proof/Word.lean ====
section
/-! DEFINITION. The word types of the core (spec/00_scope.md R5, R7) and the size of its address space. -/

namespace Sys2Proof

/-- A byte: `DATA_WIDTH` = 8 (spec/00_scope.md R5). -/
abbrev Byte := BitVec 8

/-- A 16-bit word: `ADDR_WIDTH` = 16 (spec/00_scope.md R5). -/
abbrev Word := BitVec 16

/-- `MEM_SIZE`: 65,536 bytes (spec/00_scope.md R5, spec/20_memory.md R50). The least address that does not exist. -/
abbrev memSize : Nat := 65536

end Sys2Proof
end

