-- ==== Sys2Proof/Config.lean ====
section
/-! DEFINITION. The named parameters of spec/00_scope.md R5, with the spec's defaults and constraints, and the
interrupt slots they give vectors to (spec/60_exceptions.md R230). -/

namespace Sys2Proof

/-- `NUM_SLOTS` = 5 (spec/00_scope.md R5, R6). -/
abbrev numSlots : Nat := 5

/-- The interrupt slots, numbered 0 to 4 in this order (spec/60_exceptions.md R230). -/
inductive Slot where
  /-- slot 0, RESET: reached by `BRK #$00` only; reset itself does not read it (R246) -/
  | reset
  /-- slot 1, USER1 -/
  | user1
  /-- slot 2, USER2 -/
  | user2
  /-- slot 3, INVALID: an invalid opcode byte, `BRK #$03`, and `BRK` with a reserved slot -/
  | invalid
  /-- slot 4, HALT: an ordinary vector, reached by `BRK #$04` only (R254) -/
  | halt
  deriving DecidableEq, Repr

/-- The implementation parameters the model takes (spec/00_scope.md R5). The bounds `<= 0xFFFF` of R5 hold by the
width of the fields; the other constraints are `Config.valid` (WellFormed.lean). -/
structure Config where
  /-- `STARTUP_PC`: where reset puts `pc` -/
  startupPc  : Word
  /-- `SP_INIT`: where reset puts `sp` -/
  spInit     : Word
  /-- `VEC_ADDR[0]` to `VEC_ADDR[4]`: the addresses of the five vector entries -/
  vecReset   : Word
  vecUser1   : Word
  vecUser2   : Word
  vecInvalid : Word
  vecHalt    : Word
  /-- `OUT_ADDR`: the output port -/
  outAddr    : Word
  /-- `INVOP_ADDR`: the invalid-opcode record byte -/
  invopAddr  : Word
  /-- `ZP_WRAP`: zero-page indexing wraps in page 0 -/
  zpWrap     : Bool
  deriving DecidableEq, Repr

/-- The spec's defaults (spec/00_scope.md R5; decisions D4 to D8 and D13). -/
def Config.default : Config where
  startupPc  := 0xFFFC
  spInit     := 0x0200
  vecReset   := 0xFFF0
  vecUser1   := 0xFFF2
  vecUser2   := 0xFFF4
  vecInvalid := 0xFFF6
  vecHalt    := 0xFFF8
  outAddr    := 0xF000
  invopAddr  := 0x0200
  zpWrap     := true

end Sys2Proof
end

