-- ==== Sys2Proof/Syntax.lean ====
section
/-! DEFINITION. The instructions: ONE constructor for each row of spec/opcode_table.json (97 rows, the map of
spec/30_encoding.md R89), named after its mnemonic and, where the mnemonic has several rows, its addressing mode.
The 159 other opcode bytes are no instructions: Decode.lean rejects them, and Machine/Engine.lean takes the
invalid-opcode trap for them. -/

namespace Sys2Proof

/-- An instruction with its operand bytes read (spec/30_encoding.md R80 to R87). `m` is immediate data (R83), `z` a
zero-page address (R84), `w` an absolute address `h:l` (R85), `r` a signed branch offset (R86), `n` a slot number (R87). -/
inductive Instr where
  -- Loads (spec/41_load_store.md R130 to R132)
  | ldaImm (m : Byte)
  | ldaZp (z : Byte)
  | ldaZpX (z : Byte)
  | ldaAbs (w : Word)
  | ldaAbsX (w : Word)
  | ldaAbsY (w : Word)
  | ldxImm (m : Byte)
  | ldxZp (z : Byte)
  | ldxZpY (z : Byte)
  | ldxAbs (w : Word)
  | ldxAbsY (w : Word)
  | ldyImm (m : Byte)
  | ldyZp (z : Byte)
  | ldyZpX (z : Byte)
  | ldyAbs (w : Word)
  | ldyAbsX (w : Word)
  -- Stores (spec/41_load_store.md R133 to R135)
  | staZp (z : Byte)
  | staZpX (z : Byte)
  | staAbs (w : Word)
  | staAbsX (w : Word)
  | staAbsY (w : Word)
  | stxZp (z : Byte)
  | stxZpY (z : Byte)
  | stxAbs (w : Word)
  | styZp (z : Byte)
  | styZpX (z : Byte)
  | styAbs (w : Word)
  -- Add with carry and the bitwise operations (spec/42_arith_logic.md R150 to R153)
  | adcImm (m : Byte)
  | adcZp (z : Byte)
  | adcZpX (z : Byte)
  | adcAbs (w : Word)
  | adcAbsX (w : Word)
  | adcAbsY (w : Word)
  | andImm (m : Byte)
  | andZp (z : Byte)
  | andZpX (z : Byte)
  | andAbs (w : Word)
  | andAbsX (w : Word)
  | andAbsY (w : Word)
  | oraImm (m : Byte)
  | oraZp (z : Byte)
  | oraZpX (z : Byte)
  | oraAbs (w : Word)
  | oraAbsX (w : Word)
  | oraAbsY (w : Word)
  | eorImm (m : Byte)
  | eorZp (z : Byte)
  | eorZpX (z : Byte)
  | eorAbs (w : Word)
  | eorAbsX (w : Word)
  | eorAbsY (w : Word)
  -- Compares (spec/42_arith_logic.md R154 to R156)
  | cmpImm (m : Byte)
  | cmpZp (z : Byte)
  | cmpZpX (z : Byte)
  | cmpAbs (w : Word)
  | cmpAbsX (w : Word)
  | cmpAbsY (w : Word)
  | cpxImm (m : Byte)
  | cpxZp (z : Byte)
  | cpxAbs (w : Word)
  | cpyImm (m : Byte)
  | cpyZp (z : Byte)
  | cpyAbs (w : Word)
  -- Increments and decrements (spec/42_arith_logic.md R157, R158, R161 to R164)
  | incZp (z : Byte)
  | incZpX (z : Byte)
  | incAbs (w : Word)
  | incAbsX (w : Word)
  | decZp (z : Byte)
  | decZpX (z : Byte)
  | decAbs (w : Word)
  | decAbsX (w : Word)
  | inx
  | iny
  | dex
  | dey
  -- Jumps, call and return, branches (spec/43_control.md R180 to R193)
  | jmp (w : Word)
  | jsr (w : Word)
  | rts
  | bcc (r : Byte)
  | bcs (r : Byte)
  | beq (r : Byte)
  | bne (r : Byte)
  | bmi (r : Byte)
  | bpl (r : Byte)
  | bvc (r : Byte)
  | bvs (r : Byte)
  -- Stack, flag-clear and system instructions (spec/44_stack_flags_system.md R200 to R221)
  | pha
  | pla
  | php
  | plp
  | clc
  | cld
  | clv
  | cli
  | nop
  | brk (n : Byte)
  | rti
  deriving DecidableEq, Repr

end Sys2Proof
end

