-- ==== Sys2Proof/WellFormed.lean ====
section
/-! DEFINITION. The checks of the spec on what a program or a host writes: reserved operand values
(spec/30_encoding.md R93) and the constraints on a configuration (spec/00_scope.md R5). -/

namespace Sys2Proof

/-- No reserved operand value. The only reserved ones are BRK slot numbers 5 to 255 (spec/30_encoding.md R87, R93).
A reserved slot is still an instruction with a meaning (spec/93_implementation_defined.md U14): the decoder reads it
and `exec` takes the invalid-opcode entry, so no meaning and no decoding rests on this check. -/
def Instr.wellFormed : Instr → Bool
  | .brk s => decide (s.toNat < numSlots)
  | _ => true

/-- A vector entry's two bytes lie in the address space: `VEC_ADDR[i] <= 0xFFFE` (spec/00_scope.md R5). -/
def vecAddrOk (v : Word) : Bool := decide (v.toNat ≤ 0xFFFE)

/-- `SP_INIT` is even and `2 <= SP_INIT <= 0xFFFE` (spec/00_scope.md R5). -/
def spInitOk (v : Word) : Bool := decide (v.toNat % 2 = 0) && (decide (2 ≤ v.toNat) && decide (v.toNat ≤ 0xFFFE))

/-- The constraints of spec/00_scope.md R5 that the fields' widths do not already give. -/
def Config.valid (c : Config) : Bool :=
  vecAddrOk c.vecReset && (vecAddrOk c.vecUser1 && (vecAddrOk c.vecUser2 &&
    (vecAddrOk c.vecInvalid && (vecAddrOk c.vecHalt && spInitOk c.spInit))))

end Sys2Proof
end

