-- ==== Sys2Proof/Decode.lean ====
section
/-! DEFINITION. The decoder, total on any bytes and rejecting by name, and after it the encoder, both written from
spec/30_encoding.md R80 to R91; then what the host reads the opcode table with. -/

namespace Sys2Proof

/-! ## Byte order of words (spec/00_scope.md R7, spec/20_memory.md R53 to R55) -/

/-- `hi:lo`, the 16-bit value `hi * 256 + lo`. -/
def wordOf (hi lo : Byte) : Word := hi ++ lo

/-- `v[15:8]`. -/
def hiByte (v : Word) : Byte := v.extractLsb' 8 8

/-- `v[7:0]`. -/
def loByte (v : Word) : Byte := v.extractLsb' 0 8

/-! ## The opcode map (spec/30_encoding.md R81, R88, R89) -/

/-- What an opcode byte's entry says: the operand bytes its format has (R81) and the instruction they complete. -/
inductive Shape where
  /-- format `IMP`: no operand byte -/
  | implied  (i : Instr)
  /-- formats `IMM`, `ZP`, `REL`, `SLOT`: one operand byte -/
  | withByte (mk : Byte → Instr)
  /-- format `ABS`: two operand bytes, the high byte first (R85) -/
  | withWord (mk : Word → Instr)

/-- How many operand bytes follow the opcode byte (R88). -/
def Shape.operandBytes : Shape → Nat
  | .implied _  => 0
  | .withByte _ => 1
  | .withWord _ => 2

/-- One entry of the opcode map. -/
structure Row where
  opcode : Byte
  shape  : Shape

/-- Loads (spec/41_load_store.md R130 to R132). -/
def loadRows : List Row := [
  ⟨0xA9, .withByte .ldaImm⟩,
  ⟨0xA5, .withByte .ldaZp⟩,
  ⟨0xB5, .withByte .ldaZpX⟩,
  ⟨0xAD, .withWord .ldaAbs⟩,
  ⟨0xBD, .withWord .ldaAbsX⟩,
  ⟨0xB9, .withWord .ldaAbsY⟩,
  ⟨0xA2, .withByte .ldxImm⟩,
  ⟨0xA6, .withByte .ldxZp⟩,
  ⟨0xB6, .withByte .ldxZpY⟩,
  ⟨0xAE, .withWord .ldxAbs⟩,
  ⟨0xBE, .withWord .ldxAbsY⟩,
  ⟨0xA0, .withByte .ldyImm⟩,
  ⟨0xA4, .withByte .ldyZp⟩,
  ⟨0xB4, .withByte .ldyZpX⟩,
  ⟨0xAC, .withWord .ldyAbs⟩,
  ⟨0xBC, .withWord .ldyAbsX⟩]

/-- Stores (spec/41_load_store.md R133 to R135). -/
def storeRows : List Row := [
  ⟨0x85, .withByte .staZp⟩,
  ⟨0x95, .withByte .staZpX⟩,
  ⟨0x8D, .withWord .staAbs⟩,
  ⟨0x9D, .withWord .staAbsX⟩,
  ⟨0x99, .withWord .staAbsY⟩,
  ⟨0x86, .withByte .stxZp⟩,
  ⟨0x96, .withByte .stxZpY⟩,
  ⟨0x8E, .withWord .stxAbs⟩,
  ⟨0x84, .withByte .styZp⟩,
  ⟨0x94, .withByte .styZpX⟩,
  ⟨0x8C, .withWord .styAbs⟩]

/-- Add with carry and the bitwise operations (spec/42_arith_logic.md R150 to R153). -/
def arithRows : List Row := [
  ⟨0x69, .withByte .adcImm⟩,
  ⟨0x65, .withByte .adcZp⟩,
  ⟨0x75, .withByte .adcZpX⟩,
  ⟨0x6D, .withWord .adcAbs⟩,
  ⟨0x7D, .withWord .adcAbsX⟩,
  ⟨0x79, .withWord .adcAbsY⟩,
  ⟨0x29, .withByte .andImm⟩,
  ⟨0x25, .withByte .andZp⟩,
  ⟨0x35, .withByte .andZpX⟩,
  ⟨0x2D, .withWord .andAbs⟩,
  ⟨0x3D, .withWord .andAbsX⟩,
  ⟨0x39, .withWord .andAbsY⟩,
  ⟨0x09, .withByte .oraImm⟩,
  ⟨0x05, .withByte .oraZp⟩,
  ⟨0x15, .withByte .oraZpX⟩,
  ⟨0x0D, .withWord .oraAbs⟩,
  ⟨0x1D, .withWord .oraAbsX⟩,
  ⟨0x19, .withWord .oraAbsY⟩,
  ⟨0x49, .withByte .eorImm⟩,
  ⟨0x45, .withByte .eorZp⟩,
  ⟨0x55, .withByte .eorZpX⟩,
  ⟨0x4D, .withWord .eorAbs⟩,
  ⟨0x5D, .withWord .eorAbsX⟩,
  ⟨0x59, .withWord .eorAbsY⟩]

/-- Compares (spec/42_arith_logic.md R154 to R156). -/
def compareRows : List Row := [
  ⟨0xC9, .withByte .cmpImm⟩,
  ⟨0xC5, .withByte .cmpZp⟩,
  ⟨0xD5, .withByte .cmpZpX⟩,
  ⟨0xCD, .withWord .cmpAbs⟩,
  ⟨0xDD, .withWord .cmpAbsX⟩,
  ⟨0xD9, .withWord .cmpAbsY⟩,
  ⟨0xE0, .withByte .cpxImm⟩,
  ⟨0xE4, .withByte .cpxZp⟩,
  ⟨0xEC, .withWord .cpxAbs⟩,
  ⟨0xC0, .withByte .cpyImm⟩,
  ⟨0xC4, .withByte .cpyZp⟩,
  ⟨0xCC, .withWord .cpyAbs⟩]

/-- Increments and decrements (spec/42_arith_logic.md R157, R158, R161 to R164). -/
def incDecRows : List Row := [
  ⟨0xE6, .withByte .incZp⟩,
  ⟨0xF6, .withByte .incZpX⟩,
  ⟨0xEE, .withWord .incAbs⟩,
  ⟨0xFE, .withWord .incAbsX⟩,
  ⟨0xC6, .withByte .decZp⟩,
  ⟨0xD6, .withByte .decZpX⟩,
  ⟨0xCE, .withWord .decAbs⟩,
  ⟨0xDE, .withWord .decAbsX⟩,
  ⟨0xE8, .implied .inx⟩,
  ⟨0xC8, .implied .iny⟩,
  ⟨0xCA, .implied .dex⟩,
  ⟨0x88, .implied .dey⟩]

/-- Jumps, call and return, branches (spec/43_control.md R180 to R193). -/
def controlRows : List Row := [
  ⟨0x4C, .withWord .jmp⟩,
  ⟨0x20, .withWord .jsr⟩,
  ⟨0x60, .implied .rts⟩,
  ⟨0x90, .withByte .bcc⟩,
  ⟨0xB0, .withByte .bcs⟩,
  ⟨0xF0, .withByte .beq⟩,
  ⟨0xD0, .withByte .bne⟩,
  ⟨0x30, .withByte .bmi⟩,
  ⟨0x10, .withByte .bpl⟩,
  ⟨0x50, .withByte .bvc⟩,
  ⟨0x70, .withByte .bvs⟩]

/-- Stack, flag-clear and system instructions (spec/44_stack_flags_system.md R200 to R221). -/
def systemRows : List Row := [
  ⟨0x48, .implied .pha⟩,
  ⟨0x68, .implied .pla⟩,
  ⟨0x08, .implied .php⟩,
  ⟨0x28, .implied .plp⟩,
  ⟨0x18, .implied .clc⟩,
  ⟨0xD8, .implied .cld⟩,
  ⟨0xB8, .implied .clv⟩,
  ⟨0x58, .implied .cli⟩,
  ⟨0xEA, .implied .nop⟩,
  ⟨0x00, .withByte .brk⟩,
  ⟨0x40, .implied .rti⟩]

/-- The opcode map of spec/30_encoding.md R89: 97 entries. -/
def opcodeMap : List Row :=
  loadRows ++ (storeRows ++ (arithRows ++ (compareRows ++ (incDecRows ++ (controlRows ++ systemRows)))))

/-- The first entry of a list of rows for an opcode byte. -/
def lookupIn : List Row → Byte → Option Shape
  | [], _ => none
  | r :: rs, op => if r.opcode = op then some r.shape else lookupIn rs op

/-- The entry of an opcode byte; `none` is an invalid opcode (R88, R91). -/
def lookup (op : Byte) : Option Shape := lookupIn opcodeMap op

/-! ## The decoder -/

/-- What the decoder answers. -/
inductive DecodeResult where
  /-- an instruction and the bytes after it -/
  | instr (i : Instr) (rest : List Byte)
  /-- the opcode byte is one of the 159 invalid ones (R91) -/
  | invalidOpcode (op : Byte)
  /-- there are fewer bytes than the opcode's format has (R88) -/
  | truncated
  deriving DecidableEq, Repr

/-- Reads one instruction from the front of a list of bytes (R80, R88). -/
def decode : List Byte → DecodeResult
  | [] => .truncated
  | op :: bytes =>
    match lookup op with
    | none => .invalidOpcode op
    | some (.implied i) => .instr i bytes
    | some (.withByte mk) =>
      match bytes with
      | b :: rest => .instr (mk b) rest
      | [] => .truncated
    | some (.withWord mk) =>
      match bytes with
      | h :: l :: rest => .instr (mk (wordOf h l)) rest
      | _ => .truncated

/-! ## The encoder -/

/-- The bytes of an `ABS` instruction: opcode, address high byte, address low byte (R81, R85). -/
def absBytes (op : Byte) (w : Word) : List Byte := [op, hiByte w, loByte w]

/-- The bytes of an instruction, from `pc` upward, written from the encoding tables of spec/41_load_store.md to
spec/44_stack_flags_system.md (the decoder above is written from the map of R89). -/
def encode : Instr → List Byte
  | .ldaImm m => [0xA9, m]
  | .ldaZp z => [0xA5, z]
  | .ldaZpX z => [0xB5, z]
  | .ldaAbs w => absBytes 0xAD w
  | .ldaAbsX w => absBytes 0xBD w
  | .ldaAbsY w => absBytes 0xB9 w
  | .ldxImm m => [0xA2, m]
  | .ldxZp z => [0xA6, z]
  | .ldxZpY z => [0xB6, z]
  | .ldxAbs w => absBytes 0xAE w
  | .ldxAbsY w => absBytes 0xBE w
  | .ldyImm m => [0xA0, m]
  | .ldyZp z => [0xA4, z]
  | .ldyZpX z => [0xB4, z]
  | .ldyAbs w => absBytes 0xAC w
  | .ldyAbsX w => absBytes 0xBC w
  | .staZp z => [0x85, z]
  | .staZpX z => [0x95, z]
  | .staAbs w => absBytes 0x8D w
  | .staAbsX w => absBytes 0x9D w
  | .staAbsY w => absBytes 0x99 w
  | .stxZp z => [0x86, z]
  | .stxZpY z => [0x96, z]
  | .stxAbs w => absBytes 0x8E w
  | .styZp z => [0x84, z]
  | .styZpX z => [0x94, z]
  | .styAbs w => absBytes 0x8C w
  | .adcImm m => [0x69, m]
  | .adcZp z => [0x65, z]
  | .adcZpX z => [0x75, z]
  | .adcAbs w => absBytes 0x6D w
  | .adcAbsX w => absBytes 0x7D w
  | .adcAbsY w => absBytes 0x79 w
  | .andImm m => [0x29, m]
  | .andZp z => [0x25, z]
  | .andZpX z => [0x35, z]
  | .andAbs w => absBytes 0x2D w
  | .andAbsX w => absBytes 0x3D w
  | .andAbsY w => absBytes 0x39 w
  | .oraImm m => [0x09, m]
  | .oraZp z => [0x05, z]
  | .oraZpX z => [0x15, z]
  | .oraAbs w => absBytes 0x0D w
  | .oraAbsX w => absBytes 0x1D w
  | .oraAbsY w => absBytes 0x19 w
  | .eorImm m => [0x49, m]
  | .eorZp z => [0x45, z]
  | .eorZpX z => [0x55, z]
  | .eorAbs w => absBytes 0x4D w
  | .eorAbsX w => absBytes 0x5D w
  | .eorAbsY w => absBytes 0x59 w
  | .cmpImm m => [0xC9, m]
  | .cmpZp z => [0xC5, z]
  | .cmpZpX z => [0xD5, z]
  | .cmpAbs w => absBytes 0xCD w
  | .cmpAbsX w => absBytes 0xDD w
  | .cmpAbsY w => absBytes 0xD9 w
  | .cpxImm m => [0xE0, m]
  | .cpxZp z => [0xE4, z]
  | .cpxAbs w => absBytes 0xEC w
  | .cpyImm m => [0xC0, m]
  | .cpyZp z => [0xC4, z]
  | .cpyAbs w => absBytes 0xCC w
  | .incZp z => [0xE6, z]
  | .incZpX z => [0xF6, z]
  | .incAbs w => absBytes 0xEE w
  | .incAbsX w => absBytes 0xFE w
  | .decZp z => [0xC6, z]
  | .decZpX z => [0xD6, z]
  | .decAbs w => absBytes 0xCE w
  | .decAbsX w => absBytes 0xDE w
  | .inx => [0xE8]
  | .iny => [0xC8]
  | .dex => [0xCA]
  | .dey => [0x88]
  | .jmp w => absBytes 0x4C w
  | .jsr w => absBytes 0x20 w
  | .rts => [0x60]
  | .bcc r => [0x90, r]
  | .bcs r => [0xB0, r]
  | .beq r => [0xF0, r]
  | .bne r => [0xD0, r]
  | .bmi r => [0x30, r]
  | .bpl r => [0x10, r]
  | .bvc r => [0x50, r]
  | .bvs r => [0x70, r]
  | .pha => [0x48]
  | .pla => [0x68]
  | .php => [0x08]
  | .plp => [0x28]
  | .clc => [0x18]
  | .cld => [0xD8]
  | .clv => [0xB8]
  | .cli => [0x58]
  | .nop => [0xEA]
  | .brk n => [0x00, n]
  | .rti => [0x40]

/-! ## The opcode table as the host numbers it -/

/-- The longest instruction's bytes (three) of a table word: byte `k` is bits `8k+7` to `8k` of `w`, so the opcode byte,
which stands at the lowest address, is bits 7 to 0. Every bit at or above `nbits` is 0. -/
def tableWordBytes (nbits w : Nat) : List Byte :=
  let v := w % 2 ^ nbits
  [BitVec.ofNat 8 v, BitVec.ofNat 8 (v / 256), BitVec.ofNat 8 (v / 65536)]

/-- The instruction the decoder reads from a table word; `none` where it refuses. -/
def decodeTableWord (nbits w : Nat) : Option Instr :=
  match decode (tableWordBytes nbits w) with
  | .instr i _ => some i
  | .invalidOpcode _ => none
  | .truncated => none

end Sys2Proof
end

