-- ==== Sys2Proof/Machine/State.lean ====
section
/-! DEFINITION. The state of the machine as plain data: every piece the spec names (spec/10_state.md R20 to R47), the
configuration it runs under, the state after reset, and the reasons a step can stop. -/

namespace Sys2Proof.Machine

/-- The seven flags (spec/10_state.md R29 to R36). -/
structure Flags where
  /-- C, carry -/
  c : Bool
  /-- Z, zero -/
  z : Bool
  /-- I, interrupt-disable: it masks nothing (R34) -/
  i : Bool
  /-- D, decimal: it changes no arithmetic (R35) -/
  d : Bool
  /-- B, break: a stored flag (R36) -/
  b : Bool
  /-- V, overflow -/
  v : Bool
  /-- N, negative -/
  n : Bool
  deriving DecidableEq, Repr

/-- The engine states (spec/10_state.md R42, spec/40_execution.md R102). -/
inductive EngineState where
  | idle
  | fetching
  | decoding
  | executing
  | trapping
  | halted
  | faulted
  deriving DecidableEq, Repr

/-- What the host-visible `fault` register holds when it holds something (spec/10_state.md R43). -/
inductive FaultCause where
  /-- `OutOfRange(addr)`; the failing address, `sp - 2` or branch target can be negative -/
  | outOfRange (addr : Int)
  deriving DecidableEq, Repr

/-- The 65,536 bytes (spec/20_memory.md R50) as the list of those that are not 0x00, in rising order of address: an
address that is not listed reads 0x00, as reset leaves it (spec/10_state.md R46). Machine/Memory.lean holds the reads,
the writes and the canonical form. -/
abbrev Memory := List Host.Cell

/-- The machine. -/
structure State where
  /-- the model's own field: the parameters of spec/00_scope.md R5; no step changes it -/
  cfg         : Config
  /-- the accumulator (R21) -/
  a           : Byte
  /-- index register X (R22) -/
  x           : Byte
  /-- index register Y (R23) -/
  y           : Byte
  /-- the stack pointer: the address of the high byte of the word pushed last (R27) -/
  sp          : Word
  /-- the program counter: between instructions, the address of the next opcode byte (R25) -/
  pc          : Word
  /-- the flags (R29) -/
  flags       : Flags
  /-- the address space (spec/20_memory.md R50) -/
  mem         : Memory
  /-- the cycle budget: it may be negative (R41) -/
  budget      : Int
  /-- what the engine is doing (R42) -/
  engineState : EngineState
  /-- the host-visible fault (R43) -/
  fault       : Option FaultCause
  /-- the bytes sent to the output sink, the oldest first (R44) -/
  outLog      : List Byte
  deriving DecidableEq, Repr

/-- All flags 0 (spec/10_state.md R46). -/
def Flags.clear : Flags where
  c := false
  z := false
  i := false
  d := false
  b := false
  v := false
  n := false

/-- The state `reset()` leaves (spec/10_state.md R46, spec/70_reset_and_hazards.md R270), under the default
configuration (DESIGN CHOICE, notes/assumptions/2.md), for a sink that has received nothing yet (DESIGN CHOICE,
notes/assumptions/1.md: reset itself leaves the log as it was). -/
def State.reset : State where
  cfg         := Config.default
  a           := 0
  x           := 0
  y           := 0
  sp          := Config.default.spInit
  pc          := Config.default.startupPc
  flags       := Flags.clear
  mem         := []
  budget      := 0
  engineState := .idle
  fault       := none
  outLog      := []

/-- Why the machine stops. -/
inductive Fault where
  /-- The fatal fault `OutOfRange(addr)` (spec/60_exceptions.md R242, R243), raised by any byte access past 0xFFFF, any
  completion with `pc` past 0xFFFF, a branch target outside the space, a return address of 0x10000, a push with
  `sp < 2` and a pull with `sp + 2 > 0xFFFF`. `final` is the faulted state: the effects of the primitives that
  completed stay, `pc` is not committed (spec/40_execution.md R108), `fault` and `engineState` are set. SAFE: the spec
  stops here too. -/
  | outOfRange (addr : Int) (final : State)
  /-- Raised by a step of a machine whose `fault` is set: the engine runs no instruction until `reset()`
  (spec/40_execution.md R107, spec/93_implementation_defined.md U3). SAFE: the spec's engine is stuck too. -/
  | stillFaulted
  deriving DecidableEq, Repr

/-- Why the machine refuses. -/
inductive Refusal where
  /-- Raised by an arm of `exec` whose instruction has no meaning yet. SAFE: nothing is claimed of it. -/
  | notModelled (mnemonic : String)
  /-- Raised by a step, or by the host's `execute`, under a configuration that breaks a constraint of
  spec/00_scope.md R5, which is refused (spec/93_implementation_defined.md U12). SAFE: the spec refuses it too. -/
  | badConfiguration
  /-- Raised by the host's `loadImage` when the image does not fit (spec/60_exceptions.md R244,
  spec/93_implementation_defined.md U13). SAFE: the spec refuses the call too, and nothing changes. -/
  | imageOutOfBounds
  deriving DecidableEq, Repr

end Sys2Proof.Machine
end

