-- ==== Sys2Proof/Machine/Flags.lean ====
section
/-! DEFINITION. Every flag computation of the spec: packing (spec/10_state.md R37, R38), SetZN (spec/40_execution.md
R109), add with carry (spec/42_arith_logic.md R150) and the compare law (R168). -/

namespace Sys2Proof.Machine

/-- A flag at bit `k` of a word. -/
def flagBit (b : Bool) (k : Nat) : Word := if b then (1 : Word) <<< k else 0

/-- `packFlags()`: C in bit 0 up to N in bit 6, bits 15 to 7 zero (spec/10_state.md R37). -/
def packFlags (f : Flags) : Word :=
  flagBit f.n 6 ||| flagBit f.v 5 ||| flagBit f.b 4 ||| flagBit f.d 3 ||| flagBit f.i 2 ||| flagBit f.z 1 |||
    flagBit f.c 0

/-- `unpackFlags(w)`: bits 15 to 7 are ignored (spec/10_state.md R38). -/
def unpackFlags (w : Word) : Flags where
  c := w.getLsbD 0
  z := w.getLsbD 1
  i := w.getLsbD 2
  d := w.getLsbD 3
  b := w.getLsbD 4
  v := w.getLsbD 5
  n := w.getLsbD 6

/-- `SetZN(r)`: Z is `r == 0`, N is bit 7 of `r` (spec/40_execution.md R109). -/
def Flags.zn (f : Flags) (r : Byte) : Flags := { f with z := decide (r = 0), n := r.getLsbD 7 }

/-- `t = a + m + C`, exact (spec/42_arith_logic.md R150). -/
def adcSum (a m : Byte) (c : Bool) : Nat := a.toNat + m.toNat + c.toNat

/-- `r = t mod 256` (spec/42_arith_logic.md R150). -/
def adcByte (a m : Byte) (c : Bool) : Byte := BitVec.ofNat 8 (adcSum a m c)

/-- The flags ADC leaves: C is the unsigned carry out of the exact sum, V the signed overflow, Z and N from the result;
D is not looked at (spec/42_arith_logic.md R150, R167). -/
def Flags.adc (f : Flags) (a m : Byte) : Flags :=
  let r := adcByte a m f.c
  { f.zn r with c := decide (adcSum a m f.c > 255), v := decide ((a ^^^ r) &&& (m ^^^ r) &&& 0x80 ≠ 0) }

/-- The compare law: C is `reg >= m` unsigned, Z is `reg == m`, N is bit 7 of `(reg - m) mod 256`; V is unchanged
(spec/42_arith_logic.md R168; spec/90_conflicts.md C1). -/
def Flags.compare (f : Flags) (reg m : Byte) : Flags :=
  { f with c := decide (m.toNat ≤ reg.toNat), z := decide (reg = m), n := (reg - m).getLsbD 7 }

end Sys2Proof.Machine
end

