-- ==== Sys2Proof/Machine/Memory.lean ====
section
/-! DEFINITION. Reading and writing one byte of memory, and memory's canonical form (spec/20_memory.md R50). -/

namespace Sys2Proof.Machine

/-- The byte at an address; 0x00 where nothing is listed (spec/10_state.md R46). -/
def Memory.read : Memory → Nat → Byte
  | [], _ => 0
  | (b, w) :: m, addr => if addr = b then w else Memory.read m addr

/-- Overwrites exactly one byte (spec/20_memory.md R50), keeping the list rising and free of zero bytes. -/
def Memory.write : Memory → Nat → Byte → Memory
  | [], addr, v => if v = 0 then [] else [(addr, v)]
  | (b, w) :: m, addr, v =>
    if addr < b then
      if v = 0 then (b, w) :: m else (addr, v) :: (b, w) :: m
    else if addr = b then
      if v = 0 then m else (addr, v) :: m
    else (b, w) :: Memory.write m addr v

/-- The addresses rise strictly from `lo` on and exist, and no listed byte is 0x00. -/
def Memory.wfFrom : Nat → Memory → Bool
  | _, [] => true
  | lo, (b, w) :: m => decide (lo ≤ b) && (decide (b < memSize) && (decide (w ≠ 0) && Memory.wfFrom (b + 1) m))

/-- The canonical form: two memories in it that read alike everywhere are the same list. -/
def Memory.wf (m : Memory) : Bool := Memory.wfFrom 0 m

/-- Writes bytes at consecutive addresses, in order. -/
def Memory.writeAll : Memory → Nat → List Byte → Memory
  | m, _, [] => m
  | m, addr, v :: vs => Memory.writeAll (m.write addr v) (addr + 1) vs

end Sys2Proof.Machine
end

