-- ==== Sys2Proof/Machine/Ops.lean ====
section
/-! DEFINITION. The named operations every meaning is made of: the updates of one field, the outcome of a primitive, memory
access with its budget unit and the output port, the stack, TAKING AN INTERRUPT as one shared operation with the return
beside it, and completing an instruction. -/

namespace Sys2Proof.Machine

/-! ## Updates of one field -/

def State.setA (v : Byte) (s : State) : State := { s with a := v }
def State.setX (v : Byte) (s : State) : State := { s with x := v }
def State.setY (v : Byte) (s : State) : State := { s with y := v }
def State.setSp (v : Word) (s : State) : State := { s with sp := v }
def State.setPc (v : Word) (s : State) : State := { s with pc := v }
def State.setFlags (v : Flags) (s : State) : State := { s with flags := v }
def State.setEngine (v : EngineState) (s : State) : State := { s with engineState := v }

/-- `n` budget units are debited (spec/40_execution.md R104, R105). -/
def State.debit (n : Nat) (s : State) : State := { s with budget := s.budget - n }

/-- `SetZN(r)` (spec/40_execution.md R109). -/
def State.setZN (r : Byte) (s : State) : State := s.setFlags (s.flags.zn r)

/-- One byte is written, and if it is at `OUT_ADDR` it is also sent to the sink (spec/20_memory.md R60). -/
def State.putByte (addr : Nat) (v : Byte) (s : State) : State :=
  { s with
    mem    := s.mem.write addr v
    outLog := if addr = s.cfg.outAddr.toNat then s.outLog ++ [v] else s.outLog }

/-- What `raise Fault(OutOfRange, addr)` sets (spec/60_exceptions.md R242). -/
def State.faulted (addr : Int) (s : State) : State :=
  { s with fault := some (.outOfRange addr), engineState := .faulted }

/-! ## The outcome of a primitive -/

/-- A primitive answers a value and a state, or finds an address out of range in a state whose earlier effects stay
(spec/40_execution.md R108). -/
inductive Res (α : Type) where
  | ok  (v : α) (s : State)
  | oob (addr : Int) (s : State)
  deriving DecidableEq, Repr

/-- Runs a second primitive after a first one; a fault ends the sequence (spec/40_execution.md R119). -/
def Res.bind {α β : Type} (r : Res α) (k : α → State → Res β) : Res β :=
  match r with
  | .ok v s => k v s
  | .oob addr s => .oob addr s

/-- What an instruction answers. -/
abbrev StepResult := Host.Outcome State Fault Refusal

/-- `raise Fault(OutOfRange, addr)` (spec/60_exceptions.md R242). -/
def raiseFault (addr : Int) (s : State) : StepResult := .fault (.outOfRange addr (s.faulted addr))

/-- `complete:` of `Step()`: the cursor is committed to `pc` unless it lies past 0xFFFF (spec/40_execution.md R101,
spec/10_state.md R26). -/
def complete (cur : Nat) (s : State) : StepResult :=
  if cur < memSize then .next (s.setPc (BitVec.ofNat 16 cur)) else raiseFault cur s

/-- Ends an instruction whose last primitive answers the cursor. -/
def Res.finish (r : Res Nat) : StepResult :=
  match r with
  | .ok cur s => complete cur s
  | .oob addr s => raiseFault addr s

/-- The cursor stands `len` bytes after the instruction's first byte: the next instruction in sequence
(spec/40_execution.md R101). `pc` holds the address of that first byte until the instruction completes (R25). -/
def sequential (len : Nat) (s : State) : Res Nat := .ok (s.pc.toNat + len) s

/-! ## Memory access (spec/20_memory.md R50 to R54) -/

/-- `MemRead(addr, 1)`. Every address the engine gives it is a natural number: R57 and R118 catch a negative one before. -/
def memRead (addr : Nat) (s : State) : Res Byte :=
  if addr < memSize then .ok (s.mem.read addr) (s.debit 1) else .oob addr s

/-- `MemWrite(addr, 1, v)`. -/
def memWrite (addr : Nat) (v : Byte) (s : State) : Res Unit :=
  if addr < memSize then .ok () ((s.putByte addr v).debit 1) else .oob addr s

/-- `ReadWord(addr)`: two byte reads, the high byte first. -/
def readWord (addr : Nat) (s : State) : Res Word :=
  (memRead addr s).bind fun hi s => (memRead (addr + 1) s).bind fun lo s => .ok (wordOf hi lo) s

/-- `WriteWord(addr, v)`: two byte writes, the high byte first. -/
def writeWord (addr : Nat) (v : Word) (s : State) : Res Unit :=
  (memWrite addr (hiByte v) s).bind fun _ s => memWrite (addr + 1) (loByte v) s

/-! ## The stack (spec/20_memory.md R57) -/

/-- `Push16(v)`. -/
def push16 (v : Word) (s : State) : Res Unit :=
  if s.sp.toNat < 2 then .oob ((s.sp.toNat : Int) - 2) s
  else writeWord (s.sp - 2).toNat v (s.setSp (s.sp - 2))

/-- `Pull16()`: the word is read before the check of `sp + 2`. -/
def pull16 (s : State) : Res Word :=
  (readWord s.sp.toNat s).bind fun v s =>
    if 0xFFFF < s.sp.toNat + 2 then .oob (s.sp.toNat + 2 : Nat) s else .ok v (s.setSp (s.sp + 2))

/-! ## Taking an interrupt and returning from one -/

/-- `VEC_ADDR[slot]` (spec/60_exceptions.md R231). -/
def vecAddr (c : Config) : Slot → Word
  | .reset   => c.vecReset
  | .user1   => c.vecUser1
  | .user2   => c.vecUser2
  | .invalid => c.vecInvalid
  | .halt    => c.vecHalt

/-- The slot a BRK operand byte names; `none` for the reserved values 5 to 255 (spec/30_encoding.md R87). -/
def slotOf (n : Byte) : Option Slot :=
  if n = 0 then some .reset
  else if n = 1 then some .user1
  else if n = 2 then some .user2
  else if n = 3 then some .invalid
  else if n = 4 then some .halt
  else none

/-- `Trap(slot, ret)`: the entry sequence shared by BRK and the invalid opcode. It pushes the return address, then the
flags as they were, sets B, and answers the handler's address (spec/60_exceptions.md R236). -/
def trapEntry (slot : Slot) (ret : Nat) (s : State) : Res Nat :=
  if memSize ≤ ret then .oob ret s
  else
    (push16 (BitVec.ofNat 16 ret) s).bind fun _ s =>
      (push16 (packFlags s.flags) s).bind fun _ s =>
        (readWord (vecAddr s.cfg slot).toNat (s.setFlags { s.flags with b := true })).bind fun handler s =>
          .ok handler.toNat s

/-- `InvalidOpcode(op, ret)`: records the byte at `INVOP_ADDR`, then enters slot INVALID (spec/60_exceptions.md R238). -/
def invalidOpcode (op : Byte) (ret : Nat) (s : State) : Res Nat :=
  (memWrite s.cfg.invopAddr.toNat op s).bind fun _ s => trapEntry .invalid ret s

/-- The return from an interrupt: it pulls the flags, then the address to resume at, with no adjustment
(spec/60_exceptions.md R239, spec/44_stack_flags_system.md R221). -/
def interruptReturn (s : State) : Res Nat :=
  (pull16 s).bind fun w s =>
    (pull16 (s.setFlags (unpackFlags w))).bind fun ret s => .ok ret.toNat s

end Sys2Proof.Machine
end

