-- ==== Sys2Proof/Machine/Operands.lean ====
section
/-! DEFINITION. The addressing resolver: every operand form of the spec (spec/40_execution.md R110 to R117). The operand
bytes have been fetched by the step (Machine/Engine.lean). -/

namespace Sys2Proof.Machine

/-- The modes that give an effective address (spec/40_execution.md R110). -/
inductive AddrMode where
  /-- `$zz` -/
  | zeroPage  (z : Byte)
  /-- `$zz,X` -/
  | zeroPageX (z : Byte)
  /-- `$zz,Y` -/
  | zeroPageY (z : Byte)
  /-- `$hhll` -/
  | absolute  (w : Word)
  /-- `$hhll,X` -/
  | absoluteX (w : Word)
  /-- `$hhll,Y` -/
  | absoluteY (w : Word)
  deriving DecidableEq, Repr

/-- An operand to read: inline data, or data at an effective address (spec/40_execution.md R110). -/
inductive Operand where
  /-- `Inline(M)` -/
  | immediate (m : Byte)
  /-- `Address(EA)` -/
  | memory (mode : AddrMode)
  deriving DecidableEq, Repr

/-- Zero-page indexing: it wraps in page 0 if `ZP_WRAP`, and is the plain sum if not (spec/40_execution.md R113, R114). -/
def zeroPageIndexed (c : Config) (z index : Byte) : Nat :=
  if c.zpWrap then (z.toNat + index.toNat) % 256 else z.toNat + index.toNat

/-- The effective address, an unbounded number (spec/40_execution.md R112 to R117). -/
def AddrMode.ea (s : State) : AddrMode → Nat
  | .zeroPage z  => z.toNat
  | .zeroPageX z => zeroPageIndexed s.cfg z s.x
  | .zeroPageY z => zeroPageIndexed s.cfg z s.y
  | .absolute w  => w.toNat
  | .absoluteX w => w.toNat + s.x.toNat
  | .absoluteY w => w.toNat + s.y.toNat

/-- The extra budget units of the mode (spec/40_execution.md R105). -/
def AddrMode.extra : AddrMode → Nat
  | .zeroPage _  => 0
  | .zeroPageX _ => 1
  | .zeroPageY _ => 1
  | .absolute _  => 0
  | .absoluteX _ => 1
  | .absoluteY _ => 1

/-- The length of an instruction with this mode (spec/30_encoding.md R81). -/
def AddrMode.length : AddrMode → Nat
  | .zeroPage _  => 2
  | .zeroPageX _ => 2
  | .zeroPageY _ => 2
  | .absolute _  => 3
  | .absoluteX _ => 3
  | .absoluteY _ => 3

/-- The length of an instruction with this operand (spec/30_encoding.md R81). -/
def Operand.length : Operand → Nat
  | .immediate _ => 2
  | .memory mode => mode.length

/-- `EA(mode)`: the address, its extra units debited (spec/40_execution.md R110). -/
def effective (mode : AddrMode) (s : State) : Res Nat := .ok (mode.ea s) (s.debit mode.extra)

/-- `Operand(mode)`: the operand's value `M` (spec/40_execution.md R110). -/
def operand (o : Operand) (s : State) : Res Byte :=
  match o with
  | .immediate m => .ok m s
  | .memory mode => (effective mode s).bind memRead

end Sys2Proof.Machine
end

