-- ==== Sys2Proof/Machine/ArithLogic.lean ====
section
/-! DEFINITION. Arithmetic, logic, compare, increment and decrement (spec/42_arith_logic.md). -/

namespace Sys2Proof.Machine

/-! ## Shared meanings -/

/-- ADC: `a <- (a + M + C) mod 256` with its four flags (R150). -/
def addWithCarry (o : Operand) (s : State) : StepResult :=
  ((operand o s).bind fun m s =>
    sequential o.length ((s.setFlags (s.flags.adc s.a m)).setA (adcByte s.a m s.flags.c))).finish

/-- AND, ORA, EOR: `a <- f a M; SetZN(a)` (R151 to R153). -/
def bitwise (f : Byte → Byte → Byte) (o : Operand) (s : State) : StepResult :=
  ((operand o s).bind fun m s => sequential o.length ((s.setA (f s.a m)).setZN (f s.a m))).finish

/-- CMP, CPX, CPY: the compare law with the register's value; the register is not written (R154 to R156, R168). -/
def compareWith (reg : Byte) (o : Operand) (s : State) : StepResult :=
  ((operand o s).bind fun m s => sequential o.length (s.setFlags (s.flags.compare reg m))).finish

/-- INC, DEC: one read, one write of `f m`, `SetZN(f m)` (R157, R158). -/
def readModifyWrite (f : Byte → Byte) (mode : AddrMode) (s : State) : StepResult :=
  ((effective mode s).bind fun ea s => (memRead ea s).bind fun m s =>
    (memWrite ea (f m) s).bind fun _ s => sequential mode.length (s.setZN (f m))).finish

/-- INX, INY, DEX, DEY: the register takes `v`, `SetZN(v)` (R161 to R164). -/
def stepRegister (set : Byte → State → State) (v : Byte) (s : State) : StepResult :=
  (sequential 1 ((set v s).setZN v)).finish

/-! ## Add with carry and the bitwise operations -/

/-- ADC Immediate, 0x69 (spec/42_arith_logic.md R150). -/
def execAdcImm (m : Byte) (s : State) : StepResult := addWithCarry (.immediate m) s

/-- ADC ZeroPage, 0x65 (spec/42_arith_logic.md R150). -/
def execAdcZp (z : Byte) (s : State) : StepResult := addWithCarry (.memory (.zeroPage z)) s

/-- ADC ZeroPage,X, 0x75 (spec/42_arith_logic.md R150). -/
def execAdcZpX (z : Byte) (s : State) : StepResult := addWithCarry (.memory (.zeroPageX z)) s

/-- ADC Absolute, 0x6D (spec/42_arith_logic.md R150). -/
def execAdcAbs (w : Word) (s : State) : StepResult := addWithCarry (.memory (.absolute w)) s

/-- ADC Absolute,X, 0x7D (spec/42_arith_logic.md R150). -/
def execAdcAbsX (w : Word) (s : State) : StepResult := addWithCarry (.memory (.absoluteX w)) s

/-- ADC Absolute,Y, 0x79 (spec/42_arith_logic.md R150). -/
def execAdcAbsY (w : Word) (s : State) : StepResult := addWithCarry (.memory (.absoluteY w)) s

/-- AND Immediate, 0x29 (spec/42_arith_logic.md R151). -/
def execAndImm (m : Byte) (s : State) : StepResult := bitwise (fun a m => a &&& m) (.immediate m) s

/-- AND ZeroPage, 0x25 (spec/42_arith_logic.md R151). -/
def execAndZp (z : Byte) (s : State) : StepResult := bitwise (fun a m => a &&& m) (.memory (.zeroPage z)) s

/-- AND ZeroPage,X, 0x35 (spec/42_arith_logic.md R151). -/
def execAndZpX (z : Byte) (s : State) : StepResult := bitwise (fun a m => a &&& m) (.memory (.zeroPageX z)) s

/-- AND Absolute, 0x2D (spec/42_arith_logic.md R151). -/
def execAndAbs (w : Word) (s : State) : StepResult := bitwise (fun a m => a &&& m) (.memory (.absolute w)) s

/-- AND Absolute,X, 0x3D (spec/42_arith_logic.md R151). -/
def execAndAbsX (w : Word) (s : State) : StepResult := bitwise (fun a m => a &&& m) (.memory (.absoluteX w)) s

/-- AND Absolute,Y, 0x39 (spec/42_arith_logic.md R151). -/
def execAndAbsY (w : Word) (s : State) : StepResult := bitwise (fun a m => a &&& m) (.memory (.absoluteY w)) s

/-- ORA Immediate, 0x09 (spec/42_arith_logic.md R152). -/
def execOraImm (m : Byte) (s : State) : StepResult := bitwise (fun a m => a ||| m) (.immediate m) s

/-- ORA ZeroPage, 0x05 (spec/42_arith_logic.md R152). -/
def execOraZp (z : Byte) (s : State) : StepResult := bitwise (fun a m => a ||| m) (.memory (.zeroPage z)) s

/-- ORA ZeroPage,X, 0x15 (spec/42_arith_logic.md R152). -/
def execOraZpX (z : Byte) (s : State) : StepResult := bitwise (fun a m => a ||| m) (.memory (.zeroPageX z)) s

/-- ORA Absolute, 0x0D (spec/42_arith_logic.md R152). -/
def execOraAbs (w : Word) (s : State) : StepResult := bitwise (fun a m => a ||| m) (.memory (.absolute w)) s

/-- ORA Absolute,X, 0x1D (spec/42_arith_logic.md R152). -/
def execOraAbsX (w : Word) (s : State) : StepResult := bitwise (fun a m => a ||| m) (.memory (.absoluteX w)) s

/-- ORA Absolute,Y, 0x19 (spec/42_arith_logic.md R152). -/
def execOraAbsY (w : Word) (s : State) : StepResult := bitwise (fun a m => a ||| m) (.memory (.absoluteY w)) s

/-- EOR Immediate, 0x49 (spec/42_arith_logic.md R153). -/
def execEorImm (m : Byte) (s : State) : StepResult := bitwise (fun a m => a ^^^ m) (.immediate m) s

/-- EOR ZeroPage, 0x45 (spec/42_arith_logic.md R153). -/
def execEorZp (z : Byte) (s : State) : StepResult := bitwise (fun a m => a ^^^ m) (.memory (.zeroPage z)) s

/-- EOR ZeroPage,X, 0x55 (spec/42_arith_logic.md R153). -/
def execEorZpX (z : Byte) (s : State) : StepResult := bitwise (fun a m => a ^^^ m) (.memory (.zeroPageX z)) s

/-- EOR Absolute, 0x4D (spec/42_arith_logic.md R153). -/
def execEorAbs (w : Word) (s : State) : StepResult := bitwise (fun a m => a ^^^ m) (.memory (.absolute w)) s

/-- EOR Absolute,X, 0x5D (spec/42_arith_logic.md R153). -/
def execEorAbsX (w : Word) (s : State) : StepResult := bitwise (fun a m => a ^^^ m) (.memory (.absoluteX w)) s

/-- EOR Absolute,Y, 0x59 (spec/42_arith_logic.md R153). -/
def execEorAbsY (w : Word) (s : State) : StepResult := bitwise (fun a m => a ^^^ m) (.memory (.absoluteY w)) s

/-! ## Compares -/

/-- CMP Immediate, 0xC9 (spec/42_arith_logic.md R154). -/
def execCmpImm (m : Byte) (s : State) : StepResult := compareWith s.a (.immediate m) s

/-- CMP ZeroPage, 0xC5 (spec/42_arith_logic.md R154). -/
def execCmpZp (z : Byte) (s : State) : StepResult := compareWith s.a (.memory (.zeroPage z)) s

/-- CMP ZeroPage,X, 0xD5 (spec/42_arith_logic.md R154). -/
def execCmpZpX (z : Byte) (s : State) : StepResult := compareWith s.a (.memory (.zeroPageX z)) s

/-- CMP Absolute, 0xCD (spec/42_arith_logic.md R154). -/
def execCmpAbs (w : Word) (s : State) : StepResult := compareWith s.a (.memory (.absolute w)) s

/-- CMP Absolute,X, 0xDD (spec/42_arith_logic.md R154). -/
def execCmpAbsX (w : Word) (s : State) : StepResult := compareWith s.a (.memory (.absoluteX w)) s

/-- CMP Absolute,Y, 0xD9 (spec/42_arith_logic.md R154). -/
def execCmpAbsY (w : Word) (s : State) : StepResult := compareWith s.a (.memory (.absoluteY w)) s

/-- CPX Immediate, 0xE0 (spec/42_arith_logic.md R155). -/
def execCpxImm (m : Byte) (s : State) : StepResult := compareWith s.x (.immediate m) s

/-- CPX ZeroPage, 0xE4 (spec/42_arith_logic.md R155). -/
def execCpxZp (z : Byte) (s : State) : StepResult := compareWith s.x (.memory (.zeroPage z)) s

/-- CPX Absolute, 0xEC (spec/42_arith_logic.md R155). -/
def execCpxAbs (w : Word) (s : State) : StepResult := compareWith s.x (.memory (.absolute w)) s

/-- CPY Immediate, 0xC0 (spec/42_arith_logic.md R156). -/
def execCpyImm (m : Byte) (s : State) : StepResult := compareWith s.y (.immediate m) s

/-- CPY ZeroPage, 0xC4 (spec/42_arith_logic.md R156). -/
def execCpyZp (z : Byte) (s : State) : StepResult := compareWith s.y (.memory (.zeroPage z)) s

/-- CPY Absolute, 0xCC (spec/42_arith_logic.md R156). -/
def execCpyAbs (w : Word) (s : State) : StepResult := compareWith s.y (.memory (.absolute w)) s

/-! ## Increments and decrements -/

/-- INC ZeroPage, 0xE6 (spec/42_arith_logic.md R157). -/
def execIncZp (z : Byte) (s : State) : StepResult := readModifyWrite (fun m => m + 1) (.zeroPage z) s

/-- INC ZeroPage,X, 0xF6 (spec/42_arith_logic.md R157). -/
def execIncZpX (z : Byte) (s : State) : StepResult := readModifyWrite (fun m => m + 1) (.zeroPageX z) s

/-- INC Absolute, 0xEE (spec/42_arith_logic.md R157). -/
def execIncAbs (w : Word) (s : State) : StepResult := readModifyWrite (fun m => m + 1) (.absolute w) s

/-- INC Absolute,X, 0xFE (spec/42_arith_logic.md R157). -/
def execIncAbsX (w : Word) (s : State) : StepResult := readModifyWrite (fun m => m + 1) (.absoluteX w) s

/-- DEC ZeroPage, 0xC6 (spec/42_arith_logic.md R158). -/
def execDecZp (z : Byte) (s : State) : StepResult := readModifyWrite (fun m => m - 1) (.zeroPage z) s

/-- DEC ZeroPage,X, 0xD6 (spec/42_arith_logic.md R158). -/
def execDecZpX (z : Byte) (s : State) : StepResult := readModifyWrite (fun m => m - 1) (.zeroPageX z) s

/-- DEC Absolute, 0xCE (spec/42_arith_logic.md R158). -/
def execDecAbs (w : Word) (s : State) : StepResult := readModifyWrite (fun m => m - 1) (.absolute w) s

/-- DEC Absolute,X, 0xDE (spec/42_arith_logic.md R158). -/
def execDecAbsX (w : Word) (s : State) : StepResult := readModifyWrite (fun m => m - 1) (.absoluteX w) s

/-- INX, 0xE8 (spec/42_arith_logic.md R161). -/
def execInx (s : State) : StepResult := stepRegister State.setX (s.x + 1) s

/-- INY, 0xC8 (spec/42_arith_logic.md R162). -/
def execIny (s : State) : StepResult := stepRegister State.setY (s.y + 1) s

/-- DEX, 0xCA (spec/42_arith_logic.md R163). -/
def execDex (s : State) : StepResult := stepRegister State.setX (s.x - 1) s

/-- DEY, 0x88 (spec/42_arith_logic.md R164). -/
def execDey (s : State) : StepResult := stepRegister State.setY (s.y - 1) s

end Sys2Proof.Machine
end

