-- ==== Sys2Proof/Machine/Control.lean ====
section
/-! DEFINITION. Jumps, subroutine call and return, branches (spec/43_control.md). -/

namespace Sys2Proof.Machine

/-! ## Shared meanings -/

/-- The branch rule: the offset is added to the address after the branch; a taken target outside the address space
faults (R185; spec/40_execution.md R118). -/
def branchOn (taken : Bool) (r : Byte) (s : State) : StepResult :=
  if taken then
    let t : Int := (s.pc.toNat + 2 : Nat) + r.toInt
    if t < 0 ∨ 0xFFFF < t then raiseFault t s else complete t.toNat s
  else (sequential 2 s).finish

/-! ## Jump, call and return -/

/-- JMP Absolute, 0x4C (spec/43_control.md R180). -/
def execJmp (w : Word) (s : State) : StepResult := complete w.toNat s

/-- JSR Absolute, 0x20 (spec/43_control.md R181). -/
def execJsr (w : Word) (s : State) : StepResult :=
  let ret := s.pc.toNat + 3
  if memSize ≤ ret then raiseFault ret s
  else ((push16 (BitVec.ofNat 16 ret) s).bind fun _ s => .ok w.toNat s).finish

/-- RTS, 0x60 (spec/43_control.md R182). -/
def execRts (s : State) : StepResult := ((pull16 s).bind fun ret s => .ok ret.toNat s).finish

/-! ## Branches -/

/-- BCC relative, 0x90 (spec/43_control.md R186). -/
def execBcc (r : Byte) (s : State) : StepResult := branchOn (!s.flags.c) r s

/-- BCS relative, 0xB0 (spec/43_control.md R187). -/
def execBcs (r : Byte) (s : State) : StepResult := branchOn s.flags.c r s

/-- BEQ relative, 0xF0 (spec/43_control.md R188). -/
def execBeq (r : Byte) (s : State) : StepResult := branchOn s.flags.z r s

/-- BNE relative, 0xD0 (spec/43_control.md R189). -/
def execBne (r : Byte) (s : State) : StepResult := branchOn (!s.flags.z) r s

/-- BMI relative, 0x30 (spec/43_control.md R190). -/
def execBmi (r : Byte) (s : State) : StepResult := branchOn s.flags.n r s

/-- BPL relative, 0x10 (spec/43_control.md R191). -/
def execBpl (r : Byte) (s : State) : StepResult := branchOn (!s.flags.n) r s

/-- BVC relative, 0x50 (spec/43_control.md R192). -/
def execBvc (r : Byte) (s : State) : StepResult := branchOn (!s.flags.v) r s

/-- BVS relative, 0x70 (spec/43_control.md R193). -/
def execBvs (r : Byte) (s : State) : StepResult := branchOn s.flags.v r s

end Sys2Proof.Machine
end

