-- ==== Sys2Proof/Machine/LoadStore.lean ====
section
/-! DEFINITION. The load and store instructions (spec/41_load_store.md). -/

namespace Sys2Proof.Machine

/-! ## Shared meanings -/

/-- A load: `reg <- Operand(mode); SetZN(reg)`, `set` writing the register (R130 to R132). -/
def loadInto (set : Byte → State → State) (o : Operand) (s : State) : StepResult :=
  ((operand o s).bind fun m s => sequential o.length ((set m s).setZN m)).finish

/-- A store: `e <- EA(mode); MemWrite(e, 1, v)`, no flag written (R133 to R135). -/
def storeFrom (v : Byte) (mode : AddrMode) (s : State) : StepResult :=
  ((effective mode s).bind fun ea s => (memWrite ea v s).bind fun _ s => sequential mode.length s).finish

/-! ## Loads -/

/-- LDA Immediate, 0xA9 (spec/41_load_store.md R130). -/
def execLdaImm (m : Byte) (s : State) : StepResult := loadInto State.setA (.immediate m) s

/-- LDA ZeroPage, 0xA5 (spec/41_load_store.md R130). -/
def execLdaZp (z : Byte) (s : State) : StepResult := loadInto State.setA (.memory (.zeroPage z)) s

/-- LDA ZeroPage,X, 0xB5 (spec/41_load_store.md R130). -/
def execLdaZpX (z : Byte) (s : State) : StepResult := loadInto State.setA (.memory (.zeroPageX z)) s

/-- LDA Absolute, 0xAD (spec/41_load_store.md R130). -/
def execLdaAbs (w : Word) (s : State) : StepResult := loadInto State.setA (.memory (.absolute w)) s

/-- LDA Absolute,X, 0xBD (spec/41_load_store.md R130). -/
def execLdaAbsX (w : Word) (s : State) : StepResult := loadInto State.setA (.memory (.absoluteX w)) s

/-- LDA Absolute,Y, 0xB9 (spec/41_load_store.md R130). -/
def execLdaAbsY (w : Word) (s : State) : StepResult := loadInto State.setA (.memory (.absoluteY w)) s

/-- LDX Immediate, 0xA2 (spec/41_load_store.md R131). -/
def execLdxImm (m : Byte) (s : State) : StepResult := loadInto State.setX (.immediate m) s

/-- LDX ZeroPage, 0xA6 (spec/41_load_store.md R131). -/
def execLdxZp (z : Byte) (s : State) : StepResult := loadInto State.setX (.memory (.zeroPage z)) s

/-- LDX ZeroPage,Y, 0xB6 (spec/41_load_store.md R131). -/
def execLdxZpY (z : Byte) (s : State) : StepResult := loadInto State.setX (.memory (.zeroPageY z)) s

/-- LDX Absolute, 0xAE (spec/41_load_store.md R131). -/
def execLdxAbs (w : Word) (s : State) : StepResult := loadInto State.setX (.memory (.absolute w)) s

/-- LDX Absolute,Y, 0xBE (spec/41_load_store.md R131). -/
def execLdxAbsY (w : Word) (s : State) : StepResult := loadInto State.setX (.memory (.absoluteY w)) s

/-- LDY Immediate, 0xA0 (spec/41_load_store.md R132). -/
def execLdyImm (m : Byte) (s : State) : StepResult := loadInto State.setY (.immediate m) s

/-- LDY ZeroPage, 0xA4 (spec/41_load_store.md R132). -/
def execLdyZp (z : Byte) (s : State) : StepResult := loadInto State.setY (.memory (.zeroPage z)) s

/-- LDY ZeroPage,X, 0xB4 (spec/41_load_store.md R132). -/
def execLdyZpX (z : Byte) (s : State) : StepResult := loadInto State.setY (.memory (.zeroPageX z)) s

/-- LDY Absolute, 0xAC (spec/41_load_store.md R132). -/
def execLdyAbs (w : Word) (s : State) : StepResult := loadInto State.setY (.memory (.absolute w)) s

/-- LDY Absolute,X, 0xBC (spec/41_load_store.md R132). -/
def execLdyAbsX (w : Word) (s : State) : StepResult := loadInto State.setY (.memory (.absoluteX w)) s

/-! ## Stores -/

/-- STA ZeroPage, 0x85 (spec/41_load_store.md R133). -/
def execStaZp (z : Byte) (s : State) : StepResult := storeFrom s.a (.zeroPage z) s

/-- STA ZeroPage,X, 0x95 (spec/41_load_store.md R133). -/
def execStaZpX (z : Byte) (s : State) : StepResult := storeFrom s.a (.zeroPageX z) s

/-- STA Absolute, 0x8D (spec/41_load_store.md R133). -/
def execStaAbs (w : Word) (s : State) : StepResult := storeFrom s.a (.absolute w) s

/-- STA Absolute,X, 0x9D (spec/41_load_store.md R133). -/
def execStaAbsX (w : Word) (s : State) : StepResult := storeFrom s.a (.absoluteX w) s

/-- STA Absolute,Y, 0x99 (spec/41_load_store.md R133). -/
def execStaAbsY (w : Word) (s : State) : StepResult := storeFrom s.a (.absoluteY w) s

/-- STX ZeroPage, 0x86 (spec/41_load_store.md R134). -/
def execStxZp (z : Byte) (s : State) : StepResult := storeFrom s.x (.zeroPage z) s

/-- STX ZeroPage,Y, 0x96 (spec/41_load_store.md R134). -/
def execStxZpY (z : Byte) (s : State) : StepResult := storeFrom s.x (.zeroPageY z) s

/-- STX Absolute, 0x8E (spec/41_load_store.md R134). -/
def execStxAbs (w : Word) (s : State) : StepResult := storeFrom s.x (.absolute w) s

/-- STY ZeroPage, 0x84 (spec/41_load_store.md R135). -/
def execStyZp (z : Byte) (s : State) : StepResult := storeFrom s.y (.zeroPage z) s

/-- STY ZeroPage,X, 0x94 (spec/41_load_store.md R135). -/
def execStyZpX (z : Byte) (s : State) : StepResult := storeFrom s.y (.zeroPageX z) s

/-- STY Absolute, 0x8C (spec/41_load_store.md R135). -/
def execStyAbs (w : Word) (s : State) : StepResult := storeFrom s.y (.absolute w) s

end Sys2Proof.Machine
end

