-- ==== Sys2Proof/Machine/StackFlagsSystem.lean ====
section
/-! DEFINITION. Stack, flag-clear and system instructions (spec/44_stack_flags_system.md). -/

namespace Sys2Proof.Machine

/-! ## Shared meanings -/

/-- PHA, PHP: a word is pushed (R200, R202). -/
def pushWord (v : Word) (s : State) : StepResult := ((push16 v s).bind fun _ s => sequential 1 s).finish

/-- PLA, PLP: a word is pulled and `use`d (R201, R203). -/
def pullWord (use : Word → State → State) (s : State) : StepResult :=
  ((pull16 s).bind fun w s => sequential 1 (use w s)).finish

/-- CLC, CLD, CLV, CLI, NOP: the flags become `f` and nothing else changes (R210 to R214). -/
def setFlagsOnly (f : Flags) (s : State) : StepResult := (sequential 1 (s.setFlags f)).finish

/-! ## Stack push and pull -/

/-- PHA, 0x48 (spec/44_stack_flags_system.md R200). -/
def execPha (s : State) : StepResult := pushWord (s.a.setWidth 16) s

/-- PLA, 0x68 (spec/44_stack_flags_system.md R201). -/
def execPla (s : State) : StepResult := pullWord (fun w s => (s.setA (loByte w)).setZN (loByte w)) s

/-- PHP, 0x08 (spec/44_stack_flags_system.md R202). -/
def execPhp (s : State) : StepResult := pushWord (packFlags s.flags) s

/-- PLP, 0x28 (spec/44_stack_flags_system.md R203). -/
def execPlp (s : State) : StepResult := pullWord (fun w s => s.setFlags (unpackFlags w)) s

/-! ## Flag-clear and no-op -/

/-- CLC, 0x18 (spec/44_stack_flags_system.md R210). -/
def execClc (s : State) : StepResult := setFlagsOnly { s.flags with c := false } s

/-- CLD, 0xD8 (spec/44_stack_flags_system.md R211). -/
def execCld (s : State) : StepResult := setFlagsOnly { s.flags with d := false } s

/-- CLV, 0xB8 (spec/44_stack_flags_system.md R212). -/
def execClv (s : State) : StepResult := setFlagsOnly { s.flags with v := false } s

/-- CLI, 0x58 (spec/44_stack_flags_system.md R213). -/
def execCli (s : State) : StepResult := setFlagsOnly { s.flags with i := false } s

/-- NOP, 0xEA (spec/44_stack_flags_system.md R214). -/
def execNop (s : State) : StepResult := setFlagsOnly s.flags s

/-! ## Software interrupt and interrupt return -/

/-- BRK #slot, 0x00 (spec/44_stack_flags_system.md R220). -/
def execBrk (n : Byte) (s : State) : StepResult :=
  match slotOf n with
  | some slot => (trapEntry slot (s.pc.toNat + 2) s).finish
  | none => (invalidOpcode 0x00 (s.pc.toNat + 2) s).finish

/-- RTI, 0x40 (spec/44_stack_flags_system.md R221). -/
def execRti (s : State) : StepResult := (interruptReturn s).finish

end Sys2Proof.Machine
end

