-- ==== Sys2Proof/Machine/Engine.lean ====
section
/-! DEFINITION. The execution engine: fetching an instruction's bytes, decoding, and running it (`Step()` of
spec/40_execution.md R101), and how bytes are laid out where the next fetch reads them. -/

namespace Sys2Proof.Machine

/-- `Fetch8()` at a cursor (spec/40_execution.md R101). -/
def fetch8 (cur : Nat) (s : State) : Res Byte := memRead cur s

/-- `Fetch16()` at a cursor: the high byte first (spec/20_memory.md R54). -/
def fetch16 (cur : Nat) (s : State) : Res Word :=
  (fetch8 cur s).bind fun hi s => (fetch8 (cur + 1) s).bind fun lo s => .ok (wordOf hi lo) s

/-- Runs an instruction once its bytes are fetched. -/
def executing (i : Instr) (s : State) : StepResult := exec i (s.setEngine .executing)

/-- What follows the opcode fetch: decode by the opcode map, fetch the operand bytes its format has, execute; or take the
invalid-opcode trap (spec/40_execution.md R101, R119; spec/60_exceptions.md R235, R238, R241). -/
def decodeAndExecute (op : Byte) (s : State) : StepResult :=
  match lookup op with
  | none => (invalidOpcode op (s.pc.toNat + 1) (s.setEngine .trapping)).finish
  | some (.implied i) => executing i s
  | some (.withByte mk) =>
    match fetch8 (s.pc.toNat + 1) s with
    | .ok b s => executing (mk b) s
    | .oob addr s => raiseFault addr s
  | some (.withWord mk) =>
    match fetch16 (s.pc.toNat + 1) s with
    | .ok w s => executing (mk w) s
    | .oob addr s => raiseFault addr s

/-- `Step()` (spec/40_execution.md R101): one whole instruction, or one invalid-opcode entry. -/
def runInstruction (s : State) : StepResult :=
  match fetch8 s.pc.toNat (s.setEngine .fetching) with
  | .ok op s => decodeAndExecute op (s.setEngine .decoding)
  | .oob addr s => raiseFault addr s

/-- One step of the machine: refused under a configuration that breaks spec/00_scope.md R5, stuck once `fault` is set
(spec/40_execution.md R107), else one instruction. -/
def engineStep (s : State) : StepResult :=
  if s.cfg.valid then
    match s.fault with
    | none => runInstruction s
    | some _ => .fault .stillFaulted
  else .refused .badConfiguration

/-- Bytes placed from an address on by the host, not by the core: nothing is emitted and no unit is debited
(spec/70_reset_and_hazards.md R273); a byte that would lie past 0xFFFF is left out. -/
def State.place (addr : Nat) (bytes : List Byte) (s : State) : State :=
  { s with mem := s.mem.writeAll addr (bytes.take (memSize - addr)) }

end Sys2Proof.Machine
end

