-- ==== Sys2Proof/Machine/Step.lean ====
section
/-! DEFINITION. The step, and the state whose next fetch reads a given instruction. -/

namespace Sys2Proof.Machine

/-- One step: one instruction (spec/40_execution.md R101; the budget test is the run command's, R103). -/
def step (s : State) : Host.Outcome State Fault Refusal := engineStep s

/-- `s` with the instruction of a table word stored at `pc`, where the next step fetches (spec/30_encoding.md R80). -/
def State.withFetchWord (s : State) (nbits w : Nat) : State := s.place s.pc.toNat (tableWordBytes nbits w)

end Sys2Proof.Machine
end

