-- ==== Sys2Proof/Machine/HostInterface.lean ====
section
/-! DEFINITION. What the host can do to the block: reset, load an image, run with a budget, look (spec/00_scope.md R12). -/

namespace Sys2Proof.Machine

/-- `reset()`: every piece of state to its reset value; the sink's log and the configuration stay
(spec/70_reset_and_hazards.md R270; spec/10_state.md R44, R46). -/
def hostReset (s : State) : State :=
  { s with
    a := 0, x := 0, y := 0
    sp := s.cfg.spInit
    pc := s.cfg.startupPc
    flags := Flags.clear
    mem := []
    budget := 0
    engineState := .idle
    fault := none }

/-- `loadImage(address, bytes)`: refused, with nothing changed, if the image does not fit; else plain writes that emit
nothing and debit nothing (spec/70_reset_and_hazards.md R273; spec/60_exceptions.md R244). -/
def loadImage (addr : Nat) (bytes : List Byte) (s : State) : StepResult :=
  if addr + bytes.length ≤ memSize then .next { s with mem := s.mem.writeAll addr bytes }
  else .refused .imageOutOfBounds

/-- The status `execute` returns (spec/00_scope.md R12). -/
inductive RunStatus where
  | budgetExhausted
  | faulted
  deriving DecidableEq, Repr

/-- What a call of `execute` leaves: the budget it returns is `final.budget` (spec/10_state.md R41). -/
structure RunResult where
  status : RunStatus
  final  : State
  deriving DecidableEq, Repr

/-- The loop of `execute`: it tests the budget only before an instruction (spec/40_execution.md R100, R103). Every
instruction debits at least one unit, so `fuel` = the budget is enough. -/
def runLoop : Nat → State → Host.Outcome RunResult Fault Refusal
  | 0, s => .next ⟨.budgetExhausted, s.setEngine .halted⟩
  | fuel + 1, s =>
    if 0 < s.budget then
      match step s with
      | .next s' => runLoop fuel s'
      | .fault (.outOfRange _ final) => .next ⟨.faulted, final⟩
      | .fault .stillFaulted => .fault .stillFaulted
      | .refused r => .refused r
    else .next ⟨.budgetExhausted, s.setEngine .halted⟩

/-- `execute(n)` (spec/40_execution.md R100, R107). -/
def execute (n : Int) (s : State) : Host.Outcome RunResult Fault Refusal :=
  if s.cfg.valid then
    match s.fault with
    | some _ => .next ⟨.faulted, s⟩
    | none => runLoop n.toNat { s with budget := n, engineState := .idle }
  else .refused .badConfiguration

/-- The accessor of the packed flag word (spec/10_state.md R45). -/
def flagWord (s : State) : Word := packFlags s.flags

/-- The accessor of a memory byte (spec/10_state.md R45). -/
def peekByte (addr : Word) (s : State) : Byte := s.mem.read addr.toNat

end Sys2Proof.Machine
end

