-- ==== Sys2Proof/Safety.lean ====
section
/-! DEFINITION. The terms the statements use: a run, a safe run, the invariant, what the spec's tables say of each
instruction (which state it may write, what it stores, what it costs), and the results the rules give. None of it is
used by the machine. -/

namespace Sys2Proof

/-! ## What the spec's tables say of each instruction -/

/-- The mnemonics (spec/opcode_table.json). -/
inductive Mnemonic where
  | lda | ldx | ldy | sta | stx | sty | adc | and | ora | eor | cmp | cpx | cpy | inc | dec | inx | iny | dex
  | dey | jmp | jsr | rts | bcc | bcs | beq | bne | bmi | bpl | bvc | bvs | pha | pla | php | plp | clc | cld
  | clv | cli | nop | brk | rti
  deriving DecidableEq, Repr

/-- An instruction's mnemonic, whatever its addressing mode. -/
def Instr.mnemonic : Instr → Mnemonic
  | .ldaImm _ | .ldaZp _ | .ldaZpX _ | .ldaAbs _ | .ldaAbsX _ | .ldaAbsY _ => .lda
  | .ldxImm _ | .ldxZp _ | .ldxZpY _ | .ldxAbs _ | .ldxAbsY _ => .ldx
  | .ldyImm _ | .ldyZp _ | .ldyZpX _ | .ldyAbs _ | .ldyAbsX _ => .ldy
  | .staZp _ | .staZpX _ | .staAbs _ | .staAbsX _ | .staAbsY _ => .sta
  | .stxZp _ | .stxZpY _ | .stxAbs _ => .stx
  | .styZp _ | .styZpX _ | .styAbs _ => .sty
  | .adcImm _ | .adcZp _ | .adcZpX _ | .adcAbs _ | .adcAbsX _ | .adcAbsY _ => .adc
  | .andImm _ | .andZp _ | .andZpX _ | .andAbs _ | .andAbsX _ | .andAbsY _ => .and
  | .oraImm _ | .oraZp _ | .oraZpX _ | .oraAbs _ | .oraAbsX _ | .oraAbsY _ => .ora
  | .eorImm _ | .eorZp _ | .eorZpX _ | .eorAbs _ | .eorAbsX _ | .eorAbsY _ => .eor
  | .cmpImm _ | .cmpZp _ | .cmpZpX _ | .cmpAbs _ | .cmpAbsX _ | .cmpAbsY _ => .cmp
  | .cpxImm _ | .cpxZp _ | .cpxAbs _ => .cpx
  | .cpyImm _ | .cpyZp _ | .cpyAbs _ => .cpy
  | .incZp _ | .incZpX _ | .incAbs _ | .incAbsX _ => .inc
  | .decZp _ | .decZpX _ | .decAbs _ | .decAbsX _ => .dec
  | .inx => .inx
  | .iny => .iny
  | .dex => .dex
  | .dey => .dey
  | .jmp _ => .jmp
  | .jsr _ => .jsr
  | .rts => .rts
  | .bcc _ => .bcc
  | .bcs _ => .bcs
  | .beq _ => .beq
  | .bne _ => .bne
  | .bmi _ => .bmi
  | .bpl _ => .bpl
  | .bvc _ => .bvc
  | .bvs _ => .bvs
  | .pha => .pha
  | .pla => .pla
  | .php => .php
  | .plp => .plp
  | .clc => .clc
  | .cld => .cld
  | .clv => .clv
  | .cli => .cli
  | .nop => .nop
  | .brk _ => .brk
  | .rti => .rti

/-- The addressing modes that add an index register (spec/40_execution.md R113, R114, R116, R117). -/
inductive Index where
  | x | y
  deriving DecidableEq, Repr

/-- The index register an instruction's addressing mode adds, if any. -/
def Instr.index : Instr → Option Index
  | .ldaZpX _ | .ldaAbsX _ | .ldyZpX _ | .ldyAbsX _ | .staZpX _ | .staAbsX _ | .styZpX _ | .adcZpX _
  | .adcAbsX _ | .andZpX _ | .andAbsX _ | .oraZpX _ | .oraAbsX _ | .eorZpX _ | .eorAbsX _ | .cmpZpX _
  | .cmpAbsX _ | .incZpX _ | .incAbsX _ | .decZpX _ | .decAbsX _ => some .x
  | .ldaAbsY _ | .ldxZpY _ | .ldxAbsY _ | .staAbsY _ | .stxZpY _ | .adcAbsY _ | .andAbsY _ | .oraAbsY _
  | .eorAbsY _ | .cmpAbsY _ => some .y
  | .ldaImm _ | .ldaZp _ | .ldaAbs _ | .ldxImm _ | .ldxZp _ | .ldxAbs _ | .ldyImm _ | .ldyZp _ | .ldyAbs _
  | .staZp _ | .staAbs _ | .stxZp _ | .stxAbs _ | .styZp _ | .styAbs _ | .adcImm _ | .adcZp _ | .adcAbs _
  | .andImm _ | .andZp _ | .andAbs _ | .oraImm _ | .oraZp _ | .oraAbs _ | .eorImm _ | .eorZp _ | .eorAbs _
  | .cmpImm _ | .cmpZp _ | .cmpAbs _ | .cpxImm _ | .cpxZp _ | .cpxAbs _ | .cpyImm _ | .cpyZp _ | .cpyAbs _
  | .incZp _ | .incAbs _ | .decZp _ | .decAbs _ | .inx | .iny | .dex | .dey | .jmp _ | .jsr _ | .rts | .bcc _
  | .bcs _ | .beq _ | .bne _ | .bmi _ | .bpl _ | .bvc _ | .bvs _ | .pha | .pla | .php | .plp | .clc | .cld
  | .clv | .cli | .nop | .brk _ | .rti => none

/-- The instructions that write `a` (spec/10_state.md R21). -/
def Instr.writesA (i : Instr) : Bool :=
  decide (i.mnemonic ∈ [.lda, .adc, .and, .ora, .eor, .pla])

/-- The instructions that write `x` (spec/10_state.md R22). -/
def Instr.writesX (i : Instr) : Bool :=
  decide (i.mnemonic ∈ [.ldx, .inx, .dex])

/-- The instructions that write `y` (spec/10_state.md R23). -/
def Instr.writesY (i : Instr) : Bool :=
  decide (i.mnemonic ∈ [.ldy, .iny, .dey])

/-- The instructions that read `a` (spec/10_state.md R21). -/
def Instr.readsA (i : Instr) : Bool :=
  decide (i.mnemonic ∈ [.sta, .adc, .and, .ora, .eor, .cmp, .pha])

/-- The instructions that read `x`, the indexed modes among them (spec/10_state.md R22). -/
def Instr.readsX (i : Instr) : Bool :=
  decide (i.mnemonic ∈ [.stx, .cpx, .inx, .dex]) || decide (i.index = some .x)

/-- The instructions that read `y`, the indexed modes among them (spec/10_state.md R23). -/
def Instr.readsY (i : Instr) : Bool :=
  decide (i.mnemonic ∈ [.sty, .cpy, .iny, .dey]) || decide (i.index = some .y)

/-- The instructions that write C (spec/10_state.md R30). -/
def Instr.writesC (i : Instr) : Bool :=
  decide (i.mnemonic ∈ [.adc, .cmp, .cpx, .cpy, .clc, .plp, .rti])

/-- The instructions that write Z and N (spec/10_state.md R31, R32). -/
def Instr.writesZN (i : Instr) : Bool :=
  decide (i.mnemonic ∈ [.lda, .ldx, .ldy, .adc, .and, .ora, .eor, .cmp, .cpx, .cpy, .inc, .dec, .inx, .iny,
    .dex, .dey, .pla, .plp, .rti])

/-- The instructions that write V (spec/10_state.md R33). -/
def Instr.writesV (i : Instr) : Bool :=
  decide (i.mnemonic ∈ [.adc, .clv, .plp, .rti])

/-- The instructions that write I (spec/10_state.md R34). -/
def Instr.writesI (i : Instr) : Bool :=
  decide (i.mnemonic ∈ [.cli, .plp, .rti])

/-- The instructions that write D (spec/10_state.md R35). -/
def Instr.writesD (i : Instr) : Bool :=
  decide (i.mnemonic ∈ [.cld, .plp, .rti])

/-- The instructions that write B (spec/10_state.md R36). -/
def Instr.writesB (i : Instr) : Bool :=
  decide (i.mnemonic ∈ [.brk, .plp, .rti])

/-- The instructions that pack the flags, the only readers of I, D and B (spec/10_state.md R34 to R36). -/
def Instr.packsFlags (i : Instr) : Bool :=
  decide (i.mnemonic ∈ [.php, .brk])

/-- The instructions that may set `pc` to a target (spec/43_control.md, spec/44_stack_flags_system.md R220, R221). -/
def Instr.transfersControl (i : Instr) : Bool :=
  decide (i.mnemonic ∈ [.jmp, .jsr, .rts, .bcc, .bcs, .beq, .bne, .bmi, .bpl, .bvc, .bvs, .brk, .rti])

/-- How far an instruction moves `sp`, modulo 2^16: down by 2 for each push, up by 2 for each pull
(spec/10_state.md R27). -/
def Instr.spChange (i : Instr) : Word :=
  if i.mnemonic ∈ [.jsr, .pha, .php] then -2
  else if i.mnemonic = .brk then -4
  else if i.mnemonic ∈ [.rts, .pla, .plp] then 2
  else if i.mnemonic = .rti then 4
  else 0

/-- The budget units of each instruction, from the table of spec/40_execution.md R106. -/
def Instr.units : Instr → Nat
  | .inx | .iny | .dex | .dey | .clc | .cld | .clv | .cli | .nop => 1
  | .ldaImm _ | .ldxImm _ | .ldyImm _ | .adcImm _ | .andImm _ | .oraImm _ | .eorImm _ | .cmpImm _ | .cpxImm _
  | .cpyImm _ | .bcc _ | .bcs _ | .beq _ | .bne _ | .bmi _ | .bpl _ | .bvc _ | .bvs _ => 2
  | .ldaZp _ | .ldxZp _ | .ldyZp _ | .staZp _ | .stxZp _ | .styZp _ | .adcZp _ | .andZp _ | .oraZp _ | .eorZp _
  | .cmpZp _ | .cpxZp _ | .cpyZp _ | .jmp _ | .rts | .pha | .pla | .php | .plp => 3
  | .ldaZpX _ | .ldaAbs _ | .ldxZpY _ | .ldxAbs _ | .ldyZpX _ | .ldyAbs _ | .staZpX _ | .staAbs _ | .stxZpY _
  | .stxAbs _ | .styZpX _ | .styAbs _ | .adcZpX _ | .adcAbs _ | .andZpX _ | .andAbs _ | .oraZpX _ | .oraAbs _
  | .eorZpX _ | .eorAbs _ | .cmpZpX _ | .cmpAbs _ | .cpxAbs _ | .cpyAbs _ | .incZp _ | .decZp _ => 4
  | .ldaAbsX _ | .ldaAbsY _ | .ldxAbsY _ | .ldyAbsX _ | .staAbsX _ | .staAbsY _ | .adcAbsX _ | .adcAbsY _
  | .andAbsX _ | .andAbsY _ | .oraAbsX _ | .oraAbsY _ | .eorAbsX _ | .eorAbsY _ | .cmpAbsX _ | .cmpAbsY _
  | .incZpX _ | .incAbs _ | .decZpX _ | .decAbs _ | .jsr _ | .rti => 5
  | .incAbsX _ | .decAbsX _ => 6
  | .brk n => if n.toNat < numSlots then 8 else 9

/-- The 159 invalid opcode bytes, as spec/30_encoding.md R91 lists them. -/
def invalidOpcodes : List Byte :=
  [0x01, 0x02, 0x03, 0x04, 0x06, 0x07, 0x0A, 0x0B, 0x0C, 0x0E, 0x0F, 0x11, 0x12, 0x13, 0x14, 0x16] ++
  [0x17, 0x1A, 0x1B, 0x1C, 0x1E, 0x1F, 0x21, 0x22, 0x23, 0x24, 0x26, 0x27, 0x2A, 0x2B, 0x2C, 0x2E] ++
  [0x2F, 0x31, 0x32, 0x33, 0x34, 0x36, 0x37, 0x38, 0x3A, 0x3B, 0x3C, 0x3E, 0x3F, 0x41, 0x42, 0x43] ++
  [0x44, 0x46, 0x47, 0x4A, 0x4B, 0x4E, 0x4F, 0x51, 0x52, 0x53, 0x54, 0x56, 0x57, 0x5A, 0x5B, 0x5C] ++
  [0x5E, 0x5F, 0x61, 0x62, 0x63, 0x64, 0x66, 0x67, 0x6A, 0x6B, 0x6C, 0x6E, 0x6F, 0x71, 0x72, 0x73] ++
  [0x74, 0x76, 0x77, 0x78, 0x7A, 0x7B, 0x7C, 0x7E, 0x7F, 0x80, 0x81, 0x82, 0x83, 0x87, 0x89, 0x8A] ++
  [0x8B, 0x8F, 0x91, 0x92, 0x93, 0x97, 0x98, 0x9A, 0x9B, 0x9C, 0x9E, 0x9F, 0xA1, 0xA3, 0xA7, 0xA8] ++
  [0xAA, 0xAB, 0xAF, 0xB1, 0xB2, 0xB3, 0xB7, 0xBA, 0xBB, 0xBF, 0xC1, 0xC2, 0xC3, 0xC7, 0xCB, 0xCF] ++
  [0xD1, 0xD2, 0xD3, 0xD4, 0xD7, 0xDA, 0xDB, 0xDC, 0xDF, 0xE1, 0xE2, 0xE3, 0xE5, 0xE7, 0xE9, 0xEB] ++
  [0xED, 0xEF, 0xF1, 0xF2, 0xF3, 0xF4, 0xF5, 0xF7, 0xF8, 0xF9, 0xFA, 0xFB, 0xFC, 0xFD, 0xFF]

namespace Machine

/-! ## Where an instruction stores -/

/-- A word's two bytes at consecutive addresses, the high byte first, as a push stores them (spec/20_memory.md R53, R57). -/
def wordAt (addr : Nat) (v : Word) : List (Nat × Byte) := [(addr, hiByte v), (addr + 1, loByte v)]

/-- The two words of an interrupt entry, in the order they are pushed (spec/60_exceptions.md R236, R237). -/
def entryFrame (ret : Nat) (s : State) : List (Nat × Byte) :=
  wordAt (s.sp - 2).toNat (BitVec.ofNat 16 ret) ++ wordAt (s.sp - 4).toNat (packFlags s.flags)

/-- The bytes an instruction stores, with their addresses, in the order it stores them. -/
def storesOf (i : Instr) (s : State) : List (Nat × Byte) :=
  match i with
  | .staZp z => [((AddrMode.zeroPage z).ea s, s.a)]
  | .staZpX z => [((AddrMode.zeroPageX z).ea s, s.a)]
  | .staAbs w => [((AddrMode.absolute w).ea s, s.a)]
  | .staAbsX w => [((AddrMode.absoluteX w).ea s, s.a)]
  | .staAbsY w => [((AddrMode.absoluteY w).ea s, s.a)]
  | .stxZp z => [((AddrMode.zeroPage z).ea s, s.x)]
  | .stxZpY z => [((AddrMode.zeroPageY z).ea s, s.x)]
  | .stxAbs w => [((AddrMode.absolute w).ea s, s.x)]
  | .styZp z => [((AddrMode.zeroPage z).ea s, s.y)]
  | .styZpX z => [((AddrMode.zeroPageX z).ea s, s.y)]
  | .styAbs w => [((AddrMode.absolute w).ea s, s.y)]
  | .incZp z => [((AddrMode.zeroPage z).ea s, s.mem.read ((AddrMode.zeroPage z).ea s) + 1)]
  | .incZpX z => [((AddrMode.zeroPageX z).ea s, s.mem.read ((AddrMode.zeroPageX z).ea s) + 1)]
  | .incAbs w => [((AddrMode.absolute w).ea s, s.mem.read ((AddrMode.absolute w).ea s) + 1)]
  | .incAbsX w => [((AddrMode.absoluteX w).ea s, s.mem.read ((AddrMode.absoluteX w).ea s) + 1)]
  | .decZp z => [((AddrMode.zeroPage z).ea s, s.mem.read ((AddrMode.zeroPage z).ea s) - 1)]
  | .decZpX z => [((AddrMode.zeroPageX z).ea s, s.mem.read ((AddrMode.zeroPageX z).ea s) - 1)]
  | .decAbs w => [((AddrMode.absolute w).ea s, s.mem.read ((AddrMode.absolute w).ea s) - 1)]
  | .decAbsX w => [((AddrMode.absoluteX w).ea s, s.mem.read ((AddrMode.absoluteX w).ea s) - 1)]
  | .pha => wordAt (s.sp - 2).toNat (wordOf 0x00 s.a)
  | .php => wordAt (s.sp - 2).toNat (packFlags s.flags)
  | .jsr _ => wordAt (s.sp - 2).toNat (BitVec.ofNat 16 (s.pc.toNat + 3))
  | .brk n =>
    if n.toNat < numSlots then entryFrame (s.pc.toNat + 2) s
    else (s.cfg.invopAddr.toNat, 0x00) :: entryFrame (s.pc.toNat + 2) s
  | .ldaImm _ | .ldaZp _ | .ldaZpX _ | .ldaAbs _ | .ldaAbsX _ | .ldaAbsY _ | .ldxImm _ | .ldxZp _ | .ldxZpY _
  | .ldxAbs _ | .ldxAbsY _ | .ldyImm _ | .ldyZp _ | .ldyZpX _ | .ldyAbs _ | .ldyAbsX _ | .adcImm _ | .adcZp _
  | .adcZpX _ | .adcAbs _ | .adcAbsX _ | .adcAbsY _ | .andImm _ | .andZp _ | .andZpX _ | .andAbs _ | .andAbsX _
  | .andAbsY _ | .oraImm _ | .oraZp _ | .oraZpX _ | .oraAbs _ | .oraAbsX _ | .oraAbsY _ | .eorImm _ | .eorZp _
  | .eorZpX _ | .eorAbs _ | .eorAbsX _ | .eorAbsY _ | .cmpImm _ | .cmpZp _ | .cmpZpX _ | .cmpAbs _ | .cmpAbsX _
  | .cmpAbsY _ | .cpxImm _ | .cpxZp _ | .cpxAbs _ | .cpyImm _ | .cpyZp _ | .cpyAbs _ | .inx | .iny | .dex
  | .dey | .jmp _ | .rts | .bcc _ | .bcs _ | .beq _ | .bne _ | .bmi _ | .bpl _ | .bvc _ | .bvs _ | .pla | .plp
  | .clc | .cld | .clv | .cli | .nop | .rti => []

/-- Memory after some bytes are stored, in order. -/
def Memory.store (m : Memory) (bytes : List (Nat × Byte)) : Memory := bytes.foldl (fun m p => m.write p.1 p.2) m

/-- The bytes of some stores that go to the sink: those at `OUT_ADDR`, in order (spec/20_memory.md R60). -/
def emitted (c : Config) (bytes : List (Nat × Byte)) : List Byte :=
  (bytes.filter fun p => p.1 = c.outAddr.toNat).map fun p => p.2

/-! ## Results -/

/-- An instruction of `len` bytes has completed in sequence, `units` budget units having been debited after its fetch. -/
def State.completed (len units : Nat) (s : State) : State :=
  { s with pc := s.pc + BitVec.ofNat 16 len, budget := s.budget - units }

/-- The Z and N flags of a result (spec/40_execution.md R109). -/
def Flags.ofResult (f : Flags) (r : Byte) : Flags := { f with z := decide (r = 0), n := decide (128 ≤ r.toNat) }

/-- Some bytes have been stored, those at `OUT_ADDR` emitted (spec/20_memory.md R60). -/
def State.stored (bytes : List (Nat × Byte)) (s : State) : State :=
  { s with mem := s.mem.store bytes, outLog := s.outLog ++ emitted s.cfg bytes }

/-- `pc` takes the word stored at an address, high byte first (spec/20_memory.md R53). -/
def State.vectored (addr : Nat) (s : State) : State :=
  { s with pc := wordOf (s.mem.read addr) (s.mem.read (addr + 1)) }

/-- What the entry sequence leaves: the frame of spec/60_exceptions.md R237 stored, `sp` down by 4, B set, `pc` from the
vector, 6 units debited (R236). -/
def State.entered (slot : Slot) (ret : Nat) (s : State) : State :=
  { (s.stored (entryFrame ret s)).vectored (vecAddr s.cfg slot).toNat with
    sp     := s.sp - 4
    flags  := { s.flags with b := true }
    budget := s.budget - 6 }

/-! ## Runs -/

/-- The bytes at `pc`, at most the three an instruction can have, fewer at the top of the address space. -/
def State.bytesAtPc (s : State) : List Byte :=
  (List.range (min 3 (memSize - s.pc.toNat))).map fun k => s.mem.read (s.pc.toNat + k)

/-- The state in which `exec` runs an instruction that the step has fetched: one unit debited a byte
(spec/40_execution.md R104). -/
def State.fetched (i : Instr) (s : State) : State :=
  { s with budget := s.budget - (encode i).length, engineState := .executing }

/-- `k` steps. -/
def runSteps (k : Nat) (s : State) : Host.Outcome State Fault Refusal := Host.Core.run Sys2Proof.core k s

/-- The units of the step from `s` (spec/40_execution.md R106): those of the instruction at `pc`, or 8 for an invalid
opcode. -/
def stepUnits (s : State) : Nat :=
  match decode s.bytesAtPc with
  | .instr i _ => i.units
  | .invalidOpcode _ => 8
  | .truncated => 0

/-- The sum of the units of `k` steps. -/
def unitsOfRun : Nat → State → Nat
  | 0, _ => 0
  | k + 1, s =>
    match step s with
    | .next t => stepUnits s + unitsOfRun k t
    | .fault _ => 0
    | .refused _ => 0

/-- `k` steps from `s` meet neither a fault nor a refusal: "no run faults" (spec/92_eei_decisions.md D14). -/
def SafeRun (k : Nat) (s : State) : Prop := ∃ t, runSteps k s = .next t

/-- The engine can run: the configuration is one the spec accepts and no fault is set. -/
def State.running (s : State) : Prop := s.cfg.valid = true ∧ s.fault = none

/-- The invariant: the configuration is valid, memory is in its canonical form, `sp` is even (spec/10_state.md R28), and
the engine has not faulted. -/
def State.Inv (s : State) : Prop :=
  s.cfg.valid = true ∧ s.mem.wf = true ∧ s.sp.toNat % 2 = 0 ∧ s.fault = none ∧ s.engineState ≠ .faulted

end Machine

end Sys2Proof
end

