-- ==== Sys2Proof/Certificates/Slice0/Obligations.lean ====
section
/-! DEFINITION. The statements for the provers, each of the spec's rules it cites in OBLIGATIONS.json. A statement about a
faulted state says what spec/40_execution.md R108 keeps at the stop; none says anything of a later state
(spec/93_implementation_defined.md U2). -/

open Sys2Proof Sys2Proof.Machine

/-- For every instruction i and all bytes after it, decode (encode i ++ rest) is i with rest left over: no operand bit
of any encoding is dropped. -/
def Obligations.DecodeOfEncode : Prop :=
  ∀ (i : Instr) (rest : List Byte), decode (encode i ++ rest) = .instr i rest

/-- If the bytes decode to i with rest left over, they are encode i followed by rest: each byte string has one meaning,
and each instruction one encoding. -/
def Obligations.EncodeOfDecode : Prop :=
  ∀ (bytes : List Byte) (i : Instr) (rest : List Byte), decode bytes = .instr i rest → bytes = encode i ++ rest

/-- Whatever bytes follow, decoding answers invalidOpcode op just when op is in the list of 159 invalid opcode bytes the
spec writes out. -/
def Obligations.InvalidOpcodesRejected : Prop :=
  ∀ (op : Byte) (rest : List Byte), decode (op :: rest) = .invalidOpcode op ↔ op ∈ invalidOpcodes

/-- The eight example byte strings of the syntax table (INX, LDA #$48, LDA $10, LDX $10,Y, STA $F000, LDA $1234,X, BNE
*-2, BRK #$01) and JMP $0300 decode to the instruction each stands for, high address byte first. -/
def Obligations.SampleWordsDecode : Prop :=
  decode [0xE8] = .instr .inx [] ∧
  decode [0xA9, 0x48] = .instr (.ldaImm 0x48) [] ∧
  decode [0xA5, 0x10] = .instr (.ldaZp 0x10) [] ∧
  decode [0xB6, 0x10] = .instr (.ldxZpY 0x10) [] ∧
  decode [0x8D, 0xF0, 0x00] = .instr (.staAbs 0xF000) [] ∧
  decode [0xBD, 0x12, 0x34] = .instr (.ldaAbsX 0x1234) [] ∧
  decode [0xD0, 0xFC] = .instr (.bne 0xFC) [] ∧
  decode [0x00, 0x01] = .instr (.brk 0x01) [] ∧
  decode [0x4C, 0x03, 0x00] = .instr (.jmp 0x0300) []

/-- If the engine can run and the bytes at pc decode to i, then step is exec of i on the state with one budget unit
debited for each byte of i and engineState Executing (what the field holds after a lone step:
notes/assumptions/4.md); nothing else is added around exec. It holds for every i, well-formed or not. -/
def Obligations.StepRunsDecodedInstruction : Prop :=
  ∀ (s : State) (i : Instr) (rest : List Byte), s.running → decode s.bytesAtPc = .instr i rest →
    step s = exec i (s.fetched i)

/-- If sp is at least 4 and the return address exists: on one of the 159 invalid bytes a step stores the byte at
INVOP_ADDR, enters slot INVALID with the address after the byte as return address, and costs 8 units. On a BRK with
a slot of 5 to 255 it stores 0x00, enters slot INVALID with the address after the slot byte, and costs 9 units. The
recorded byte is 0x00 only for such a BRK: 0x00 is no invalid opcode byte. What engineState holds afterwards is left
open here. -/
def Obligations.InvalidOpcodeEntry : Prop :=
  (∀ (s : State), s.running → s.mem.read s.pc.toNat ∈ invalidOpcodes → s.pc.toNat + 1 < memSize → 4 ≤ s.sp.toNat →
    ∃ e, step s = .next (({ s with budget := s.budget - 2, engineState := e }.stored
      [(s.cfg.invopAddr.toNat, s.mem.read s.pc.toNat)]).entered .invalid (s.pc.toNat + 1))) ∧
  (∀ (s : State) (n : Byte) (rest : List Byte), s.running → decode s.bytesAtPc = .instr (.brk n) rest → 5 ≤ n.toNat →
    s.pc.toNat + 2 < memSize → 4 ≤ s.sp.toNat →
    ∃ e, step s = .next (({ s with budget := s.budget - 3, engineState := e }.stored
      [(s.cfg.invopAddr.toNat, 0x00)]).entered .invalid (s.pc.toNat + 2))) ∧
  (0x00 : Byte) ∉ invalidOpcodes

/-- If the bytes up to 0xFFFF are too few for the opcode at pc, a step raises OutOfRange(0x10000); the bytes that exist
have been fetched and debited, pc is not committed, and nothing else changes. -/
def Obligations.OperandFetchPastTopFaults : Prop :=
  ∀ (s : State), s.running → decode s.bytesAtPc = .truncated →
    step s = .fault (.outOfRange 0x10000
      { s with budget := s.budget - s.bytesAtPc.length, fault := some (.outOfRange 0x10000), engineState := .faulted })

/-- If the fault register holds something and the configuration is valid, a step is stuck (it stops with stillFaulted)
and execute n returns status Faulted with the state, and so the budget, unchanged. -/
def Obligations.FaultedEngineIsStuck : Prop :=
  ∀ (s : State) (c : FaultCause), s.cfg.valid = true → s.fault = some c →
    step s = .fault .stillFaulted ∧ ∀ n : Int, execute n s = .next ⟨.faulted, s⟩

/-- Under a configuration with a vector entry above 0xFFFE, or an SP_INIT that is odd, below 2 or above 0xFFFE, the step
and every execute call refuse by name. The spec (R5, U12) says only that such a configuration is refused; that the
step and every execute call are what refuse it is the model's own reading (DEDUCED, notes/assumptions/10.md). -/
def Obligations.BadConfigurationRefused : Prop :=
  ∀ (s : State), (∃ v ∈ [s.cfg.vecReset, s.cfg.vecUser1, s.cfg.vecUser2, s.cfg.vecInvalid, s.cfg.vecHalt], 0xFFFE < v.toNat) ∨
      s.cfg.spInit.toNat % 2 = 1 ∨ s.cfg.spInit.toNat < 2 ∨ 0xFFFE < s.cfg.spInit.toNat →
    step s = .refused .badConfiguration ∧ ∀ n : Int, execute n s = .refused .badConfiguration

/-- From every state with a valid configuration, canonical memory, an even sp and no fault, if a step answers a next
state then that state has them too. -/
def Obligations.StepKeepsInvariant : Prop :=
  ∀ (s t : State), s.Inv → step s = .next t → t.Inv

/-- From every state that meets the invariant, a run of any number of steps that meets no fault ends in a state that
meets it, with the configuration it started with and the output log grown at its end only. -/
def Obligations.RunKeepsInvariant : Prop :=
  ∀ (k : Nat) (s : State), s.Inv → SafeRun k s →
    ∃ t, runSteps k s = .next t ∧ t.Inv ∧ t.cfg = s.cfg ∧ s.outLog <+: t.outLog

/-- State.reset satisfies the invariant, and hostReset of a state does whenever its configuration is valid. From a state
that satisfies it, a loadImage that answers a next state leaves one that does (memory again in the canonical form of
notes/assumptions/7.md); so a reset and any images loaded after it leave a launch state that satisfies it. -/
def Obligations.ResetMeetsInvariant : Prop :=
  State.reset.Inv ∧ (∀ s : State, s.cfg.valid = true → (hostReset s).Inv) ∧
  ∀ (s t : State) (addr : Nat) (bytes : List Byte), s.Inv → loadImage addr bytes s = .next t → t.Inv

/-- A valid configuration has an even SP_INIT, where reset puts sp; a step that answers a next state changes sp by no,
one or two changes of 2; and from every state with an even sp, reachable or not, a step leaves an even sp, whether
it answers a next state or an out-of-range fault. -/
def Obligations.StackPointerStaysEven : Prop :=
  (∀ s : State, s.cfg.valid = true → s.cfg.spInit.toNat % 2 = 0 ∧ (hostReset s).sp = s.cfg.spInit) ∧
  (∀ s t : State, step s = .next t → t.sp ∈ [s.sp, s.sp - 2, s.sp - 2 - 2, s.sp + 2, s.sp + 2 + 2]) ∧
  (∀ s t : State, step s = .next t → s.sp.toNat % 2 = 0 → t.sp.toNat % 2 = 0) ∧
  (∀ (s t : State) (addr : Int), step s = .fault (.outOfRange addr t) → s.sp.toNat % 2 = 0 → t.sp.toNat % 2 = 0)

/-- reset() zeroes every memory byte, puts pc at STARTUP_PC and sp at SP_INIT, clears a, x, y and the seven flags, sets
budget 0, engine state Idle and no fault; it debits nothing, emits nothing, keeps outLog, and reads no vector.
State.reset is what it leaves under the default parameters (the empty log of State.reset is the model's choice,
notes/assumptions/1.md, and is not claimed here). -/
def Obligations.HostResetState : Prop :=
  (∀ s : State, (∀ addr, (hostReset s).mem.read addr = 0) ∧
    hostReset s = { s with
      pc := s.cfg.startupPc, sp := s.cfg.spInit, a := 0, x := 0, y := 0,
      flags := ⟨false, false, false, false, false, false, false⟩, mem := [], budget := 0, engineState := .idle,
      fault := none }) ∧
  packFlags (hostReset State.reset).flags = 0x0000 ∧ hostReset State.reset = State.reset ∧ State.reset.pc = 0xFFFC ∧ State.reset.sp = 0x0200 ∧
  packFlags State.reset.flags = 0x0000

/-- If the image fits, loadImage answers a next state in which byte k of the image is read at address + k, every other
address reads as before, and every other field (registers, flags, budget, engine state, fault, outLog) is unchanged.
If it does not fit, the call is refused. Memory is taken in its canonical form, the invariant of StepKeepsInvariant. -/
def Obligations.LoadImageWrites : Prop :=
  ∀ (s : State) (addr : Nat) (bytes : List Byte), s.mem.wf = true →
    (addr + bytes.length ≤ memSize → ∃ m : Memory, loadImage addr bytes s = .next { s with mem := m } ∧
      (∀ k (h : k < bytes.length), m.read (addr + k) = bytes[k]) ∧
      (∀ b, b < addr ∨ addr + bytes.length ≤ b → m.read b = s.mem.read b)) ∧
    (memSize < addr + bytes.length → loadImage addr bytes s = .refused .imageOutOfBounds)

/-- If the engine can run: for n <= 0 execute(n) runs nothing and returns n. For n > 0 there is a k such that the first
k steps from the state with budget n all answer a next state, the budget being positive before each of them, and
then either the budget is zero or negative and execute returns BudgetExhausted with that state Halted, or it is
positive, the next step raises the out-of-range fault, and execute returns Faulted with the faulted state that step
gives. The budget after the k steps is n less the sum of their units, each as the table of R106 gives it; where
execute returns BudgetExhausted this is the value it returns. At a fault the value returned is the budget of the
faulted state (R107: its value at the fault), for which this statement gives no sum. -/
def Obligations.ExecuteRunsShortestPrefix : Prop :=
  ∀ (n : Int) (s : State), s.running →
    (n ≤ 0 → execute n s = .next ⟨.budgetExhausted, { s with budget := n, engineState := .halted }⟩) ∧
    (0 < n → ∃ (k : Nat) (t : State), runSteps k { s with budget := n, engineState := .idle } = .next t ∧
      t.budget = n - unitsOfRun k { s with budget := n, engineState := .idle } ∧
      (∀ j < k, ∃ u, runSteps j { s with budget := n, engineState := .idle } = .next u ∧ 0 < u.budget) ∧
      ((t.budget ≤ 0 ∧ execute n s = .next ⟨.budgetExhausted, { t with engineState := .halted }⟩) ∨
        (0 < t.budget ∧ ∃ addr final, step t = .fault (.outOfRange addr final) ∧
          execute n s = .next ⟨.faulted, final⟩)))

/-- If the engine can run, execute(1) is one step from the state with budget 1: if the step answers a next state,
execute returns it Halted with status BudgetExhausted, even if the budget has gone negative; if it faults, execute
returns the faulted state. -/
def Obligations.ExecuteOneRunsOneInstruction : Prop :=
  ∀ (s : State), s.running →
    (∀ t, step { s with budget := 1, engineState := .idle } = .next t →
      execute 1 s = .next ⟨.budgetExhausted, { t with engineState := .halted }⟩) ∧
    (∀ addr final, step { s with budget := 1, engineState := .idle } = .fault (.outOfRange addr final) →
      execute 1 s = .next ⟨.faulted, final⟩)

/-- If a step answers a next state, it has debited the units that the table gives the instruction it ran (for BRK 8 or 9
by its slot), and 8 for an invalid opcode byte. -/
def Obligations.UnitsPerInstruction : Prop :=
  ∀ (s t : State), step s = .next t →
    (∀ (i : Instr) (rest : List Byte), decode s.bytesAtPc = .instr i rest → t.budget = s.budget - i.units) ∧
    (∀ op : Byte, decode s.bytesAtPc = .invalidOpcode op → t.budget = s.budget - 8)

/-- Running an instruction with the budget raised by d gives the same outcome with the budget raised by d: the same next
state, or the same fault at the same address. So the budget affects no register, flag, memory byte or output. -/
def Obligations.BudgetIsNotRead : Prop :=
  ∀ (i : Instr) (s t : State) (d : Int),
    (exec i s = .next t → exec i { s with budget := s.budget + d } = .next { t with budget := t.budget + d }) ∧
    (∀ addr, exec i s = .fault (.outOfRange addr t) →
      exec i { s with budget := s.budget + d } = .fault (.outOfRange addr { t with budget := t.budget + d }))

/-- A read in the address space answers the byte there and debits one unit, at OUT_ADDR too; a write there changes that
byte, appends to the log only at OUT_ADDR, and debits one unit. At any address from 0x10000 on, both find that
address out of range and change nothing. -/
def Obligations.ByteAccess : Prop :=
  ∀ (s : State) (addr : Nat) (v : Byte),
    (addr < memSize →
      memRead addr s = .ok (s.mem.read addr) { s with budget := s.budget - 1 } ∧
      memWrite addr v s = .ok () { s with
        mem := s.mem.write addr v
        outLog := if addr = s.cfg.outAddr.toNat then s.outLog ++ [v] else s.outLog
        budget := s.budget - 1 }) ∧
    (memSize ≤ addr → memRead addr s = .oob addr s ∧ memWrite addr v s = .oob addr s)

/-- Where both bytes exist, writing a word stores its high byte at the address and its low byte at the next one, in that
order, and reading one answers the two bytes there, the high byte at the lower address, each for two units. At
0xFFFF the first byte is accessed (read, or stored and emitted if that is OUT_ADDR) and debited, and then the second
is out of range at 0x10000. From 0x10000 on nothing is accessed. A 16-bit fetch is a word read at the cursor.
Reading back a word just written gives it again, where memory is in its canonical form (the invariant of
StepKeepsInvariant). -/
def Obligations.WordByteOrder : Prop :=
  ∀ (s : State) (addr : Nat) (v : Word),
    (addr + 1 < memSize →
      readWord addr s = .ok (wordOf (s.mem.read addr) (s.mem.read (addr + 1))) { s with budget := s.budget - 2 } ∧
      writeWord addr v s = .ok () { s.stored [(addr, hiByte v), (addr + 1, loByte v)] with budget := s.budget - 2 } ∧
      (s.mem.wf = true → (s.stored [(addr, hiByte v), (addr + 1, loByte v)]).mem.read addr = hiByte v ∧
        (s.stored [(addr, hiByte v), (addr + 1, loByte v)]).mem.read (addr + 1) = loByte v ∧
        wordOf (hiByte v) (loByte v) = v)) ∧
    (addr + 1 = memSize →
      readWord addr s = .oob 0x10000 { s with budget := s.budget - 1 } ∧
      writeWord addr v s = .oob 0x10000 { s.stored [(addr, hiByte v)] with budget := s.budget - 1 }) ∧
    (memSize ≤ addr → readWord addr s = .oob addr s ∧ writeWord addr v s = .oob addr s) ∧
    (wordOf (s.mem.read addr) (s.mem.read (addr + 1))).toNat =
      (s.mem.read addr).toNat * 256 + (s.mem.read (addr + 1)).toNat ∧
    v.toNat = (hiByte v).toNat * 256 + (loByte v).toNat ∧
    fetch16 addr s = readWord addr s

/-- Push16: with sp below 2 it finds sp - 2 out of range and changes nothing; else sp goes down by 2 and the word is
stored there, high byte first, for two units. Pull16: if sp + 2 is at most 0xFFFF it answers the word at sp, and sp
goes up by 2, for two units; with sp = 0xFFFE the word is read (two units) and sp + 2 = 0x10000 is out of range;
with sp = 0xFFFF the second byte at 0x10000 is out of range after one unit. PHA and PLA, too, move sp by 2. -/
def Obligations.PushAndPull : Prop :=
  ∀ (s : State) (v : Word),
    (s.sp.toNat < 2 → push16 v s = .oob (s.sp.toNat - 2 : Int) s) ∧
    (2 ≤ s.sp.toNat → push16 v s = .ok () { s.stored [(s.sp.toNat - 2, hiByte v), (s.sp.toNat - 1, loByte v)] with
      sp := s.sp - 2, budget := s.budget - 2 }) ∧
    (s.sp.toNat + 2 ≤ 0xFFFF → pull16 s = .ok (wordOf (s.mem.read s.sp.toNat) (s.mem.read (s.sp.toNat + 1)))
      { s with sp := s.sp + 2, budget := s.budget - 2 }) ∧
    (s.sp.toNat = 0xFFFE → pull16 s = .oob 0x10000 { s with budget := s.budget - 2 }) ∧
    (s.sp.toNat = 0xFFFF → pull16 s = .oob 0x10000 { s with budget := s.budget - 1 }) ∧
    (∀ t, exec .pha s = .next t → t.sp = s.sp - 2) ∧ (∀ t, exec .pla s = .next t → t.sp = s.sp + 2)

/-- Two memories in canonical form that read alike at every address are the same list. -/
def Obligations.CanonicalMemory : Prop :=
  ∀ m n : Memory, m.wf = true → n.wf = true → (∀ addr, m.read addr = n.read addr) → m = n

/-- packFlags puts C, Z, I, D, B, V, N in bits 0 to 6 and zero in bits 7 to 15; unpackFlags writes each flag from its
bit. -/
def Obligations.FlagPackingLayout : Prop :=
  (∀ f : Flags, (packFlags f).toNat = f.n.toNat * 64 + f.v.toNat * 32 + f.b.toNat * 16 + f.d.toNat * 8 + f.i.toNat * 4 +
      f.z.toNat * 2 + f.c.toNat) ∧
  (∀ w : Word, unpackFlags w = { c := w[0], z := w[1], i := w[2], d := w[3], b := w[4], v := w[5], n := w[6] })

/-- For every combination of flags, unpacking the packed word gives it back; for every word, packing the unpacked flags
gives the word with bits 15 to 7 cleared. -/
def Obligations.FlagRoundTrip : Prop :=
  (∀ f : Flags, unpackFlags (packFlags f) = f) ∧ (∀ w : Word, packFlags (unpackFlags w) = w &&& 0x007F)

/-- The sum a + m + C equals 256 times the new C plus the result, unsigned; and V is set just when the signed sum lies
outside -128 to 127. The decimal flag changes nothing. -/
def Obligations.AdcIsExactAddition : Prop :=
  ∀ (f : Flags) (a m : Byte),
    a.toNat + m.toNat + f.c.toNat = 256 * (f.adc a m).c.toNat + (adcByte a m f.c).toNat ∧
    ((f.adc a m).v = true ↔ a.toInt + m.toInt + (f.c.toNat : Int) < -128 ∨ 127 < a.toInt + m.toInt + (f.c.toNat : Int)) ∧
    (∀ d : Bool, { f with d := d }.adc a m = { f.adc a m with d := d })

/-- Zero page is the byte itself; zero-page indexed is the sum modulo 256 if ZP_WRAP and the plain sum if not; absolute
is the word; absolute indexed is the plain sum, never wrapped. The indexed modes cost one extra unit, the others
none. -/
def Obligations.EffectiveAddresses : Prop :=
  ∀ (s : State) (z : Byte) (w : Word),
    (AddrMode.zeroPage z).ea s = z.toNat ∧ (AddrMode.absolute w).ea s = w.toNat ∧
    (s.cfg.zpWrap = true → (AddrMode.zeroPageX z).ea s = (z.toNat + s.x.toNat) % 256 ∧
      (AddrMode.zeroPageY z).ea s = (z.toNat + s.y.toNat) % 256) ∧
    (s.cfg.zpWrap = false → (AddrMode.zeroPageX z).ea s = z.toNat + s.x.toNat ∧
      (AddrMode.zeroPageY z).ea s = z.toNat + s.y.toNat) ∧
    (AddrMode.absoluteX w).ea s = w.toNat + s.x.toNat ∧ (AddrMode.absoluteY w).ea s = w.toNat + s.y.toNat ∧
    (AddrMode.zeroPage z).extra = 0 ∧ (AddrMode.absolute w).extra = 0 ∧ (AddrMode.zeroPageX z).extra = 1 ∧
    (AddrMode.zeroPageY z).extra = 1 ∧ (AddrMode.absoluteX w).extra = 1 ∧ (AddrMode.absoluteY w).extra = 1

/-- Every form of LDA (Immediate, ZeroPage, ZeroPage,X, Absolute, Absolute,X, Absolute,Y), when its next instruction's
address and its operand's address exist, answers the next state in which a holds the operand, Z and N are those of
the operand, pc is past the instruction, the units of its data access are debited, and nothing else has changed. -/
def Obligations.LdaLoads : Prop :=
  ∀ (s : State) (m z : Byte) (w : Word),
  let result : Byte → State := fun v => { s with a := v, flags := s.flags.ofResult v }
  (s.pc.toNat + 2 < memSize → exec (.ldaImm m) s = .next ((result m).completed 2 0)) ∧
  (s.pc.toNat + 2 < memSize → exec (.ldaZp z) s = .next ((result (s.mem.read z.toNat)).completed 2 1)) ∧
  (s.pc.toNat + 2 < memSize → exec (.ldaZpX z) s = .next ((result (s.mem.read (zeroPageIndexed s.cfg z s.x))).completed 2 2)) ∧
  (s.pc.toNat + 3 < memSize → exec (.ldaAbs w) s = .next ((result (s.mem.read w.toNat)).completed 3 1)) ∧
  (s.pc.toNat + 3 < memSize → w.toNat + s.x.toNat < memSize → exec (.ldaAbsX w) s = .next ((result (s.mem.read (w.toNat + s.x.toNat))).completed 3 2)) ∧
  (s.pc.toNat + 3 < memSize → w.toNat + s.y.toNat < memSize → exec (.ldaAbsY w) s = .next ((result (s.mem.read (w.toNat + s.y.toNat))).completed 3 2))

/-- Every form of LDX (Immediate, ZeroPage, ZeroPage,Y, Absolute, Absolute,Y), when its next instruction's address and
its operand's address exist, answers the next state in which x holds the operand, Z and N are those of the operand,
pc is past the instruction, the units of its data access are debited, and nothing else has changed. -/
def Obligations.LdxLoads : Prop :=
  ∀ (s : State) (m z : Byte) (w : Word),
  let result : Byte → State := fun v => { s with x := v, flags := s.flags.ofResult v }
  (s.pc.toNat + 2 < memSize → exec (.ldxImm m) s = .next ((result m).completed 2 0)) ∧
  (s.pc.toNat + 2 < memSize → exec (.ldxZp z) s = .next ((result (s.mem.read z.toNat)).completed 2 1)) ∧
  (s.pc.toNat + 2 < memSize → exec (.ldxZpY z) s = .next ((result (s.mem.read (zeroPageIndexed s.cfg z s.y))).completed 2 2)) ∧
  (s.pc.toNat + 3 < memSize → exec (.ldxAbs w) s = .next ((result (s.mem.read w.toNat)).completed 3 1)) ∧
  (s.pc.toNat + 3 < memSize → w.toNat + s.y.toNat < memSize → exec (.ldxAbsY w) s = .next ((result (s.mem.read (w.toNat + s.y.toNat))).completed 3 2))

/-- Every form of LDY (Immediate, ZeroPage, ZeroPage,X, Absolute, Absolute,X), when its next instruction's address and
its operand's address exist, answers the next state in which y holds the operand, Z and N are those of the operand,
pc is past the instruction, the units of its data access are debited, and nothing else has changed. -/
def Obligations.LdyLoads : Prop :=
  ∀ (s : State) (m z : Byte) (w : Word),
  let result : Byte → State := fun v => { s with y := v, flags := s.flags.ofResult v }
  (s.pc.toNat + 2 < memSize → exec (.ldyImm m) s = .next ((result m).completed 2 0)) ∧
  (s.pc.toNat + 2 < memSize → exec (.ldyZp z) s = .next ((result (s.mem.read z.toNat)).completed 2 1)) ∧
  (s.pc.toNat + 2 < memSize → exec (.ldyZpX z) s = .next ((result (s.mem.read (zeroPageIndexed s.cfg z s.x))).completed 2 2)) ∧
  (s.pc.toNat + 3 < memSize → exec (.ldyAbs w) s = .next ((result (s.mem.read w.toNat)).completed 3 1)) ∧
  (s.pc.toNat + 3 < memSize → w.toNat + s.x.toNat < memSize → exec (.ldyAbsX w) s = .next ((result (s.mem.read (w.toNat + s.x.toNat))).completed 3 2))

/-- Every form of STA, STX and STY, when its next instruction's address and its effective address exist, answers the
next state in which the register's value is stored at the effective address (and appended to outLog if that is
OUT_ADDR), pc is past the instruction, the units are debited, and nothing else has changed, no flag among it. -/
def Obligations.StoresWrite : Prop :=
  ∀ (s : State) (z : Byte) (w : Word),
  (s.pc.toNat + 2 < memSize → exec (.staZp z) s = .next ((s.stored [(z.toNat, s.a)]).completed 2 1)) ∧
  (s.pc.toNat + 2 < memSize → exec (.staZpX z) s = .next ((s.stored [((zeroPageIndexed s.cfg z s.x), s.a)]).completed 2 2)) ∧
  (s.pc.toNat + 3 < memSize → exec (.staAbs w) s = .next ((s.stored [(w.toNat, s.a)]).completed 3 1)) ∧
  (s.pc.toNat + 3 < memSize → w.toNat + s.x.toNat < memSize → exec (.staAbsX w) s = .next ((s.stored [((w.toNat + s.x.toNat), s.a)]).completed 3 2)) ∧
  (s.pc.toNat + 3 < memSize → w.toNat + s.y.toNat < memSize → exec (.staAbsY w) s = .next ((s.stored [((w.toNat + s.y.toNat), s.a)]).completed 3 2)) ∧
  (s.pc.toNat + 2 < memSize → exec (.stxZp z) s = .next ((s.stored [(z.toNat, s.x)]).completed 2 1)) ∧
  (s.pc.toNat + 2 < memSize → exec (.stxZpY z) s = .next ((s.stored [((zeroPageIndexed s.cfg z s.y), s.x)]).completed 2 2)) ∧
  (s.pc.toNat + 3 < memSize → exec (.stxAbs w) s = .next ((s.stored [(w.toNat, s.x)]).completed 3 1)) ∧
  (s.pc.toNat + 2 < memSize → exec (.styZp z) s = .next ((s.stored [(z.toNat, s.y)]).completed 2 1)) ∧
  (s.pc.toNat + 2 < memSize → exec (.styZpX z) s = .next ((s.stored [((zeroPageIndexed s.cfg z s.x), s.y)]).completed 2 2)) ∧
  (s.pc.toNat + 3 < memSize → exec (.styAbs w) s = .next ((s.stored [(w.toNat, s.y)]).completed 3 1))

/-- Every form of ADC answers, when its addresses exist, the next state in which a is (a + M + C) mod 256, C is the
carry out of the exact sum, V is the signed overflow by the formula of the rule, Z and N are those of the result,
and nothing else has changed but pc and the budget. -/
def Obligations.AdcAdds : Prop :=
  ∀ (s : State) (m z : Byte) (w : Word),
  let result : Byte → State := fun v =>
    let t : Nat := s.a.toNat + v.toNat + s.flags.c.toNat
    let r : Byte := BitVec.ofNat 8 (t % 256)
    { s with
      a := r
      flags := { s.flags.ofResult r with c := decide (255 < t), v := decide ((s.a ^^^ r) &&& (v ^^^ r) &&& 0x80 ≠ 0) } }
  (s.pc.toNat + 2 < memSize → exec (.adcImm m) s = .next ((result m).completed 2 0)) ∧
  (s.pc.toNat + 2 < memSize → exec (.adcZp z) s = .next ((result (s.mem.read z.toNat)).completed 2 1)) ∧
  (s.pc.toNat + 2 < memSize → exec (.adcZpX z) s = .next ((result (s.mem.read (zeroPageIndexed s.cfg z s.x))).completed 2 2)) ∧
  (s.pc.toNat + 3 < memSize → exec (.adcAbs w) s = .next ((result (s.mem.read w.toNat)).completed 3 1)) ∧
  (s.pc.toNat + 3 < memSize → w.toNat + s.x.toNat < memSize → exec (.adcAbsX w) s = .next ((result (s.mem.read (w.toNat + s.x.toNat))).completed 3 2)) ∧
  (s.pc.toNat + 3 < memSize → w.toNat + s.y.toNat < memSize → exec (.adcAbsY w) s = .next ((result (s.mem.read (w.toNat + s.y.toNat))).completed 3 2))

/-- Every form of AND, ORA and EOR answers, when its addresses exist, the next state in which a is the bitwise and, or,
exclusive or of a and the operand, Z and N are those of the result, and nothing else has changed but pc and the
budget. -/
def Obligations.BitwiseResults : Prop :=
  ∀ (s : State) (m z : Byte) (w : Word),
  let result : Byte → State := fun v => { s with a := v, flags := s.flags.ofResult v }
  (s.pc.toNat + 2 < memSize → exec (.andImm m) s = .next ((result (s.a &&& m)).completed 2 0)) ∧
  (s.pc.toNat + 2 < memSize → exec (.andZp z) s = .next ((result (s.a &&& (s.mem.read z.toNat))).completed 2 1)) ∧
  (s.pc.toNat + 2 < memSize → exec (.andZpX z) s = .next ((result (s.a &&& (s.mem.read (zeroPageIndexed s.cfg z s.x)))).completed 2 2)) ∧
  (s.pc.toNat + 3 < memSize → exec (.andAbs w) s = .next ((result (s.a &&& (s.mem.read w.toNat))).completed 3 1)) ∧
  (s.pc.toNat + 3 < memSize → w.toNat + s.x.toNat < memSize → exec (.andAbsX w) s = .next ((result (s.a &&& (s.mem.read (w.toNat + s.x.toNat)))).completed 3 2)) ∧
  (s.pc.toNat + 3 < memSize → w.toNat + s.y.toNat < memSize → exec (.andAbsY w) s = .next ((result (s.a &&& (s.mem.read (w.toNat + s.y.toNat)))).completed 3 2)) ∧
  (s.pc.toNat + 2 < memSize → exec (.oraImm m) s = .next ((result (s.a ||| m)).completed 2 0)) ∧
  (s.pc.toNat + 2 < memSize → exec (.oraZp z) s = .next ((result (s.a ||| (s.mem.read z.toNat))).completed 2 1)) ∧
  (s.pc.toNat + 2 < memSize → exec (.oraZpX z) s = .next ((result (s.a ||| (s.mem.read (zeroPageIndexed s.cfg z s.x)))).completed 2 2)) ∧
  (s.pc.toNat + 3 < memSize → exec (.oraAbs w) s = .next ((result (s.a ||| (s.mem.read w.toNat))).completed 3 1)) ∧
  (s.pc.toNat + 3 < memSize → w.toNat + s.x.toNat < memSize → exec (.oraAbsX w) s = .next ((result (s.a ||| (s.mem.read (w.toNat + s.x.toNat)))).completed 3 2)) ∧
  (s.pc.toNat + 3 < memSize → w.toNat + s.y.toNat < memSize → exec (.oraAbsY w) s = .next ((result (s.a ||| (s.mem.read (w.toNat + s.y.toNat)))).completed 3 2)) ∧
  (s.pc.toNat + 2 < memSize → exec (.eorImm m) s = .next ((result (s.a ^^^ m)).completed 2 0)) ∧
  (s.pc.toNat + 2 < memSize → exec (.eorZp z) s = .next ((result (s.a ^^^ (s.mem.read z.toNat))).completed 2 1)) ∧
  (s.pc.toNat + 2 < memSize → exec (.eorZpX z) s = .next ((result (s.a ^^^ (s.mem.read (zeroPageIndexed s.cfg z s.x)))).completed 2 2)) ∧
  (s.pc.toNat + 3 < memSize → exec (.eorAbs w) s = .next ((result (s.a ^^^ (s.mem.read w.toNat))).completed 3 1)) ∧
  (s.pc.toNat + 3 < memSize → w.toNat + s.x.toNat < memSize → exec (.eorAbsX w) s = .next ((result (s.a ^^^ (s.mem.read (w.toNat + s.x.toNat)))).completed 3 2)) ∧
  (s.pc.toNat + 3 < memSize → w.toNat + s.y.toNat < memSize → exec (.eorAbsY w) s = .next ((result (s.a ^^^ (s.mem.read (w.toNat + s.y.toNat)))).completed 3 2))

/-- Every form of CMP, CPX and CPY answers, when its addresses exist, the next state in which C is reg >= M unsigned, Z
is reg == M, N is bit 7 of (reg - M) mod 256; the register is not written, V is unchanged, and nothing else has
changed but pc and the budget. -/
def Obligations.ComparesSetFlags : Prop :=
  ∀ (s : State) (m z : Byte) (w : Word),
  let result : Byte → Byte → State := fun reg v => { s with flags := { s.flags with
    c := decide (v.toNat ≤ reg.toNat), z := decide (reg = v), n := decide (128 ≤ (reg.toNat + 256 - v.toNat) % 256) } }
  (s.pc.toNat + 2 < memSize → exec (.cmpImm m) s = .next ((result s.a m).completed 2 0)) ∧
  (s.pc.toNat + 2 < memSize → exec (.cmpZp z) s = .next ((result s.a (s.mem.read z.toNat)).completed 2 1)) ∧
  (s.pc.toNat + 2 < memSize → exec (.cmpZpX z) s = .next ((result s.a (s.mem.read (zeroPageIndexed s.cfg z s.x))).completed 2 2)) ∧
  (s.pc.toNat + 3 < memSize → exec (.cmpAbs w) s = .next ((result s.a (s.mem.read w.toNat)).completed 3 1)) ∧
  (s.pc.toNat + 3 < memSize → w.toNat + s.x.toNat < memSize → exec (.cmpAbsX w) s = .next ((result s.a (s.mem.read (w.toNat + s.x.toNat))).completed 3 2)) ∧
  (s.pc.toNat + 3 < memSize → w.toNat + s.y.toNat < memSize → exec (.cmpAbsY w) s = .next ((result s.a (s.mem.read (w.toNat + s.y.toNat))).completed 3 2)) ∧
  (s.pc.toNat + 2 < memSize → exec (.cpxImm m) s = .next ((result s.x m).completed 2 0)) ∧
  (s.pc.toNat + 2 < memSize → exec (.cpxZp z) s = .next ((result s.x (s.mem.read z.toNat)).completed 2 1)) ∧
  (s.pc.toNat + 3 < memSize → exec (.cpxAbs w) s = .next ((result s.x (s.mem.read w.toNat)).completed 3 1)) ∧
  (s.pc.toNat + 2 < memSize → exec (.cpyImm m) s = .next ((result s.y m).completed 2 0)) ∧
  (s.pc.toNat + 2 < memSize → exec (.cpyZp z) s = .next ((result s.y (s.mem.read z.toNat)).completed 2 1)) ∧
  (s.pc.toNat + 3 < memSize → exec (.cpyAbs w) s = .next ((result s.y (s.mem.read w.toNat)).completed 3 1))

/-- Every form of INC and DEC answers, when its addresses exist, the next state in which the byte at the effective
address is one more or one less modulo 256 (and appended to outLog if that is OUT_ADDR), Z and N are those of the
new byte, and nothing else has changed but pc and the budget: one read and one write. -/
def Obligations.IncDecMemory : Prop :=
  ∀ (s : State) (z : Byte) (w : Word),
  let result : Nat → Byte → State := fun addr v => { s.stored [(addr, v)] with flags := s.flags.ofResult v }
  (s.pc.toNat + 2 < memSize → exec (.incZp z) s = .next ((result z.toNat (s.mem.read z.toNat + 1)).completed 2 2)) ∧
  (s.pc.toNat + 2 < memSize → exec (.incZpX z) s = .next ((result (zeroPageIndexed s.cfg z s.x) (s.mem.read (zeroPageIndexed s.cfg z s.x) + 1)).completed 2 3)) ∧
  (s.pc.toNat + 3 < memSize → exec (.incAbs w) s = .next ((result w.toNat (s.mem.read w.toNat + 1)).completed 3 2)) ∧
  (s.pc.toNat + 3 < memSize → w.toNat + s.x.toNat < memSize → exec (.incAbsX w) s = .next ((result (w.toNat + s.x.toNat) (s.mem.read (w.toNat + s.x.toNat) + 1)).completed 3 3)) ∧
  (s.pc.toNat + 2 < memSize → exec (.decZp z) s = .next ((result z.toNat (s.mem.read z.toNat - 1)).completed 2 2)) ∧
  (s.pc.toNat + 2 < memSize → exec (.decZpX z) s = .next ((result (zeroPageIndexed s.cfg z s.x) (s.mem.read (zeroPageIndexed s.cfg z s.x) - 1)).completed 2 3)) ∧
  (s.pc.toNat + 3 < memSize → exec (.decAbs w) s = .next ((result w.toNat (s.mem.read w.toNat - 1)).completed 3 2)) ∧
  (s.pc.toNat + 3 < memSize → w.toNat + s.x.toNat < memSize → exec (.decAbsX w) s = .next ((result (w.toNat + s.x.toNat) (s.mem.read (w.toNat + s.x.toNat) - 1)).completed 3 3))

/-- INX, INY, DEX and DEY answer, when the next instruction's address exists, the next state in which the register is
one more or one less modulo 256, Z and N are those of the result, C is unchanged, and nothing else has changed but
pc. -/
def Obligations.IndexRegisterSteps : Prop :=
  ∀ (s : State), s.pc.toNat + 1 < memSize →
    exec .inx s = .next ({ s with x := s.x + 1, flags := s.flags.ofResult (s.x + 1) }.completed 1 0) ∧
    exec .iny s = .next ({ s with y := s.y + 1, flags := s.flags.ofResult (s.y + 1) }.completed 1 0) ∧
    exec .dex s = .next ({ s with x := s.x - 1, flags := s.flags.ofResult (s.x - 1) }.completed 1 0) ∧
    exec .dey s = .next ({ s with y := s.y - 1, flags := s.flags.ofResult (s.y - 1) }.completed 1 0)

/-- JMP always completes with pc at its target. JSR, when its return address exists and sp is at least 2, stores the
address of the next instruction itself at sp - 2, high byte first, lowers sp by 2 and goes to its target. RTS, when
sp + 2 exists, goes exactly to the word at sp and raises sp by 2. Nothing else changes but the budget. -/
def Obligations.JumpCallReturn : Prop :=
  ∀ (s : State) (w : Word),
    exec (.jmp w) s = .next { s with pc := w } ∧
    (s.pc.toNat + 3 < memSize → 2 ≤ s.sp.toNat →
      exec (.jsr w) s = .next { s.stored [(s.sp.toNat - 2, hiByte (s.pc + 3)), (s.sp.toNat - 1, loByte (s.pc + 3))] with
        sp := s.sp - 2, pc := w, budget := s.budget - 2 }) ∧
    (s.sp.toNat + 2 < memSize →
      exec .rts s = .next { s with
        pc := wordOf (s.mem.read s.sp.toNat) (s.mem.read (s.sp.toNat + 1)), sp := s.sp + 2,
        budget := s.budget - 2 })

/-- For BCC, BCS, BEQ, BNE, BMI, BPL, BVC, BVS with the condition C = 0, C = 1, Z = 1, Z = 0, N = 1, N = 0, V = 0, V =
1: not taken, it goes to the address after the branch if that exists and else faults at 0x10000 or above; taken, it
goes to that address plus the signed offset if the sum lies in 0x0000 to 0xFFFF and else faults at the sum. No flag,
register or memory byte changes, and exec debits nothing, so a branch costs its two fetches either way. -/
def Obligations.BranchRule : Prop :=
  ∀ (s : State) (r : Byte),
    let target : Int := s.pc.toNat + 2 + r.toInt
    let faultAt : Int → StepResult := fun addr =>
      .fault (.outOfRange addr { s with fault := some (.outOfRange addr), engineState := .faulted })
    ∀ p ∈ [(Instr.bcc r, !s.flags.c),
        (Instr.bcs r, s.flags.c),
        (Instr.beq r, s.flags.z),
        (Instr.bne r, !s.flags.z),
        (Instr.bmi r, s.flags.n),
        (Instr.bpl r, !s.flags.n),
        (Instr.bvc r, !s.flags.v),
        (Instr.bvs r, s.flags.v)],
      (p.2 = false → s.pc.toNat + 2 < memSize → exec p.1 s = .next { s with pc := s.pc + 2 }) ∧
      (p.2 = false → memSize ≤ s.pc.toNat + 2 → exec p.1 s = faultAt (s.pc.toNat + 2 : Int)) ∧
      (p.2 = true → 0 ≤ target → target ≤ 0xFFFF → exec p.1 s = .next { s with pc := BitVec.ofInt 16 target }) ∧
      (p.2 = true → target < 0 ∨ 0xFFFF < target → exec p.1 s = faultAt target)

/-- PHA and PHP, when sp is at least 2 and the next instruction's address exists, answer the next state with sp down by
2 and a word stored at it: PHA a zero byte then a, PHP a zero byte then the seven flags with B as it stands. No flag
changes. -/
def Obligations.StackPushes : Prop :=
  ∀ (s : State), 2 ≤ s.sp.toNat → s.pc.toNat + 1 < memSize →
    exec .pha s = .next ({ s.stored [(s.sp.toNat - 2, 0x00), (s.sp.toNat - 1, s.a)] with sp := s.sp - 2 }.completed 1 2) ∧
    exec .php s = .next ({ s.stored [(s.sp.toNat - 2, 0x00), (s.sp.toNat - 1, (packFlags s.flags).setWidth 8)] with
      sp := s.sp - 2 }.completed 1 2)

/-- PLA and PLP, when sp + 2 and the next instruction's address exist, answer the next state with sp up by 2: PLA puts
the low byte of the word at sp (the byte at sp + 1) in a and sets Z and N from it, whatever the high byte; PLP
writes all seven flags from bits 0 to 6 of that word and ignores the rest. -/
def Obligations.StackPulls : Prop :=
  ∀ (s : State), s.sp.toNat + 2 < memSize → s.pc.toNat + 1 < memSize →
    let hi : Byte := s.mem.read s.sp.toNat
    let lo : Byte := s.mem.read (s.sp.toNat + 1)
    exec .pla s = .next ({ s with sp := s.sp + 2, a := lo, flags := s.flags.ofResult lo }.completed 1 2) ∧
    exec .plp s = .next ({ s with sp := s.sp + 2, flags := unpackFlags (wordOf hi lo) }.completed 1 2) ∧
    unpackFlags (wordOf hi lo) = ⟨lo[0], lo[1], lo[2], lo[3], lo[4], lo[5], lo[6]⟩

/-- When the next instruction's address exists, CLC, CLD, CLV and CLI clear C, D, V and I, NOP clears nothing, and
nothing else changes but pc. -/
def Obligations.FlagClearsAndNop : Prop :=
  ∀ (s : State), s.pc.toNat + 1 < memSize →
    exec .clc s = .next ({ s with flags := { s.flags with c := false } }.completed 1 0) ∧
    exec .cld s = .next ({ s with flags := { s.flags with d := false } }.completed 1 0) ∧
    exec .clv s = .next ({ s with flags := { s.flags with v := false } }.completed 1 0) ∧
    exec .cli s = .next ({ s with flags := { s.flags with i := false } }.completed 1 0) ∧
    exec .nop s = .next (s.completed 1 0)

/-- For every slot: with a return address past 0xFFFF the entry finds it out of range and changes nothing. Else, if sp
is at least 4 and the vector entry has two bytes, it pushes the return address, then the packed flags as they were,
sets B, and answers the handler address read (after the pushes, high byte first) from the slot's vector entry; sp is
down by 4, 6 units are debited, and nothing else has changed: not a, x, y, nor any flag but B. -/
def Obligations.EntrySequence : Prop :=
  ∀ (s : State) (slot : Slot) (ret : Nat),
    let pushed : List (Nat × Byte) := [(s.sp.toNat - 2, hiByte (BitVec.ofNat 16 ret)),
      (s.sp.toNat - 1, loByte (BitVec.ofNat 16 ret)), (s.sp.toNat - 4, 0x00),
      (s.sp.toNat - 3, (packFlags s.flags).setWidth 8)]
    let vec : Nat := (vecAddr s.cfg slot).toNat
    (0xFFFF < ret → trapEntry slot ret s = .oob ret s) ∧
    (ret ≤ 0xFFFF → 4 ≤ s.sp.toNat → vec + 1 < memSize →
      trapEntry slot ret s =
        .ok (wordOf ((s.mem.store pushed).read vec) ((s.mem.store pushed).read (vec + 1))).toNat { s.stored pushed with
          sp := s.sp - 4, flags := { s.flags with b := true }, budget := s.budget - 6 })

/-- BRK #n, when its return address exists, sp is at least 4 and the vector entry has two bytes: with n from 0 to 4 it
pushes the address after the slot byte, then the packed flags as they were, sets B, and goes to the address in slot
n's vector entry (read after the pushes, high byte first), for 6 units beside the fetch. With n from 5 to 255 it
does the same through slot INVALID after storing 0x00 at INVOP_ADDR, for 7 units. Nothing else changes. -/
def Obligations.BrkEntersSlot : Prop :=
  ∀ (s : State) (n : Byte) (slot : Slot),
    let ret : Word := s.pc + 2
    let pushed : List (Nat × Byte) := [(s.sp.toNat - 2, hiByte ret), (s.sp.toNat - 1, loByte ret),
      (s.sp.toNat - 4, 0x00), (s.sp.toNat - 3, (packFlags s.flags).setWidth 8)]
    let entry : Nat → List (Nat × Byte) → State := fun units bytes => { (s.stored bytes).vectored (vecAddr s.cfg slot).toNat with
      sp := s.sp - 4, flags := { s.flags with b := true }, budget := s.budget - units }
    s.pc.toNat + 2 < memSize → 4 ≤ s.sp.toNat → (vecAddr s.cfg slot).toNat + 1 < memSize →
    ((n, slot) ∈ [((0 : Byte), Slot.reset), (1, .user1), (2, .user2), (3, .invalid), (4, .halt)] →
      exec (.brk n) s = .next (entry 6 pushed)) ∧
    (5 ≤ n.toNat → slot = .invalid → exec (.brk n) s = .next (entry 7 ((s.cfg.invopAddr.toNat, 0x00) :: pushed)))

/-- RTI, when sp + 4 exists, writes all seven flags from the word at sp, goes exactly to the word at sp + 2, and raises
sp by 4, whether or not an interrupt is in progress. Nothing else changes but the budget. -/
def Obligations.RtiReturns : Prop :=
  ∀ (s : State), s.sp.toNat + 4 < memSize →
    exec .rti s = .next { s with
      flags := unpackFlags (wordOf (s.mem.read s.sp.toNat) (s.mem.read (s.sp.toNat + 1)))
      pc := wordOf (s.mem.read (s.sp.toNat + 2)) (s.mem.read (s.sp.toNat + 3))
      sp := s.sp + 4
      budget := s.budget - 4 }

/-- For every Absolute,X and Absolute,Y form, if the address plus the index is 0x10000 or more, the instruction raises
OutOfRange at that sum: the extra unit has been debited, nothing is written, nothing is emitted, no flag changes, pc
is not committed. -/
def Obligations.IndexedAccessPastTopFaults : Prop :=
  ∀ (s : State) (w : Word),
    let faultAt : Nat → StepResult := fun addr => .fault (.outOfRange addr
      { s with budget := s.budget - 1, fault := some (.outOfRange addr), engineState := .faulted })
    (memSize ≤ w.toNat + s.x.toNat → ∀ i ∈ [Instr.ldaAbsX w, Instr.ldyAbsX w, Instr.staAbsX w, Instr.adcAbsX w, Instr.andAbsX w,
        Instr.oraAbsX w, Instr.eorAbsX w, Instr.cmpAbsX w, Instr.incAbsX w, Instr.decAbsX w],
      exec i s = faultAt (w.toNat + s.x.toNat)) ∧
    (memSize ≤ w.toNat + s.y.toNat → ∀ i ∈ [Instr.ldaAbsY w, Instr.ldxAbsY w, Instr.staAbsY w, Instr.adcAbsY w, Instr.andAbsY w,
        Instr.oraAbsY w, Instr.eorAbsY w, Instr.cmpAbsY w],
      exec i s = faultAt (w.toNat + s.y.toNat))

/-- No instruction that does not transfer control completes when its next instruction's address is 0x10000 or more: it
raises an out-of-range fault. INX, NOP and CLC at 0xFFFF show the state left: the effects that completed stay, pc is
not committed, and the address is 0x10000. -/
def Obligations.CompletionPastTopFaults : Prop :=
  (∀ (s : State) (i : Instr), i.transfersControl = false → memSize ≤ s.pc.toNat + (encode i).length →
    ∃ addr final, exec i s = .fault (.outOfRange addr final)) ∧
  (∀ (s : State), s.pc = 0xFFFF →
    exec .inx s = .fault (.outOfRange 0x10000 { s with
      x := s.x + 1, flags := s.flags.ofResult (s.x + 1),
      fault := some (.outOfRange 0x10000), engineState := .faulted }) ∧
    exec .nop s = .fault (.outOfRange 0x10000 { s with fault := some (.outOfRange 0x10000), engineState := .faulted }) ∧
    exec .clc s = .fault (.outOfRange 0x10000 { s with
      flags := { s.flags with c := false },
      fault := some (.outOfRange 0x10000), engineState := .faulted }))

/-- With sp below 2 PHA, PHP, JSR and BRK with a slot of 0 to 4 (their return address existing) raise OutOfRange(sp - 2)
with nothing stored. With sp of 2 or 3 BRK with a slot of 0 to 4 pushes the return address and then faults at sp -
4. BRK with a slot of 5 to 255 and an invalid opcode byte (their return address existing) do the same at sp below 2
and at sp of 2 or 3, after 0x00 or the invalid byte has been stored at INVOP_ADDR, for one unit more. With sp =
0xFFFE PLA, PLP, RTS and RTI raise OutOfRange(0x10000) after reading the two bytes, with sp unchanged. RTI with sp =
0xFFFC restores the flags, moves sp to 0xFFFE and then faults at 0x10000. -/
def Obligations.StackLimitFaults : Prop :=
  ∀ (s : State),
    let faultAt : Int → State → StepResult := fun addr t =>
      .fault (.outOfRange addr { t with fault := some (.outOfRange addr), engineState := .faulted })
    let recorded : Byte → Int → State := fun op units =>
      { s.stored [(s.cfg.invopAddr.toNat, op)] with budget := s.budget - units }
    let pushed : Word → State → State := fun ret t =>
      { t.stored [(s.sp.toNat - 2, hiByte ret), (s.sp.toNat - 1, loByte ret)] with
        sp := s.sp - 2, budget := t.budget - 2 }
    (s.sp.toNat < 2 → exec .pha s = faultAt (s.sp.toNat - 2) s ∧ exec .php s = faultAt (s.sp.toNat - 2) s ∧
      (∀ w : Word, s.pc.toNat + 3 < memSize → exec (.jsr w) s = faultAt (s.sp.toNat - 2) s) ∧
      (∀ n : Byte, n.toNat < numSlots → s.pc.toNat + 2 < memSize → exec (.brk n) s = faultAt (s.sp.toNat - 2) s) ∧
      (∀ n : Byte, numSlots ≤ n.toNat → s.pc.toNat + 2 < memSize →
        exec (.brk n) s = faultAt (s.sp.toNat - 2) (recorded 0x00 1)) ∧
      (s.running → s.mem.read s.pc.toNat ∈ invalidOpcodes → s.pc.toNat + 1 < memSize →
        step s = faultAt (s.sp.toNat - 2) (recorded (s.mem.read s.pc.toNat) 2))) ∧
    (2 ≤ s.sp.toNat → s.sp.toNat < 4 →
      (∀ n : Byte, n.toNat < numSlots → s.pc.toNat + 2 < memSize →
        exec (.brk n) s = faultAt (s.sp.toNat - 4) (pushed (s.pc + 2) s)) ∧
      (∀ n : Byte, numSlots ≤ n.toNat → s.pc.toNat + 2 < memSize →
        exec (.brk n) s = faultAt (s.sp.toNat - 4) (pushed (s.pc + 2) (recorded 0x00 1))) ∧
      (s.running → s.mem.read s.pc.toNat ∈ invalidOpcodes → s.pc.toNat + 1 < memSize →
        step s = faultAt (s.sp.toNat - 4) (pushed (s.pc + 1) (recorded (s.mem.read s.pc.toNat) 2)))) ∧
    (s.sp = 0xFFFE → ∀ i ∈ [Instr.pla, .plp, .rts, .rti],
      exec i s = faultAt 0x10000 { s with budget := s.budget - 2 }) ∧
    (s.sp = 0xFFFC → exec .rti s = faultAt 0x10000 { s with
      sp := 0xFFFE,
      flags := unpackFlags (wordOf (s.mem.read 0xFFFC) (s.mem.read 0xFFFD)), budget := s.budget - 4 })

/-- A JSR at 0xFFFD, a BRK at 0xFFFE with a slot of 0 to 4, a BRK at 0xFFFE with a slot of 5 to 255 and an invalid
opcode byte at 0xFFFF raise OutOfRange(0x10000): nothing is pushed; in the last two cases 0x00 or the invalid byte
has been recorded at INVOP_ADDR before, for one unit more. -/
def Obligations.ReturnAddressPastTopFaults : Prop :=
  ∀ (s : State),
    let faultAt : State → StepResult := fun t =>
      .fault (.outOfRange 0x10000 { t with fault := some (.outOfRange 0x10000), engineState := .faulted })
    (s.pc = 0xFFFD → ∀ w : Word, exec (.jsr w) s = faultAt s) ∧
    (s.pc = 0xFFFE → ∀ n : Byte, n.toNat < numSlots → exec (.brk n) s = faultAt s) ∧
    (s.pc = 0xFFFE → ∀ n : Byte, numSlots ≤ n.toNat →
      exec (.brk n) s = faultAt { s.stored [(s.cfg.invopAddr.toNat, 0x00)] with budget := s.budget - 1 }) ∧
    (s.running → s.pc = 0xFFFF → s.mem.read 0xFFFF ∈ invalidOpcodes →
      step s = faultAt { s.stored [(s.cfg.invopAddr.toNat, s.mem.read 0xFFFF)] with budget := s.budget - 2 })

/-- exec never refuses and never answers any other fault: if it does not answer a next state it answers OutOfRange(addr)
with addr outside 0x0000 to 0xFFFF, and in the state it leaves the fault register holds that address, the engine is
Faulted, pc is still the instruction's own address, and the configuration is unchanged. The same holds of a step of
an engine that can run, which so is never refused and never stuck. -/
def Obligations.OnlyOutOfRangeStops : Prop :=
  (∀ (i : Instr) (s : State), (∃ t, exec i s = .next t) ∨ ∃ addr final, exec i s = .fault (.outOfRange addr final) ∧
    (addr < 0 ∨ 0xFFFF < addr) ∧ final.fault = some (.outOfRange addr) ∧ final.engineState = .faulted ∧
    final.pc = s.pc ∧ final.cfg = s.cfg) ∧
  (∀ s : State, s.running → (∃ t, step s = .next t) ∨ ∃ addr final, step s = .fault (.outOfRange addr final) ∧
    (addr < 0 ∨ 0xFFFF < addr) ∧ final.fault = some (.outOfRange addr) ∧ final.engineState = .faulted ∧
    final.pc = s.pc ∧ final.cfg = s.cfg)

/-- When an instruction answers a next state: a is unchanged unless it is LDA, ADC, AND, ORA, EOR or PLA; x unless it is
LDX, INX or DEX; y unless it is LDY, INY or DEY; and sp moves by exactly -2 for JSR, PHA, PHP, -4 for BRK, +2 for
RTS, PLA, PLP, +4 for RTI, and not at all for every other. -/
def Obligations.RegisterFrame : Prop :=
  ∀ (i : Instr) (s t : State), exec i s = .next t →
    (i.writesA = false → t.a = s.a) ∧ (i.writesX = false → t.x = s.x) ∧ (i.writesY = false → t.y = s.y) ∧
    t.sp = s.sp + i.spChange

/-- When an instruction answers a next state, each of the seven flags is unchanged unless the spec lists the instruction
among those that write it: C (ADC, compares, CLC, PLP, RTI), Z and N (loads, arithmetic, logic, compares, increments
and decrements, PLA, PLP, RTI), V (ADC, CLV, PLP, RTI), I (CLI, PLP, RTI), D (CLD, PLP, RTI), B (BRK, PLP, RTI). -/
def Obligations.FlagFrame : Prop :=
  ∀ (i : Instr) (s t : State), exec i s = .next t →
    (i.writesC = false → t.flags.c = s.flags.c) ∧ (i.writesZN = false → t.flags.z = s.flags.z ∧ t.flags.n = s.flags.n) ∧
    (i.writesV = false → t.flags.v = s.flags.v) ∧ (i.writesI = false → t.flags.i = s.flags.i) ∧
    (i.writesD = false → t.flags.d = s.flags.d) ∧ (i.writesB = false → t.flags.b = s.flags.b)

/-- When an instruction answers a next state, every address that is not among the addresses it stores to reads as
before. Those are: the effective address for STA, STX, STY, INC and DEC; the two bytes at sp - 2 for PHA, PHP and
JSR; the four bytes of the frame for BRK, and INVOP_ADDR if its slot is reserved; none for every other instruction. -/
def Obligations.MemoryFrame : Prop :=
  ∀ (i : Instr) (s t : State), exec i s = .next t →
    ∀ addr, (∀ p ∈ storesOf i s, p.1 ≠ addr) → t.mem.read addr = s.mem.read addr

/-- When an instruction answers a next state, memory is the old memory with the bytes it stores written in order, and
outLog is the old log followed by those of them that went to OUT_ADDR: stores, INC and DEC write-back, pushes and
the invalid-opcode record all emit there. An instruction that stores nothing leaves both as they were. loadImage and
reset emit nothing. And every core write of one byte, in an instruction that completes or not, writes memory and
emits the byte just when it is at OUT_ADDR. -/
def Obligations.StoresAndOutput : Prop :=
  (∀ (i : Instr) (s t : State), exec i s = .next t →
    t.mem = s.mem.store (storesOf i s) ∧ t.outLog = s.outLog ++ emitted s.cfg (storesOf i s)) ∧
  (∀ (s t : State) (addr : Nat) (bytes : List Byte), loadImage addr bytes s = .next t → t.outLog = s.outLog) ∧
  (∀ s : State, (hostReset s).outLog = s.outLog) ∧
  (∀ (s : State) (addr : Nat) (v : Byte), addr < memSize →
    memWrite addr v s = .ok () { s with
      mem := s.mem.write addr v
      outLog := s.outLog ++ emitted s.cfg [(addr, v)]
      budget := s.budget - 1 } ∧
    emitted s.cfg [(addr, v)] = if addr = s.cfg.outAddr.toNat then [v] else [])

/-- When an instruction answers a next state, the configuration, the fault register and the engine state are unchanged
by exec, and the budget has not gone up. -/
def Obligations.EngineFrame : Prop :=
  ∀ (i : Instr) (s t : State), exec i s = .next t →
    t.cfg = s.cfg ∧ t.fault = s.fault ∧ t.engineState = s.engineState ∧ t.budget ≤ s.budget

/-- An instruction not listed as a reader of a does the same thing whatever a holds: from the state with a replaced by v
it answers the same next state, with a equal to what it wrote if it writes a and to v if it does not; and an
instruction not listed as a writer leaves a unchanged. The same for x and y, whose readers include the indexed
modes. -/
def Obligations.RegisterReadersAndWriters : Prop :=
  ∀ (i : Instr) (s t : State) (v : Byte), exec i s = .next t →
    (i.readsA = false → exec i { s with a := v } = .next (if i.writesA then t else { t with a := v })) ∧
    (i.readsX = false → exec i { s with x := v } = .next (if i.writesX then t else { t with x := v })) ∧
    (i.readsY = false → exec i { s with y := v } = .next (if i.writesY then t else { t with y := v })) ∧
    (i.writesA = false → t.a = s.a) ∧ (i.writesX = false → t.x = s.x) ∧ (i.writesY = false → t.y = s.y)

/-- Every instruction but PHP and BRK (which pack the flags) does the same thing whatever I, D and B hold: from the
state with one of them replaced by v it answers the same next state, with that flag as it wrote it if it writes it
and v if not. So ADC is binary whatever D holds, and I masks nothing. -/
def Obligations.UngatedFlags : Prop :=
  ∀ (i : Instr) (s t : State) (v : Bool), exec i s = .next t →
    (i.packsFlags = false → exec i { s with flags := { s.flags with i := v } } =
      .next (if i.writesI then t else { t with flags := { t.flags with i := v } })) ∧
    (i.packsFlags = false → exec i { s with flags := { s.flags with d := v } } =
      .next (if i.writesD then t else { t with flags := { t.flags with d := v } })) ∧
    (i.packsFlags = false → exec i { s with flags := { s.flags with b := v } } =
      .next (if i.writesB then t else { t with flags := { t.flags with b := v } }))

/-- If a JSR with an existing return address and sp at least 2 answers t, then from every state whose sp is that of t
and in which the two pushed bytes read as in t, RTS answers a next state with pc at the address after the JSR and sp
as it was before it. Memory is taken in its canonical form at the call, the invariant of StepKeepsInvariant. -/
def Obligations.CallReturnSymmetry : Prop :=
  ∀ (s u : State) (w : Word), s.mem.wf = true → s.pc.toNat + 3 ≤ 0xFFFF → 2 ≤ s.sp.toNat →
    ∃ t, exec (.jsr w) s = .next t ∧
      (u.sp = t.sp → u.mem.read t.sp.toNat = t.mem.read t.sp.toNat →
        u.mem.read (t.sp.toNat + 1) = t.mem.read (t.sp.toNat + 1) →
        ∃ v, exec .rts u = .next v ∧ v.pc = s.pc + 3 ∧ v.sp = s.sp)

/-- If a BRK with a slot of 0 to 4, an existing return address, sp at least 4 and a valid configuration runs, it answers
a next state t, and from every state whose sp is that of t and in which the four pushed bytes read as in t, RTI
answers a next state with pc at the address after the slot byte, sp as it was and the flags as they were, B
included. Memory is taken in its canonical form at the BRK, the invariant of StepKeepsInvariant. -/
def Obligations.InterruptReturnSymmetry : Prop :=
  ∀ (s u : State) (n : Byte), s.mem.wf = true → s.cfg.valid = true → n.toNat < numSlots → s.pc.toNat + 2 ≤ 0xFFFF →
    4 ≤ s.sp.toNat →
    ∃ t, exec (.brk n) s = .next t ∧ t.sp.toNat = s.sp.toNat - 4 ∧
      (u.sp = t.sp → (∀ k < 4, u.mem.read (t.sp.toNat + k) = t.mem.read (t.sp.toNat + k)) →
        ∃ v, exec .rti u = .next v ∧ v.pc = s.pc + 2 ∧ v.sp = s.sp ∧ v.flags = s.flags)

/-- The entry sequence of any slot from sp = S (S at least 4, a valid configuration, a return address that exists)
leaves sp = S - 4, the byte 0x00 at S - 4, the packed flags taken before B was set at S - 3, and the return address
at S - 2 and S - 1, high byte first. Memory is taken in its canonical form, the invariant of StepKeepsInvariant. -/
def Obligations.InterruptFrameLayout : Prop :=
  ∀ (s : State) (slot : Slot) (ret : Nat), s.mem.wf = true → s.cfg.valid = true → ret < memSize → 4 ≤ s.sp.toNat →
    ∃ handler t, trapEntry slot ret s = .ok handler t ∧ t.sp.toNat = s.sp.toNat - 4 ∧ t.flags = { s.flags with b := true } ∧
      t.mem.read (s.sp.toNat - 4) = 0x00 ∧ t.mem.read (s.sp.toNat - 3) = loByte (packFlags s.flags) ∧
      t.mem.read (s.sp.toNat - 2) = hiByte (BitVec.ofNat 16 ret) ∧
      t.mem.read (s.sp.toNat - 1) = loByte (BitVec.ofNat 16 ret)
end

