-- ==== Sys2Proof/Laws/State.lean ====
section
/-! SUPPORT. Every field of State after every named update, each true by rfl: no proof unfolds a record update. -/

namespace Sys2Proof.Machine

variable (s : State)

/-! ## setA -/

@[simp] theorem State.setA_cfg (v : Byte) : (s.setA v).cfg = s.cfg := rfl
@[simp] theorem State.setA_a (v : Byte) : (s.setA v).a = v := rfl
@[simp] theorem State.setA_x (v : Byte) : (s.setA v).x = s.x := rfl
@[simp] theorem State.setA_y (v : Byte) : (s.setA v).y = s.y := rfl
@[simp] theorem State.setA_sp (v : Byte) : (s.setA v).sp = s.sp := rfl
@[simp] theorem State.setA_pc (v : Byte) : (s.setA v).pc = s.pc := rfl
@[simp] theorem State.setA_flags (v : Byte) : (s.setA v).flags = s.flags := rfl
@[simp] theorem State.setA_mem (v : Byte) : (s.setA v).mem = s.mem := rfl
@[simp] theorem State.setA_budget (v : Byte) : (s.setA v).budget = s.budget := rfl
@[simp] theorem State.setA_engineState (v : Byte) : (s.setA v).engineState = s.engineState := rfl
@[simp] theorem State.setA_fault (v : Byte) : (s.setA v).fault = s.fault := rfl
@[simp] theorem State.setA_outLog (v : Byte) : (s.setA v).outLog = s.outLog := rfl

/-! ## setX -/

@[simp] theorem State.setX_cfg (v : Byte) : (s.setX v).cfg = s.cfg := rfl
@[simp] theorem State.setX_a (v : Byte) : (s.setX v).a = s.a := rfl
@[simp] theorem State.setX_x (v : Byte) : (s.setX v).x = v := rfl
@[simp] theorem State.setX_y (v : Byte) : (s.setX v).y = s.y := rfl
@[simp] theorem State.setX_sp (v : Byte) : (s.setX v).sp = s.sp := rfl
@[simp] theorem State.setX_pc (v : Byte) : (s.setX v).pc = s.pc := rfl
@[simp] theorem State.setX_flags (v : Byte) : (s.setX v).flags = s.flags := rfl
@[simp] theorem State.setX_mem (v : Byte) : (s.setX v).mem = s.mem := rfl
@[simp] theorem State.setX_budget (v : Byte) : (s.setX v).budget = s.budget := rfl
@[simp] theorem State.setX_engineState (v : Byte) : (s.setX v).engineState = s.engineState := rfl
@[simp] theorem State.setX_fault (v : Byte) : (s.setX v).fault = s.fault := rfl
@[simp] theorem State.setX_outLog (v : Byte) : (s.setX v).outLog = s.outLog := rfl

/-! ## setY -/

@[simp] theorem State.setY_cfg (v : Byte) : (s.setY v).cfg = s.cfg := rfl
@[simp] theorem State.setY_a (v : Byte) : (s.setY v).a = s.a := rfl
@[simp] theorem State.setY_x (v : Byte) : (s.setY v).x = s.x := rfl
@[simp] theorem State.setY_y (v : Byte) : (s.setY v).y = v := rfl
@[simp] theorem State.setY_sp (v : Byte) : (s.setY v).sp = s.sp := rfl
@[simp] theorem State.setY_pc (v : Byte) : (s.setY v).pc = s.pc := rfl
@[simp] theorem State.setY_flags (v : Byte) : (s.setY v).flags = s.flags := rfl
@[simp] theorem State.setY_mem (v : Byte) : (s.setY v).mem = s.mem := rfl
@[simp] theorem State.setY_budget (v : Byte) : (s.setY v).budget = s.budget := rfl
@[simp] theorem State.setY_engineState (v : Byte) : (s.setY v).engineState = s.engineState := rfl
@[simp] theorem State.setY_fault (v : Byte) : (s.setY v).fault = s.fault := rfl
@[simp] theorem State.setY_outLog (v : Byte) : (s.setY v).outLog = s.outLog := rfl

/-! ## setSp -/

@[simp] theorem State.setSp_cfg (v : Word) : (s.setSp v).cfg = s.cfg := rfl
@[simp] theorem State.setSp_a (v : Word) : (s.setSp v).a = s.a := rfl
@[simp] theorem State.setSp_x (v : Word) : (s.setSp v).x = s.x := rfl
@[simp] theorem State.setSp_y (v : Word) : (s.setSp v).y = s.y := rfl
@[simp] theorem State.setSp_sp (v : Word) : (s.setSp v).sp = v := rfl
@[simp] theorem State.setSp_pc (v : Word) : (s.setSp v).pc = s.pc := rfl
@[simp] theorem State.setSp_flags (v : Word) : (s.setSp v).flags = s.flags := rfl
@[simp] theorem State.setSp_mem (v : Word) : (s.setSp v).mem = s.mem := rfl
@[simp] theorem State.setSp_budget (v : Word) : (s.setSp v).budget = s.budget := rfl
@[simp] theorem State.setSp_engineState (v : Word) : (s.setSp v).engineState = s.engineState := rfl
@[simp] theorem State.setSp_fault (v : Word) : (s.setSp v).fault = s.fault := rfl
@[simp] theorem State.setSp_outLog (v : Word) : (s.setSp v).outLog = s.outLog := rfl

/-! ## setPc -/

@[simp] theorem State.setPc_cfg (v : Word) : (s.setPc v).cfg = s.cfg := rfl
@[simp] theorem State.setPc_a (v : Word) : (s.setPc v).a = s.a := rfl
@[simp] theorem State.setPc_x (v : Word) : (s.setPc v).x = s.x := rfl
@[simp] theorem State.setPc_y (v : Word) : (s.setPc v).y = s.y := rfl
@[simp] theorem State.setPc_sp (v : Word) : (s.setPc v).sp = s.sp := rfl
@[simp] theorem State.setPc_pc (v : Word) : (s.setPc v).pc = v := rfl
@[simp] theorem State.setPc_flags (v : Word) : (s.setPc v).flags = s.flags := rfl
@[simp] theorem State.setPc_mem (v : Word) : (s.setPc v).mem = s.mem := rfl
@[simp] theorem State.setPc_budget (v : Word) : (s.setPc v).budget = s.budget := rfl
@[simp] theorem State.setPc_engineState (v : Word) : (s.setPc v).engineState = s.engineState := rfl
@[simp] theorem State.setPc_fault (v : Word) : (s.setPc v).fault = s.fault := rfl
@[simp] theorem State.setPc_outLog (v : Word) : (s.setPc v).outLog = s.outLog := rfl

/-! ## setFlags -/

@[simp] theorem State.setFlags_cfg (v : Flags) : (s.setFlags v).cfg = s.cfg := rfl
@[simp] theorem State.setFlags_a (v : Flags) : (s.setFlags v).a = s.a := rfl
@[simp] theorem State.setFlags_x (v : Flags) : (s.setFlags v).x = s.x := rfl
@[simp] theorem State.setFlags_y (v : Flags) : (s.setFlags v).y = s.y := rfl
@[simp] theorem State.setFlags_sp (v : Flags) : (s.setFlags v).sp = s.sp := rfl
@[simp] theorem State.setFlags_pc (v : Flags) : (s.setFlags v).pc = s.pc := rfl
@[simp] theorem State.setFlags_flags (v : Flags) : (s.setFlags v).flags = v := rfl
@[simp] theorem State.setFlags_mem (v : Flags) : (s.setFlags v).mem = s.mem := rfl
@[simp] theorem State.setFlags_budget (v : Flags) : (s.setFlags v).budget = s.budget := rfl
@[simp] theorem State.setFlags_engineState (v : Flags) : (s.setFlags v).engineState = s.engineState := rfl
@[simp] theorem State.setFlags_fault (v : Flags) : (s.setFlags v).fault = s.fault := rfl
@[simp] theorem State.setFlags_outLog (v : Flags) : (s.setFlags v).outLog = s.outLog := rfl

/-! ## setEngine -/

@[simp] theorem State.setEngine_cfg (v : EngineState) : (s.setEngine v).cfg = s.cfg := rfl
@[simp] theorem State.setEngine_a (v : EngineState) : (s.setEngine v).a = s.a := rfl
@[simp] theorem State.setEngine_x (v : EngineState) : (s.setEngine v).x = s.x := rfl
@[simp] theorem State.setEngine_y (v : EngineState) : (s.setEngine v).y = s.y := rfl
@[simp] theorem State.setEngine_sp (v : EngineState) : (s.setEngine v).sp = s.sp := rfl
@[simp] theorem State.setEngine_pc (v : EngineState) : (s.setEngine v).pc = s.pc := rfl
@[simp] theorem State.setEngine_flags (v : EngineState) : (s.setEngine v).flags = s.flags := rfl
@[simp] theorem State.setEngine_mem (v : EngineState) : (s.setEngine v).mem = s.mem := rfl
@[simp] theorem State.setEngine_budget (v : EngineState) : (s.setEngine v).budget = s.budget := rfl
@[simp] theorem State.setEngine_engineState (v : EngineState) : (s.setEngine v).engineState = v := rfl
@[simp] theorem State.setEngine_fault (v : EngineState) : (s.setEngine v).fault = s.fault := rfl
@[simp] theorem State.setEngine_outLog (v : EngineState) : (s.setEngine v).outLog = s.outLog := rfl

/-! ## debit -/

@[simp] theorem State.debit_cfg (n : Nat) : (s.debit n).cfg = s.cfg := rfl
@[simp] theorem State.debit_a (n : Nat) : (s.debit n).a = s.a := rfl
@[simp] theorem State.debit_x (n : Nat) : (s.debit n).x = s.x := rfl
@[simp] theorem State.debit_y (n : Nat) : (s.debit n).y = s.y := rfl
@[simp] theorem State.debit_sp (n : Nat) : (s.debit n).sp = s.sp := rfl
@[simp] theorem State.debit_pc (n : Nat) : (s.debit n).pc = s.pc := rfl
@[simp] theorem State.debit_flags (n : Nat) : (s.debit n).flags = s.flags := rfl
@[simp] theorem State.debit_mem (n : Nat) : (s.debit n).mem = s.mem := rfl
@[simp] theorem State.debit_budget (n : Nat) : (s.debit n).budget = s.budget - n := rfl
@[simp] theorem State.debit_engineState (n : Nat) : (s.debit n).engineState = s.engineState := rfl
@[simp] theorem State.debit_fault (n : Nat) : (s.debit n).fault = s.fault := rfl
@[simp] theorem State.debit_outLog (n : Nat) : (s.debit n).outLog = s.outLog := rfl

/-! ## setZN -/

@[simp] theorem State.setZN_cfg (r : Byte) : (s.setZN r).cfg = s.cfg := rfl
@[simp] theorem State.setZN_a (r : Byte) : (s.setZN r).a = s.a := rfl
@[simp] theorem State.setZN_x (r : Byte) : (s.setZN r).x = s.x := rfl
@[simp] theorem State.setZN_y (r : Byte) : (s.setZN r).y = s.y := rfl
@[simp] theorem State.setZN_sp (r : Byte) : (s.setZN r).sp = s.sp := rfl
@[simp] theorem State.setZN_pc (r : Byte) : (s.setZN r).pc = s.pc := rfl
@[simp] theorem State.setZN_flags (r : Byte) : (s.setZN r).flags = s.flags.zn r := rfl
@[simp] theorem State.setZN_mem (r : Byte) : (s.setZN r).mem = s.mem := rfl
@[simp] theorem State.setZN_budget (r : Byte) : (s.setZN r).budget = s.budget := rfl
@[simp] theorem State.setZN_engineState (r : Byte) : (s.setZN r).engineState = s.engineState := rfl
@[simp] theorem State.setZN_fault (r : Byte) : (s.setZN r).fault = s.fault := rfl
@[simp] theorem State.setZN_outLog (r : Byte) : (s.setZN r).outLog = s.outLog := rfl

/-! ## putByte -/

@[simp] theorem State.putByte_cfg (addr : Nat) (v : Byte) : (s.putByte addr v).cfg = s.cfg := rfl
@[simp] theorem State.putByte_a (addr : Nat) (v : Byte) : (s.putByte addr v).a = s.a := rfl
@[simp] theorem State.putByte_x (addr : Nat) (v : Byte) : (s.putByte addr v).x = s.x := rfl
@[simp] theorem State.putByte_y (addr : Nat) (v : Byte) : (s.putByte addr v).y = s.y := rfl
@[simp] theorem State.putByte_sp (addr : Nat) (v : Byte) : (s.putByte addr v).sp = s.sp := rfl
@[simp] theorem State.putByte_pc (addr : Nat) (v : Byte) : (s.putByte addr v).pc = s.pc := rfl
@[simp] theorem State.putByte_flags (addr : Nat) (v : Byte) : (s.putByte addr v).flags = s.flags := rfl
@[simp] theorem State.putByte_mem (addr : Nat) (v : Byte) : (s.putByte addr v).mem = s.mem.write addr v := rfl
@[simp] theorem State.putByte_budget (addr : Nat) (v : Byte) : (s.putByte addr v).budget = s.budget := rfl
@[simp] theorem State.putByte_engineState (addr : Nat) (v : Byte) : (s.putByte addr v).engineState = s.engineState := rfl
@[simp] theorem State.putByte_fault (addr : Nat) (v : Byte) : (s.putByte addr v).fault = s.fault := rfl
@[simp] theorem State.putByte_outLog (addr : Nat) (v : Byte) : (s.putByte addr v).outLog = if addr = s.cfg.outAddr.toNat then s.outLog ++ [v] else s.outLog := rfl

/-! ## faulted -/

@[simp] theorem State.faulted_cfg (addr : Int) : (s.faulted addr).cfg = s.cfg := rfl
@[simp] theorem State.faulted_a (addr : Int) : (s.faulted addr).a = s.a := rfl
@[simp] theorem State.faulted_x (addr : Int) : (s.faulted addr).x = s.x := rfl
@[simp] theorem State.faulted_y (addr : Int) : (s.faulted addr).y = s.y := rfl
@[simp] theorem State.faulted_sp (addr : Int) : (s.faulted addr).sp = s.sp := rfl
@[simp] theorem State.faulted_pc (addr : Int) : (s.faulted addr).pc = s.pc := rfl
@[simp] theorem State.faulted_flags (addr : Int) : (s.faulted addr).flags = s.flags := rfl
@[simp] theorem State.faulted_mem (addr : Int) : (s.faulted addr).mem = s.mem := rfl
@[simp] theorem State.faulted_budget (addr : Int) : (s.faulted addr).budget = s.budget := rfl
@[simp] theorem State.faulted_engineState (addr : Int) : (s.faulted addr).engineState = .faulted := rfl
@[simp] theorem State.faulted_fault (addr : Int) : (s.faulted addr).fault = some (.outOfRange addr) := rfl
@[simp] theorem State.faulted_outLog (addr : Int) : (s.faulted addr).outLog = s.outLog := rfl

/-! ## place -/

@[simp] theorem State.place_cfg (addr : Nat) (bs : List Byte) : (s.place addr bs).cfg = s.cfg := rfl
@[simp] theorem State.place_a (addr : Nat) (bs : List Byte) : (s.place addr bs).a = s.a := rfl
@[simp] theorem State.place_x (addr : Nat) (bs : List Byte) : (s.place addr bs).x = s.x := rfl
@[simp] theorem State.place_y (addr : Nat) (bs : List Byte) : (s.place addr bs).y = s.y := rfl
@[simp] theorem State.place_sp (addr : Nat) (bs : List Byte) : (s.place addr bs).sp = s.sp := rfl
@[simp] theorem State.place_pc (addr : Nat) (bs : List Byte) : (s.place addr bs).pc = s.pc := rfl
@[simp] theorem State.place_flags (addr : Nat) (bs : List Byte) : (s.place addr bs).flags = s.flags := rfl
@[simp] theorem State.place_mem (addr : Nat) (bs : List Byte) : (s.place addr bs).mem = s.mem.writeAll addr (bs.take (memSize - addr)) := rfl
@[simp] theorem State.place_budget (addr : Nat) (bs : List Byte) : (s.place addr bs).budget = s.budget := rfl
@[simp] theorem State.place_engineState (addr : Nat) (bs : List Byte) : (s.place addr bs).engineState = s.engineState := rfl
@[simp] theorem State.place_fault (addr : Nat) (bs : List Byte) : (s.place addr bs).fault = s.fault := rfl
@[simp] theorem State.place_outLog (addr : Nat) (bs : List Byte) : (s.place addr bs).outLog = s.outLog := rfl

/-! ## completed -/

@[simp] theorem State.completed_cfg (len units : Nat) : (s.completed len units).cfg = s.cfg := rfl
@[simp] theorem State.completed_a (len units : Nat) : (s.completed len units).a = s.a := rfl
@[simp] theorem State.completed_x (len units : Nat) : (s.completed len units).x = s.x := rfl
@[simp] theorem State.completed_y (len units : Nat) : (s.completed len units).y = s.y := rfl
@[simp] theorem State.completed_sp (len units : Nat) : (s.completed len units).sp = s.sp := rfl
@[simp] theorem State.completed_pc (len units : Nat) : (s.completed len units).pc = s.pc + BitVec.ofNat 16 len := rfl
@[simp] theorem State.completed_flags (len units : Nat) : (s.completed len units).flags = s.flags := rfl
@[simp] theorem State.completed_mem (len units : Nat) : (s.completed len units).mem = s.mem := rfl
@[simp] theorem State.completed_budget (len units : Nat) : (s.completed len units).budget = s.budget - units := rfl
@[simp] theorem State.completed_engineState (len units : Nat) : (s.completed len units).engineState = s.engineState := rfl
@[simp] theorem State.completed_fault (len units : Nat) : (s.completed len units).fault = s.fault := rfl
@[simp] theorem State.completed_outLog (len units : Nat) : (s.completed len units).outLog = s.outLog := rfl

/-! ## stored -/

@[simp] theorem State.stored_cfg (bs : List (Nat × Byte)) : (s.stored bs).cfg = s.cfg := rfl
@[simp] theorem State.stored_a (bs : List (Nat × Byte)) : (s.stored bs).a = s.a := rfl
@[simp] theorem State.stored_x (bs : List (Nat × Byte)) : (s.stored bs).x = s.x := rfl
@[simp] theorem State.stored_y (bs : List (Nat × Byte)) : (s.stored bs).y = s.y := rfl
@[simp] theorem State.stored_sp (bs : List (Nat × Byte)) : (s.stored bs).sp = s.sp := rfl
@[simp] theorem State.stored_pc (bs : List (Nat × Byte)) : (s.stored bs).pc = s.pc := rfl
@[simp] theorem State.stored_flags (bs : List (Nat × Byte)) : (s.stored bs).flags = s.flags := rfl
@[simp] theorem State.stored_mem (bs : List (Nat × Byte)) : (s.stored bs).mem = s.mem.store bs := rfl
@[simp] theorem State.stored_budget (bs : List (Nat × Byte)) : (s.stored bs).budget = s.budget := rfl
@[simp] theorem State.stored_engineState (bs : List (Nat × Byte)) : (s.stored bs).engineState = s.engineState := rfl
@[simp] theorem State.stored_fault (bs : List (Nat × Byte)) : (s.stored bs).fault = s.fault := rfl
@[simp] theorem State.stored_outLog (bs : List (Nat × Byte)) : (s.stored bs).outLog = s.outLog ++ emitted s.cfg bs := rfl

/-! ## vectored -/

@[simp] theorem State.vectored_cfg (addr : Nat) : (s.vectored addr).cfg = s.cfg := rfl
@[simp] theorem State.vectored_a (addr : Nat) : (s.vectored addr).a = s.a := rfl
@[simp] theorem State.vectored_x (addr : Nat) : (s.vectored addr).x = s.x := rfl
@[simp] theorem State.vectored_y (addr : Nat) : (s.vectored addr).y = s.y := rfl
@[simp] theorem State.vectored_sp (addr : Nat) : (s.vectored addr).sp = s.sp := rfl
@[simp] theorem State.vectored_pc (addr : Nat) : (s.vectored addr).pc = wordOf (s.mem.read addr) (s.mem.read (addr + 1)) := rfl
@[simp] theorem State.vectored_flags (addr : Nat) : (s.vectored addr).flags = s.flags := rfl
@[simp] theorem State.vectored_mem (addr : Nat) : (s.vectored addr).mem = s.mem := rfl
@[simp] theorem State.vectored_budget (addr : Nat) : (s.vectored addr).budget = s.budget := rfl
@[simp] theorem State.vectored_engineState (addr : Nat) : (s.vectored addr).engineState = s.engineState := rfl
@[simp] theorem State.vectored_fault (addr : Nat) : (s.vectored addr).fault = s.fault := rfl
@[simp] theorem State.vectored_outLog (addr : Nat) : (s.vectored addr).outLog = s.outLog := rfl

/-! ## fetched -/

@[simp] theorem State.fetched_cfg (i : Instr) : (s.fetched i).cfg = s.cfg := rfl
@[simp] theorem State.fetched_a (i : Instr) : (s.fetched i).a = s.a := rfl
@[simp] theorem State.fetched_x (i : Instr) : (s.fetched i).x = s.x := rfl
@[simp] theorem State.fetched_y (i : Instr) : (s.fetched i).y = s.y := rfl
@[simp] theorem State.fetched_sp (i : Instr) : (s.fetched i).sp = s.sp := rfl
@[simp] theorem State.fetched_pc (i : Instr) : (s.fetched i).pc = s.pc := rfl
@[simp] theorem State.fetched_flags (i : Instr) : (s.fetched i).flags = s.flags := rfl
@[simp] theorem State.fetched_mem (i : Instr) : (s.fetched i).mem = s.mem := rfl
@[simp] theorem State.fetched_budget (i : Instr) : (s.fetched i).budget = s.budget - (encode i).length := rfl
@[simp] theorem State.fetched_engineState (i : Instr) : (s.fetched i).engineState = .executing := rfl
@[simp] theorem State.fetched_fault (i : Instr) : (s.fetched i).fault = s.fault := rfl
@[simp] theorem State.fetched_outLog (i : Instr) : (s.fetched i).outLog = s.outLog := rfl

end Sys2Proof.Machine
end

