-- ==== Sys2Proof/Laws/Memory.lean ====
section
/-! SUPPORT. What one byte of memory reads after a write, and that every memory operation keeps the canonical form. -/

namespace Sys2Proof.Machine

/-- A write leaves every other address alone, whatever the list's form. -/
theorem Memory.read_write_other {a b : Nat} (h : b ≠ a) (v : Byte) (m : Memory) :
    (m.write a v).read b = m.read b := by
  induction m with
  | nil => unfold Memory.write; split <;> simp [Memory.read, h]
  | cons p m ih =>
    obtain ⟨c, w⟩ := p
    unfold Memory.write
    split
    · split <;> simp [Memory.read, h]
    · split
      · rename_i hac
        subst hac
        split <;> simp [Memory.read, h]
      · simp [Memory.read, ih]

/-- Below the least listed address everything reads 0x00. -/
theorem Memory.read_below {lo a : Nat} {m : Memory} (h : m.wfFrom lo = true) (ha : a < lo) : m.read a = 0 := by
  induction m generalizing lo with
  | nil => rfl
  | cons p m ih =>
    obtain ⟨b, w⟩ := p
    simp only [Memory.wfFrom, Bool.and_eq_true, decide_eq_true_eq] at h
    have hne : a ≠ b := by omega
    simp only [Memory.read, hne, if_false]
    exact ih h.2.2.2 (by omega)

/-- A read after a write to the same address gives the byte written. -/
theorem Memory.read_write_self {m : Memory} (h : m.wf = true) (a : Nat) (v : Byte) :
    (m.write a v).read a = v := by
  suffices ∀ lo, m.wfFrom lo = true → (m.write a v).read a = v from this 0 h
  clear h
  induction m with
  | nil =>
    intro lo _
    unfold Memory.write
    split
    · rename_i hv; rw [hv]; rfl
    · simp [Memory.read]
  | cons p m ih =>
    obtain ⟨b, w⟩ := p
    intro lo h
    have hall := h
    simp only [Memory.wfFrom, Bool.and_eq_true, decide_eq_true_eq] at h
    unfold Memory.write
    split
    · rename_i hab
      split
      · rename_i hv
        have hne : a ≠ b := by omega
        simpa [Memory.read, hne, hv] using Memory.read_below h.2.2.2 (by omega : a < b + 1)
      · simp [Memory.read]
    · split
      · rename_i hab
        subst hab
        split
        · rename_i hv
          rw [hv]
          exact Memory.read_below h.2.2.2 (by omega)
        · simp [Memory.read]
      · rename_i hab
        simp only [Memory.read, hab, if_false]
        exact ih _ h.2.2.2

/-- The canonical form from a higher bound gives it from a lower one. -/
theorem Memory.wfFrom_mono {lo lo' : Nat} {m : Memory} (hle : lo' ≤ lo) (h : m.wfFrom lo = true) :
    m.wfFrom lo' = true := by
  cases m with
  | nil => rfl
  | cons p m =>
    obtain ⟨b, w⟩ := p
    simp only [Memory.wfFrom, Bool.and_eq_true, decide_eq_true_eq] at h ⊢
    exact ⟨by omega, h.2⟩

/-- A write keeps the canonical form. -/
theorem Memory.wf_write {m : Memory} {a : Nat} (ha : a < memSize) (v : Byte) (h : m.wf = true) :
    (m.write a v).wf = true := by
  suffices ∀ lo, lo ≤ a → m.wfFrom lo = true → (m.write a v).wfFrom lo = true from this 0 (Nat.zero_le a) h
  clear h
  induction m with
  | nil =>
    intro lo hlo _
    unfold Memory.write
    split
    · rfl
    · rename_i hv
      simp only [Memory.wfFrom, Bool.and_eq_true, decide_eq_true_eq]
      exact ⟨hlo, ha, hv, trivial⟩
  | cons p m ih =>
    obtain ⟨b, w⟩ := p
    intro lo hlo h
    have hall := h
    simp only [Memory.wfFrom, Bool.and_eq_true, decide_eq_true_eq] at h
    obtain ⟨h1, h2, h3, h4⟩ := h
    unfold Memory.write
    split
    · split
      · exact hall
      · rename_i hab hv
        simp only [Memory.wfFrom, Bool.and_eq_true, decide_eq_true_eq]
        exact ⟨hlo, ha, hv, by omega, h2, h3, h4⟩
    · split
      · rename_i hab
        subst hab
        split
        · exact Memory.wfFrom_mono (by omega) h4
        · rename_i hv
          simp only [Memory.wfFrom, Bool.and_eq_true, decide_eq_true_eq]
          exact ⟨hlo, ha, hv, h4⟩
      · simp only [Memory.wfFrom, Bool.and_eq_true, decide_eq_true_eq]
        exact ⟨h1, h2, h3, ih _ (by omega) h4⟩

/-- Writing an image that fits keeps the canonical form. -/
theorem Memory.wf_writeAll {m : Memory} {a : Nat} {bs : List Byte} (ha : a + bs.length ≤ memSize)
    (h : m.wf = true) : (m.writeAll a bs).wf = true := by
  induction bs generalizing m a with
  | nil => exact h
  | cons b bs ih =>
    simp only [List.length_cons] at ha
    exact ih (by omega) (Memory.wf_write (by omega) b h)

/-- Writing an image leaves every address outside it alone. -/
theorem Memory.read_writeAll_other {bs : List Byte} {a b : Nat} (h : b < a ∨ a + bs.length ≤ b) (m : Memory) :
    (m.writeAll a bs).read b = m.read b := by
  induction bs generalizing m a with
  | nil => rfl
  | cons v bs ih =>
    simp only [List.length_cons] at h
    change ((m.write a v).writeAll (a + 1) bs).read b = _
    rw [ih (by omega), Memory.read_write_other (by omega)]

/-- Bytes stored in order leave every other address alone. -/
theorem Memory.read_store_other {l : List (Nat × Byte)} {a : Nat} (h : ∀ p ∈ l, p.1 ≠ a) (m : Memory) :
    (m.store l).read a = m.read a := by
  induction l generalizing m with
  | nil => rfl
  | cons p l ih =>
    change ((m.write p.1 p.2).store l).read a = _
    rw [ih (fun q hq => h q (List.mem_cons_of_mem _ hq)), Memory.read_write_other (h p List.mem_cons_self).symm]

/-- Bytes stored at addresses that exist keep the canonical form. -/
theorem Memory.wf_store {l : List (Nat × Byte)} (hl : ∀ p ∈ l, p.1 < memSize) {m : Memory} (h : m.wf = true) :
    (m.store l).wf = true := by
  induction l generalizing m with
  | nil => exact h
  | cons p l ih =>
    exact ih (fun q hq => hl q (List.mem_cons_of_mem _ hq)) (Memory.wf_write (hl p List.mem_cons_self) _ h)

/-- The bytes emitted by stores in sequence. -/
theorem emitted_append (c : Config) (l l' : List (Nat × Byte)) :
    emitted c (l ++ l') = emitted c l ++ emitted c l' := by
  simp only [emitted, List.filter_append, List.map_append]

/-- Reset's memory is in the canonical form. -/
theorem reset_mem_wf : State.reset.mem.wf = true := rfl

end Sys2Proof.Machine
end

