-- ==== Sys2Proof/Laws/Ops.lean ====
section
/-! SUPPORT. For each shared operation, what it answers and everything it can do when it answers; the provers cite these
instead of unfolding the operations. -/

namespace Sys2Proof.Machine

/-! ## Words and addresses -/

theorem lt_memSize {n : Nat} (h : n < 65536) : n < memSize := h

theorem lt_of_memSize {n : Nat} (h : n < memSize) : n < 65536 := h

/-- The cursor `len` bytes after `pc`, as a word. -/
@[simp] theorem ofNat_toNat_add (w : Word) (len : Nat) :
    BitVec.ofNat 16 (w.toNat + len) = w + BitVec.ofNat 16 len := by
  rw [BitVec.ofNat_add, BitVec.ofNat_toNat, BitVec.setWidth_eq]

/-- `sp - 2` as a number, when a push is allowed. -/
theorem toNat_sub_two {w : Word} (h : 2 ≤ w.toNat) : (w - 2).toNat = w.toNat - 2 := by
  have := w.isLt
  rw [BitVec.toNat_sub]
  change (2 ^ 16 - 2 + w.toNat) % 2 ^ 16 = _
  omega

/-- `sp - 4` as a number, when two pushes are allowed. -/
theorem toNat_sub_four {w : Word} (h : 4 ≤ w.toNat) : (w - 4).toNat = w.toNat - 4 := by
  have := w.isLt
  rw [BitVec.toNat_sub]
  change (2 ^ 16 - 4 + w.toNat) % 2 ^ 16 = _
  omega

/-- `sp + 2` as a number, when a pull is allowed. -/
theorem toNat_add_two {w : Word} (h : w.toNat + 2 < memSize) : (w + 2).toNat = w.toNat + 2 := by
  rw [BitVec.toNat_add]
  exact Nat.mod_eq_of_lt h

@[simp] theorem sub_two_sub_two (w : Word) : w - 2 - 2 = w - 4 := by
  rw [BitVec.sub_sub]
  rfl

@[simp] theorem add_two_add_two (w : Word) : w + 2 + 2 = w + 4 := by
  rw [BitVec.add_assoc]
  rfl

@[simp] theorem wordOf_hi_lo (v : Word) : wordOf (hiByte v) (loByte v) = v := by
  simp only [wordOf, hiByte, loByte]
  ext i hi
  simp only [BitVec.getElem_append, BitVec.getElem_extractLsb']
  split
  · simp_all
  · simp only [show 8 + (i - 8) = i by omega]
    rfl

@[simp] theorem hiByte_wordOf (h l : Byte) : hiByte (wordOf h l) = h := by
  apply BitVec.eq_of_getLsbD_eq
  intro i hi
  have : ¬ 8 + i < 8 := by omega
  simp only [wordOf, hiByte, BitVec.getLsbD_extractLsb', BitVec.getLsbD_append, this, hi, decide_true, Bool.true_and,
    if_false, Nat.add_sub_cancel_left]

@[simp] theorem loByte_wordOf (h l : Byte) : loByte (wordOf h l) = l := by
  apply BitVec.eq_of_getLsbD_eq
  intro i hi
  simp only [wordOf, loByte, BitVec.getLsbD_extractLsb', BitVec.getLsbD_append, hi, decide_true, Bool.true_and,
    if_true, Nat.zero_add]

/-- PHA's word: a zero byte above `a` (spec/44_stack_flags_system.md R200). -/
theorem setWidth_eq_wordOf (a : Byte) : a.setWidth 16 = wordOf 0 a := by revert a; decide

/-- Two ways to write Z and N of a result. -/
theorem Flags.zn_eq_ofResult (f : Flags) (r : Byte) : f.zn r = f.ofResult r := by
  have h : r.getLsbD 7 = decide (128 ≤ r.toNat) := by revert r; decide
  simp only [Flags.zn, Flags.ofResult, h]

/-! ## Sequences of updates -/

@[simp] theorem State.debit_debit (m n : Nat) (s : State) : (s.debit m).debit n = s.debit (m + n) := by
  simp only [State.debit]
  congr 1
  push_cast
  omega

@[simp] theorem State.debit_zero (s : State) : s.debit 0 = s := by simp [State.debit]

/-- The state with `pc` moved past an instruction of `len` bytes. -/
def State.advance (len : Nat) (s : State) : State := s.setPc (s.pc + BitVec.ofNat 16 len)

@[simp] theorem State.advance_pc (len : Nat) (s : State) : (s.advance len).pc = s.pc + BitVec.ofNat 16 len := rfl
@[simp] theorem State.advance_a (len : Nat) (s : State) : (s.advance len).a = s.a := rfl
@[simp] theorem State.advance_x (len : Nat) (s : State) : (s.advance len).x = s.x := rfl
@[simp] theorem State.advance_y (len : Nat) (s : State) : (s.advance len).y = s.y := rfl
@[simp] theorem State.advance_sp (len : Nat) (s : State) : (s.advance len).sp = s.sp := rfl
@[simp] theorem State.advance_cfg (len : Nat) (s : State) : (s.advance len).cfg = s.cfg := rfl
@[simp] theorem State.advance_flags (len : Nat) (s : State) : (s.advance len).flags = s.flags := rfl
@[simp] theorem State.advance_mem (len : Nat) (s : State) : (s.advance len).mem = s.mem := rfl
@[simp] theorem State.advance_budget (len : Nat) (s : State) : (s.advance len).budget = s.budget := rfl
@[simp] theorem State.advance_fault (len : Nat) (s : State) : (s.advance len).fault = s.fault := rfl
@[simp] theorem State.advance_engineState (len : Nat) (s : State) : (s.advance len).engineState = s.engineState := rfl
@[simp] theorem State.advance_outLog (len : Nat) (s : State) : (s.advance len).outLog = s.outLog := rfl

/-- The effective address looks at the index registers and the configuration only. -/
@[simp] theorem AddrMode.ea_debit (mode : AddrMode) (n : Nat) (s : State) : mode.ea (s.debit n) = mode.ea s := by
  cases mode <;> rfl

/-- One stored byte, as a list of stores. -/
theorem State.putByte_eq_stored (addr : Nat) (v : Byte) (s : State) : s.putByte addr v = s.stored [(addr, v)] := by
  by_cases h : addr = s.cfg.outAddr.toNat <;>
    simp [State.putByte, State.stored, Memory.store, emitted, h]

/-- Stores in sequence. -/
theorem State.stored_stored (b c : List (Nat × Byte)) (s : State) : (s.stored b).stored c = s.stored (b ++ c) := by
  simp only [State.stored, Memory.store, emitted, List.foldl_append, List.filter_append, List.map_append,
    List.append_assoc]
  rfl

/-! ## Sequencing and completing -/

theorem Res.bind_ok_iff {α β : Type} {r : Res α} {k : α → State → Res β} {w : β} {t : State} :
    r.bind k = .ok w t ↔ ∃ v u, r = .ok v u ∧ k v u = .ok w t := by
  cases r <;> simp [Res.bind]

@[simp] theorem Res.bind_ok {α β : Type} (v : α) (s : State) (k : α → State → Res β) :
    (Res.ok v s).bind k = k v s := rfl

@[simp] theorem Res.bind_oob {α β : Type} (addr : Int) (s : State) (k : α → State → Res β) :
    (Res.oob addr s).bind k = .oob addr s := rfl

/-- Completing answers a next state just when the cursor is in the address space. -/
theorem complete_next_iff {cur : Nat} {s t : State} :
    complete cur s = .next t ↔ cur < memSize ∧ t = s.setPc (BitVec.ofNat 16 cur) := by
  unfold complete raiseFault
  split <;> simp_all [eq_comm]

theorem complete_of_lt {cur : Nat} (h : cur < memSize) (s : State) :
    complete cur s = .next (s.setPc (BitVec.ofNat 16 cur)) := if_pos h

/-- An instruction answers a next state just when its primitives answer a cursor in the address space. -/
theorem Res.finish_next_iff {r : Res Nat} {t : State} :
    r.finish = .next t ↔ ∃ cur u, r = .ok cur u ∧ cur < memSize ∧ t = u.setPc (BitVec.ofNat 16 cur) := by
  cases r <;> simp [Res.finish, complete_next_iff, raiseFault]

@[simp] theorem Res.finish_ok (cur : Nat) (s : State) : (Res.ok cur s).finish = complete cur s := rfl
@[simp] theorem Res.finish_oob (addr : Int) (s : State) : (Res.oob addr s).finish = raiseFault addr s := rfl

/-- An instruction that ends in sequence answers a next state just when the next instruction's address exists. -/
theorem sequential_finish_next_iff {len : Nat} {s t : State} :
    (sequential len s).finish = .next t ↔ s.pc.toNat + len < memSize ∧ t = s.advance len := by
  simp [sequential, complete_next_iff, State.advance]

/-! ## Memory access -/

theorem memRead_of_lt {addr : Nat} (h : addr < memSize) (s : State) :
    memRead addr s = .ok (s.mem.read addr) (s.debit 1) := if_pos h

theorem memRead_ok_iff {addr : Nat} {s t : State} {v : Byte} :
    memRead addr s = .ok v t ↔ addr < memSize ∧ v = s.mem.read addr ∧ t = s.debit 1 := by
  unfold memRead
  split <;> simp_all [eq_comm]

theorem memWrite_of_lt {addr : Nat} (h : addr < memSize) (v : Byte) (s : State) :
    memWrite addr v s = .ok () ((s.stored [(addr, v)]).debit 1) := by
  rw [memWrite, if_pos h, State.putByte_eq_stored]

theorem memWrite_ok_iff {addr : Nat} {v : Byte} {s t : State} {u : Unit} :
    memWrite addr v s = .ok u t ↔ addr < memSize ∧ t = (s.stored [(addr, v)]).debit 1 := by
  rw [← State.putByte_eq_stored]
  unfold memWrite
  split <;> simp_all [eq_comm]

theorem stored_debit (b : List (Nat × Byte)) (n : Nat) (s : State) :
    (s.debit n).stored b = (s.stored b).debit n := rfl

theorem readWord_ok_iff {addr : Nat} {s t : State} {v : Word} :
    readWord addr s = .ok v t ↔
      addr + 1 < memSize ∧ v = wordOf (s.mem.read addr) (s.mem.read (addr + 1)) ∧ t = s.debit 2 := by
  simp only [readWord, Res.bind_ok_iff, memRead_ok_iff]
  constructor
  · rintro ⟨hi, u, ⟨h1, rfl, rfl⟩, lo, w, ⟨h2, rfl, rfl⟩, h⟩
    simp at h
    exact ⟨h2, h.1.symm, h.2.symm⟩
  · rintro ⟨h, rfl, rfl⟩
    exact ⟨_, _, ⟨by omega, rfl, rfl⟩, _, _, ⟨h, rfl, rfl⟩, by simp⟩

theorem readWord_of_lt {addr : Nat} (h : addr + 1 < memSize) (s : State) :
    readWord addr s = .ok (wordOf (s.mem.read addr) (s.mem.read (addr + 1))) (s.debit 2) :=
  readWord_ok_iff.2 ⟨h, rfl, rfl⟩

theorem writeWord_ok_iff {addr : Nat} {v : Word} {s t : State} {u : Unit} :
    writeWord addr v s = .ok u t ↔ addr + 1 < memSize ∧ t = (s.stored (wordAt addr v)).debit 2 := by
  simp only [writeWord, Res.bind_ok_iff, memWrite_ok_iff]
  constructor
  · rintro ⟨_, w, ⟨h1, rfl⟩, h2, rfl⟩
    exact ⟨h2, by simp [stored_debit, State.stored_stored, wordAt]⟩
  · rintro ⟨h, rfl⟩
    exact ⟨(), _, ⟨by omega, rfl⟩, h, by simp [stored_debit, State.stored_stored, wordAt]⟩

theorem writeWord_of_lt {addr : Nat} (h : addr + 1 < memSize) (v : Word) (s : State) :
    writeWord addr v s = .ok () ((s.stored (wordAt addr v)).debit 2) := writeWord_ok_iff.2 ⟨h, rfl⟩

/-! ## The stack -/

/-- A push answers just when `sp` is at least 2: the word is stored at `sp - 2`, and `sp` moves there. -/
theorem push16_ok_iff {v : Word} {s t : State} {u : Unit} :
    push16 v s = .ok u t ↔
      2 ≤ s.sp.toNat ∧ t = ((s.stored (wordAt (s.sp - 2).toNat v)).setSp (s.sp - 2)).debit 2 := by
  unfold push16
  split
  · simp; omega
  · rename_i h
    have h2 : 2 ≤ s.sp.toNat := by omega
    have hs := toNat_sub_two h2
    have := s.sp.isLt
    rw [writeWord_ok_iff]
    constructor
    · rintro ⟨_, rfl⟩; exact ⟨h2, rfl⟩
    · rintro ⟨_, rfl⟩; exact ⟨lt_memSize (by omega), rfl⟩

theorem push16_of_le {s : State} (h : 2 ≤ s.sp.toNat) (v : Word) :
    push16 v s = .ok () (((s.stored (wordAt (s.sp - 2).toNat v)).setSp (s.sp - 2)).debit 2) :=
  push16_ok_iff.2 ⟨h, rfl⟩

/-- A push with `sp` below 2 stores nothing (spec/20_memory.md R57). -/
theorem push16_of_lt {s : State} (h : s.sp.toNat < 2) (v : Word) : push16 v s = .oob ((s.sp.toNat : Int) - 2) s :=
  if_pos h

/-- The two stores of a push, addressed from `sp` as it was. -/
theorem wordAt_sub_two {sp : Word} (h : 2 ≤ sp.toNat) (v : Word) :
    wordAt (sp - 2).toNat v = [(sp.toNat - 2, hiByte v), (sp.toNat - 1, loByte v)] := by
  rw [toNat_sub_two h, wordAt, show sp.toNat - 2 + 1 = sp.toNat - 1 by omega]

/-- A pull answers just when `sp + 2` exists: it reads the word at `sp`, and `sp` moves past it. -/
theorem pull16_ok_iff {s t : State} {v : Word} :
    pull16 s = .ok v t ↔
      s.sp.toNat + 2 < memSize ∧ v = wordOf (s.mem.read s.sp.toNat) (s.mem.read (s.sp.toNat + 1)) ∧
        t = (s.setSp (s.sp + 2)).debit 2 := by
  simp only [pull16, Res.bind_ok_iff, readWord_ok_iff]
  constructor
  · rintro ⟨w, u, ⟨_, rfl, rfl⟩, h⟩
    change (if 0xFFFF < s.sp.toNat + 2 then Res.oob _ _ else Res.ok _ _) = _ at h
    split at h
    · cases h
    · cases h
      exact ⟨lt_memSize (by omega), rfl, rfl⟩
  · rintro ⟨h, rfl, rfl⟩
    have h := lt_of_memSize h
    refine ⟨_, _, ⟨lt_memSize (by omega), rfl, rfl⟩, ?_⟩
    change (if 0xFFFF < s.sp.toNat + 2 then Res.oob _ _ else Res.ok _ _) = _
    rw [if_neg (by omega)]
    rfl

theorem pull16_of_lt {s : State} (h : s.sp.toNat + 2 < memSize) :
    pull16 s = .ok (wordOf (s.mem.read s.sp.toNat) (s.mem.read (s.sp.toNat + 1))) ((s.setSp (s.sp + 2)).debit 2) :=
  pull16_ok_iff.2 ⟨h, rfl, rfl⟩

/-! ## Interrupts -/

/-- The state after the four pushed bytes and the vector read of an interrupt entry. -/
def State.pushedFrame (ret : Nat) (s : State) : State :=
  ((((((s.stored (wordAt (s.sp - 2).toNat (BitVec.ofNat 16 ret))).setSp (s.sp - 2)).debit 2).stored
    (wordAt (s.sp - 2 - 2).toNat (packFlags s.flags))).setSp (s.sp - 2 - 2)).debit 2).setFlags { s.flags with b := true }

theorem entered_pc_eq (slot : Slot) (ret : Nat) (s : State) :
    (s.entered slot ret).pc = wordOf ((s.pushedFrame ret).mem.read (vecAddr s.cfg slot).toNat)
      ((s.pushedFrame ret).mem.read ((vecAddr s.cfg slot).toNat + 1)) := by
  simp only [State.pushedFrame, sub_two_sub_two]
  rfl

theorem entered_setPc_eq (slot : Slot) (ret : Nat) (s : State) :
    (s.entered slot ret).setPc s.pc = (s.pushedFrame ret).debit 2 := by
  simp only [State.pushedFrame, sub_two_sub_two, State.entered, State.setPc, State.debit, State.setFlags, State.setSp,
    State.vectored, State.stored, entryFrame, Memory.store, emitted, List.foldl_append, List.filter_append,
    List.map_append, List.append_assoc]
  congr 1
  push_cast
  omega

/-- The entry sequence answers a handler's address just when the return address exists, two words can be pushed and the
vector has two bytes; it leaves the state of spec/60_exceptions.md R236 but for `pc`. -/
theorem trapEntry_ok_iff {slot : Slot} {ret cur : Nat} {s t : State} :
    trapEntry slot ret s = .ok cur t ↔
      ret < memSize ∧ 4 ≤ s.sp.toNat ∧ (vecAddr s.cfg slot).toNat + 1 < memSize ∧
        cur = (s.entered slot ret).pc.toNat ∧ t = (s.entered slot ret).setPc s.pc := by
  have hsp := s.sp.isLt
  unfold trapEntry
  split
  · constructor
    · intro h; cases h
    · rintro ⟨h, _⟩; omega
  · rename_i hret
    simp only [Res.bind_ok_iff, push16_ok_iff, readWord_ok_iff]
    constructor
    · rintro ⟨_, u, ⟨h1, rfl⟩, _, w, ⟨h2, rfl⟩, hd, x, ⟨h3, rfl, rfl⟩, h⟩
      change 2 ≤ (s.sp - 2).toNat at h2
      rw [toNat_sub_two h1] at h2
      cases h
      refine ⟨by omega, by omega, h3, ?_, ?_⟩
      · exact congrArg BitVec.toNat (entered_pc_eq slot ret s).symm
      · exact (entered_setPc_eq slot ret s).symm
    · rintro ⟨_, h4, hv, rfl, rfl⟩
      have hs := toNat_sub_two (w := s.sp) (by omega)
      refine ⟨(), _, ⟨by omega, rfl⟩, (), _, ⟨?_, rfl⟩, _, _, ⟨hv, rfl, rfl⟩, ?_⟩
      · change 2 ≤ (s.sp - 2).toNat
        omega
      · simp only [entered_pc_eq, entered_setPc_eq, State.pushedFrame, State.debit_sp, State.setSp_sp, State.debit_flags,
          State.setSp_flags, State.stored_flags, State.debit_cfg, State.setSp_cfg, State.stored_cfg]

/-- The entry sequence with no room for the return address: nothing is pushed. -/
theorem trapEntry_of_lt_two {ret : Nat} {s : State} (hr : ret < memSize) (h : s.sp.toNat < 2) (slot : Slot) :
    trapEntry slot ret s = .oob ((s.sp.toNat : Int) - 2) s := by
  rw [trapEntry, if_neg (Nat.not_le.2 hr), push16_of_lt h, Res.bind_oob]

/-- The entry sequence with room for the return address and none for the flags: the return address is pushed. -/
theorem trapEntry_of_lt_four {ret : Nat} {s : State} (hr : ret < memSize) (h2 : 2 ≤ s.sp.toNat) (h4 : s.sp.toNat < 4)
    (slot : Slot) :
    trapEntry slot ret s = .oob ((s.sp.toNat : Int) - 4)
      (((s.stored (wordAt (s.sp - 2).toNat (BitVec.ofNat 16 ret))).setSp (s.sp - 2)).debit 2) := by
  have hs := toNat_sub_two h2
  have hlt : (s.sp - 2).toNat < 2 := by omega
  rw [trapEntry, if_neg (Nat.not_le.2 hr), push16_of_le h2, Res.bind_ok, push16_of_lt hlt, Res.bind_oob]
  congr 1
  change ((s.sp - 2).toNat : Int) - 2 = _
  omega

/-- The invalid-opcode entry is the entry sequence after the record byte is stored, whatever it answers: `INVOP_ADDR` is
always in the address space. -/
theorem invalidOpcode_eq (op : Byte) (ret : Nat) (s : State) :
    invalidOpcode op ret s = trapEntry .invalid ret ((s.stored [(s.cfg.invopAddr.toNat, op)]).debit 1) := by
  rw [invalidOpcode, memWrite_of_lt (lt_memSize s.cfg.invopAddr.isLt), Res.bind_ok]

theorem invalidOpcode_ok_iff {op : Byte} {ret cur : Nat} {s t : State} :
    invalidOpcode op ret s = .ok cur t ↔
      trapEntry .invalid ret ((s.stored [(s.cfg.invopAddr.toNat, op)]).debit 1) = .ok cur t := by
  rw [invalidOpcode_eq]

theorem popped_twice_eq (f : Flags) (s : State) :
    ((((((s.setSp (s.sp + 2)).debit 2).setFlags f).setSp (s.sp + 2 + 2)).debit 2)) =
      (((s.setFlags f).setSp (s.sp + 4)).debit 4) := by
  simp only [State.setFlags, State.setSp, State.debit, add_two_add_two]
  congr 1
  push_cast
  omega

/-- The return answers just when two words can be pulled. -/
theorem interruptReturn_ok_iff {cur : Nat} {s t : State} :
    interruptReturn s = .ok cur t ↔
      s.sp.toNat + 4 < memSize ∧
        cur = (wordOf (s.mem.read (s.sp.toNat + 2)) (s.mem.read (s.sp.toNat + 3))).toNat ∧
          t = ((s.setFlags (unpackFlags (wordOf (s.mem.read s.sp.toNat) (s.mem.read (s.sp.toNat + 1))))).setSp
            (s.sp + 4)).debit 4 := by
  simp only [interruptReturn, Res.bind_ok_iff, pull16_ok_iff]
  constructor
  · rintro ⟨w, u, ⟨h1, rfl, rfl⟩, w', u', ⟨h2, rfl, rfl⟩, h⟩
    change (s.sp + 2).toNat + 2 < memSize at h2
    rw [toNat_add_two h1] at h2
    cases h
    refine ⟨h2, ?_, ?_⟩
    · change (wordOf (s.mem.read (s.sp + 2).toNat) (s.mem.read ((s.sp + 2).toNat + 1))).toNat = _
      rw [toNat_add_two h1]
    · exact popped_twice_eq _ s
  · rintro ⟨h4, rfl, rfl⟩
    have h4 := lt_of_memSize h4
    have hs := toNat_add_two (w := s.sp) (lt_memSize (by omega))
    refine ⟨_, _, ⟨lt_memSize (by omega), rfl, rfl⟩, _, _, ⟨?_, rfl, rfl⟩, ?_⟩
    · change (s.sp + 2).toNat + 2 < memSize
      exact lt_memSize (by omega)
    · change Res.ok (wordOf (s.mem.read (s.sp + 2).toNat) (s.mem.read ((s.sp + 2).toNat + 1))).toNat _ = _
      rw [hs]
      exact congrArg _ (popped_twice_eq _ s)

/-! ## Operands -/

/-- The value of an operand (spec/40_execution.md R110). -/
def Operand.value (s : State) : Operand → Byte
  | .immediate m => m
  | .memory mode => s.mem.read (mode.ea s)

/-- The units an operand costs after the instruction's fetch (spec/40_execution.md R104, R105). -/
def Operand.units : Operand → Nat
  | .immediate _ => 0
  | .memory mode => mode.extra + 1

/-- An operand can be read: its address exists. -/
def Operand.readable (s : State) : Operand → Prop
  | .immediate _ => True
  | .memory mode => mode.ea s < memSize

/-- Only the absolute indexed modes can leave the address space (spec/60_exceptions.md R243). -/
theorem zeroPageIndexed_lt (c : Config) (z i : Byte) : zeroPageIndexed c z i < 511 := by
  have := z.isLt
  have := i.isLt
  unfold zeroPageIndexed
  split <;> omega

theorem operand_ok_iff {o : Operand} {s t : State} {m : Byte} :
    operand o s = .ok m t ↔ o.readable s ∧ m = o.value s ∧ t = s.debit o.units := by
  cases o with
  | immediate v => simp [operand, Operand.readable, Operand.value, Operand.units, eq_comm]
  | memory mode =>
    simp [operand, effective, memRead_ok_iff, Operand.readable, Operand.value, Operand.units]

end Sys2Proof.Machine
end

