-- ==== Sys2Proof/Laws/Meanings.lean ====
section
/-! SUPPORT. For each shared meaning, when it answers a next state and which one: the inversion lemmas every statement about
an instruction is proved from. -/

namespace Sys2Proof.Machine

@[simp] theorem Operand.readable_memory (mode : AddrMode) (s : State) :
    (Operand.memory mode).readable s ↔ mode.ea s < memSize := Iff.rfl

@[simp] theorem Operand.readable_immediate (m : Byte) (s : State) : (Operand.immediate m).readable s ↔ True := Iff.rfl

theorem loadInto_next_iff {set : Byte → State → State} (hset : ∀ v u, (set v u).pc = u.pc) {o : Operand} {s t : State} :
    loadInto set o s = .next t ↔
      o.readable s ∧ s.pc.toNat + o.length < memSize ∧
        t = ((set (o.value s) (s.debit o.units)).setZN (o.value s)).advance o.length := by
  simp only [loadInto, Res.finish_next_iff, Res.bind_ok_iff, operand_ok_iff, sequential]
  constructor
  · rintro ⟨cur, u, ⟨m, w, ⟨hr, rfl, rfl⟩, h⟩, hc, rfl⟩
    cases h
    simp only [State.setZN_pc, hset, State.debit_pc, ofNat_toNat_add] at hc ⊢
    exact ⟨hr, hc, by rw [State.advance, State.setZN_pc, hset, State.debit_pc]⟩
  · rintro ⟨hr, hc, rfl⟩
    refine ⟨_, _, ⟨_, _, ⟨hr, rfl, rfl⟩, rfl⟩, ?_, ?_⟩
    · simpa only [State.setZN_pc, hset, State.debit_pc] using hc
    · simp only [State.advance, ofNat_toNat_add]

theorem storeFrom_next_iff {v : Byte} {mode : AddrMode} {s t : State} :
    storeFrom v mode s = .next t ↔
      mode.ea s < memSize ∧ s.pc.toNat + mode.length < memSize ∧
        t = ((s.stored [(mode.ea s, v)]).debit (mode.extra + 1)).advance mode.length := by
  simp only [storeFrom, effective, Res.finish_next_iff, Res.bind_ok, Res.bind_ok_iff, memWrite_ok_iff, sequential]
  constructor
  · rintro ⟨cur, u, ⟨_, w, ⟨hr, rfl⟩, h⟩, hc, rfl⟩
    cases h
    exact ⟨hr, hc, by simp only [stored_debit, State.debit_debit, State.advance, ofNat_toNat_add]⟩
  · rintro ⟨hr, hc, rfl⟩
    exact ⟨_, _, ⟨(), _, ⟨hr, rfl⟩, rfl⟩, hc, by simp only [stored_debit, State.debit_debit, State.advance, ofNat_toNat_add]⟩

theorem addWithCarry_next_iff {o : Operand} {s t : State} :
    addWithCarry o s = .next t ↔
      o.readable s ∧ s.pc.toNat + o.length < memSize ∧
        t = (((s.setFlags (s.flags.adc s.a (o.value s))).setA (adcByte s.a (o.value s) s.flags.c)).debit
          o.units).advance o.length := by
  simp only [addWithCarry, Res.finish_next_iff, Res.bind_ok_iff, operand_ok_iff, sequential]
  constructor
  · rintro ⟨cur, u, ⟨m, w, ⟨hr, rfl, rfl⟩, h⟩, hc, rfl⟩
    cases h
    exact ⟨hr, hc, by simp only [ofNat_toNat_add]; rfl⟩
  · rintro ⟨hr, hc, rfl⟩
    exact ⟨_, _, ⟨_, _, ⟨hr, rfl, rfl⟩, rfl⟩, hc, by simp only [ofNat_toNat_add]; rfl⟩

theorem bitwise_next_iff {f : Byte → Byte → Byte} {o : Operand} {s t : State} :
    bitwise f o s = .next t ↔
      o.readable s ∧ s.pc.toNat + o.length < memSize ∧
        t = (((s.setA (f s.a (o.value s))).setZN (f s.a (o.value s))).debit o.units).advance o.length := by
  simp only [bitwise, Res.finish_next_iff, Res.bind_ok_iff, operand_ok_iff, sequential]
  constructor
  · rintro ⟨cur, u, ⟨m, w, ⟨hr, rfl, rfl⟩, h⟩, hc, rfl⟩
    cases h
    exact ⟨hr, hc, by simp only [ofNat_toNat_add]; rfl⟩
  · rintro ⟨hr, hc, rfl⟩
    exact ⟨_, _, ⟨_, _, ⟨hr, rfl, rfl⟩, rfl⟩, hc, by simp only [ofNat_toNat_add]; rfl⟩

theorem compareWith_next_iff {reg : Byte} {o : Operand} {s t : State} :
    compareWith reg o s = .next t ↔
      o.readable s ∧ s.pc.toNat + o.length < memSize ∧
        t = ((s.setFlags (s.flags.compare reg (o.value s))).debit o.units).advance o.length := by
  simp only [compareWith, Res.finish_next_iff, Res.bind_ok_iff, operand_ok_iff, sequential]
  constructor
  · rintro ⟨cur, u, ⟨m, w, ⟨hr, rfl, rfl⟩, h⟩, hc, rfl⟩
    cases h
    exact ⟨hr, hc, by simp only [ofNat_toNat_add]; rfl⟩
  · rintro ⟨hr, hc, rfl⟩
    exact ⟨_, _, ⟨_, _, ⟨hr, rfl, rfl⟩, rfl⟩, hc, by simp only [ofNat_toNat_add]; rfl⟩

theorem readModifyWrite_next_iff {f : Byte → Byte} {mode : AddrMode} {s t : State} :
    readModifyWrite f mode s = .next t ↔
      mode.ea s < memSize ∧ s.pc.toNat + mode.length < memSize ∧
        t = (((s.stored [(mode.ea s, f (s.mem.read (mode.ea s)))]).setZN (f (s.mem.read (mode.ea s)))).debit
          (mode.extra + 2)).advance mode.length := by
  simp only [readModifyWrite, effective, Res.finish_next_iff, Res.bind_ok, Res.bind_ok_iff, memRead_ok_iff,
    memWrite_ok_iff, sequential]
  have key : ∀ v, ((((s.debit mode.extra).debit 1).stored [(mode.ea s, v)]).debit 1).setZN v =
      ((s.stored [(mode.ea s, v)]).setZN v).debit (mode.extra + 2) := by
    intro v
    rw [stored_debit, stored_debit, State.debit_debit, State.debit_debit]
    rfl
  constructor
  · rintro ⟨cur, u, ⟨m, w, ⟨hr, rfl, rfl⟩, _, x, ⟨_, rfl⟩, h⟩, hc, rfl⟩
    cases h
    refine ⟨hr, hc, ?_⟩
    simp only [State.debit_mem, key, State.advance, ofNat_toNat_add]
  · rintro ⟨hr, hc, rfl⟩
    refine ⟨_, _, ⟨_, _, ⟨hr, rfl, rfl⟩, (), _, ⟨hr, rfl⟩, rfl⟩, hc, ?_⟩
    simp only [State.debit_mem, key, State.advance, ofNat_toNat_add]

theorem stepRegister_next_iff {set : Byte → State → State} (hset : ∀ v u, (set v u).pc = u.pc) {v : Byte}
    {s t : State} :
    stepRegister set v s = .next t ↔
      s.pc.toNat + 1 < memSize ∧ t = ((set v s).setZN v).advance 1 := by
  simp only [stepRegister, sequential_finish_next_iff, State.setZN_pc, hset]

theorem setFlagsOnly_next_iff {f : Flags} {s t : State} :
    setFlagsOnly f s = .next t ↔ s.pc.toNat + 1 < memSize ∧ t = (s.setFlags f).advance 1 := by
  simp only [setFlagsOnly, sequential_finish_next_iff, State.setFlags_pc]

/-- The target of a taken branch (spec/40_execution.md R118). -/
def branchTarget (r : Byte) (s : State) : Int := (s.pc.toNat + 2 : Nat) + r.toInt

theorem branchOn_next_iff {taken : Bool} {r : Byte} {s t : State} :
    branchOn taken r s = .next t ↔
      (taken = false ∧ s.pc.toNat + 2 < memSize ∧ t = s.advance 2) ∨
        (taken = true ∧ 0 ≤ branchTarget r s ∧ branchTarget r s ≤ 0xFFFF ∧
          t = s.setPc (BitVec.ofNat 16 (branchTarget r s).toNat)) := by
  cases taken with
  | false => simp [branchOn, sequential_finish_next_iff]
  | true =>
    change (if branchTarget r s < 0 ∨ 0xFFFF < branchTarget r s then raiseFault (branchTarget r s) s
      else complete (branchTarget r s).toNat s) = _ ↔ _
    split
    · rename_i h
      simp [raiseFault]
      omega
    · rename_i h
      rw [complete_next_iff]
      constructor
      · rintro ⟨_, rfl⟩; exact .inr ⟨rfl, by omega, by omega, rfl⟩
      · rintro (⟨h, _⟩ | ⟨_, _, _, rfl⟩)
        · cases h
        · exact ⟨lt_memSize (by omega), rfl⟩

theorem pushWord_next_iff {v : Word} {s t : State} :
    pushWord v s = .next t ↔
      2 ≤ s.sp.toNat ∧ s.pc.toNat + 1 < memSize ∧
        t = (((s.stored (wordAt (s.sp - 2).toNat v)).setSp (s.sp - 2)).debit 2).advance 1 := by
  simp only [pushWord, Res.finish_next_iff, Res.bind_ok_iff, push16_ok_iff, sequential]
  constructor
  · rintro ⟨cur, u, ⟨_, w, ⟨hr, rfl⟩, h⟩, hc, rfl⟩
    cases h
    exact ⟨hr, hc, by simp only [State.advance, ofNat_toNat_add]⟩
  · rintro ⟨hr, hc, rfl⟩
    exact ⟨_, _, ⟨(), _, ⟨hr, rfl⟩, rfl⟩, hc, by simp only [State.advance, ofNat_toNat_add]⟩

/-- The word a pull reads (spec/20_memory.md R57). -/
def topWord (s : State) : Word := wordOf (s.mem.read s.sp.toNat) (s.mem.read (s.sp.toNat + 1))

theorem pullWord_next_iff {use : Word → State → State} (huse : ∀ v u, (use v u).pc = u.pc) {s t : State} :
    pullWord use s = .next t ↔
      s.sp.toNat + 2 < memSize ∧ s.pc.toNat + 1 < memSize ∧
        t = (use (topWord s) ((s.setSp (s.sp + 2)).debit 2)).advance 1 := by
  simp only [pullWord, Res.finish_next_iff, Res.bind_ok_iff, pull16_ok_iff, sequential]
  constructor
  · rintro ⟨cur, u, ⟨v, w, ⟨hr, rfl, rfl⟩, h⟩, hc, rfl⟩
    cases h
    simp only [huse, State.debit_pc, State.setSp_pc] at hc
    exact ⟨hr, hc, by simp only [State.advance, ofNat_toNat_add, topWord]⟩
  · rintro ⟨hr, hc, rfl⟩
    refine ⟨_, _, ⟨_, _, ⟨hr, rfl, rfl⟩, rfl⟩, ?_, by simp only [State.advance, ofNat_toNat_add, topWord]⟩
    simpa only [huse, State.debit_pc, State.setSp_pc] using hc

theorem execJmp_next_iff {w : Word} {s t : State} : execJmp w s = .next t ↔ t = s.setPc w := by
  have := w.isLt
  simp only [execJmp, complete_next_iff, BitVec.ofNat_toNat, BitVec.setWidth_eq]
  exact ⟨fun h => h.2, fun h => ⟨lt_memSize (by omega), h⟩⟩

theorem execJsr_next_iff {w : Word} {s t : State} :
    execJsr w s = .next t ↔
      s.pc.toNat + 3 < memSize ∧ 2 ≤ s.sp.toNat ∧
        t = (((s.stored (wordAt (s.sp - 2).toNat (BitVec.ofNat 16 (s.pc.toNat + 3)))).setSp (s.sp - 2)).debit
          2).setPc w := by
  have := w.isLt
  unfold execJsr
  simp only
  split
  · simp only [raiseFault]
    constructor
    · intro h; cases h
    · rintro ⟨h, _⟩; omega
  · simp only [Res.finish_next_iff, Res.bind_ok_iff, push16_ok_iff]
    constructor
    · rintro ⟨cur, u, ⟨_, v, ⟨hr, rfl⟩, h⟩, hc, rfl⟩
      cases h
      exact ⟨by omega, hr, by simp only [BitVec.ofNat_toNat, BitVec.setWidth_eq]⟩
    · rintro ⟨_, hr, rfl⟩
      exact ⟨_, _, ⟨(), _, ⟨hr, rfl⟩, rfl⟩, lt_memSize (by omega), by simp only [BitVec.ofNat_toNat, BitVec.setWidth_eq]⟩

theorem execRts_next_iff {s t : State} :
    execRts s = .next t ↔ s.sp.toNat + 2 < memSize ∧ t = ((s.setSp (s.sp + 2)).debit 2).setPc (topWord s) := by
  simp only [execRts, Res.finish_next_iff, Res.bind_ok_iff, pull16_ok_iff]
  constructor
  · rintro ⟨cur, u, ⟨v, w, ⟨hr, rfl, rfl⟩, h⟩, hc, rfl⟩
    cases h
    exact ⟨hr, by simp only [BitVec.ofNat_toNat, BitVec.setWidth_eq, topWord]⟩
  · rintro ⟨hr, rfl⟩
    refine ⟨_, _, ⟨_, _, ⟨hr, rfl, rfl⟩, rfl⟩, lt_memSize (BitVec.isLt _), ?_⟩
    simp only [BitVec.ofNat_toNat, BitVec.setWidth_eq, topWord]

/-- An interrupt entry completes just when the return address exists, two words can be pushed and the vector has two
bytes. -/
theorem trapEntry_finish_next_iff {slot : Slot} {ret : Nat} {s t : State} :
    (trapEntry slot ret s).finish = .next t ↔
      ret < memSize ∧ 4 ≤ s.sp.toNat ∧ (vecAddr s.cfg slot).toNat + 1 < memSize ∧ t = s.entered slot ret := by
  simp only [Res.finish_next_iff, trapEntry_ok_iff]
  constructor
  · rintro ⟨cur, u, ⟨h1, h2, h3, rfl, rfl⟩, hc, rfl⟩
    refine ⟨h1, h2, h3, ?_⟩
    simp only [BitVec.ofNat_toNat, BitVec.setWidth_eq, State.setPc]
  · rintro ⟨h1, h2, h3, rfl⟩
    refine ⟨_, _, ⟨h1, h2, h3, rfl, rfl⟩, lt_memSize (BitVec.isLt _), ?_⟩
    simp only [BitVec.ofNat_toNat, BitVec.setWidth_eq, State.setPc]

/-- The invalid-opcode entry completes just when the interrupt entry does. -/
theorem invalidOpcode_finish_next_iff {op : Byte} {ret : Nat} {s t : State} :
    (invalidOpcode op ret s).finish = .next t ↔
      ret < memSize ∧ 4 ≤ s.sp.toNat ∧ (vecAddr s.cfg .invalid).toNat + 1 < memSize ∧
        t = ((s.stored [(s.cfg.invopAddr.toNat, op)]).debit 1).entered .invalid ret := by
  rw [Res.finish_next_iff]
  simp only [invalidOpcode_ok_iff]
  rw [← Res.finish_next_iff, trapEntry_finish_next_iff]
  rfl

theorem execRti_next_iff {s t : State} :
    execRti s = .next t ↔
      s.sp.toNat + 4 < memSize ∧
        t = (((s.setFlags (unpackFlags (topWord s))).setSp (s.sp + 4)).debit 4).setPc
          (wordOf (s.mem.read (s.sp.toNat + 2)) (s.mem.read (s.sp.toNat + 3))) := by
  simp only [execRti, Res.finish_next_iff, interruptReturn_ok_iff]
  constructor
  · rintro ⟨cur, u, ⟨h1, rfl, rfl⟩, hc, rfl⟩
    exact ⟨h1, by simp only [BitVec.ofNat_toNat, BitVec.setWidth_eq, topWord]⟩
  · rintro ⟨h1, rfl⟩
    exact ⟨_, _, ⟨h1, rfl, rfl⟩, lt_memSize (BitVec.isLt _), by
      simp only [BitVec.ofNat_toNat, BitVec.setWidth_eq, topWord]⟩

end Sys2Proof.Machine
end

