-- ==== Sys2Proof/Laws/Exec.lean ====
section
/-! SUPPORT. Each instruction as the shared meaning it is, tagged for simp, so that a proof goes from `exec` to the inversion
lemmas of Laws/Meanings.lean without unfolding a family file. -/

namespace Sys2Proof.Machine

variable (s : State)

@[simp] theorem exec_ldaImm (m : Byte) : exec (.ldaImm m) s = loadInto State.setA (.immediate m) s := rfl
@[simp] theorem exec_ldaZp (z : Byte) : exec (.ldaZp z) s = loadInto State.setA (.memory (.zeroPage z)) s := rfl
@[simp] theorem exec_ldaZpX (z : Byte) : exec (.ldaZpX z) s = loadInto State.setA (.memory (.zeroPageX z)) s := rfl
@[simp] theorem exec_ldaAbs (w : Word) : exec (.ldaAbs w) s = loadInto State.setA (.memory (.absolute w)) s := rfl
@[simp] theorem exec_ldaAbsX (w : Word) : exec (.ldaAbsX w) s = loadInto State.setA (.memory (.absoluteX w)) s := rfl
@[simp] theorem exec_ldaAbsY (w : Word) : exec (.ldaAbsY w) s = loadInto State.setA (.memory (.absoluteY w)) s := rfl
@[simp] theorem exec_ldxImm (m : Byte) : exec (.ldxImm m) s = loadInto State.setX (.immediate m) s := rfl
@[simp] theorem exec_ldxZp (z : Byte) : exec (.ldxZp z) s = loadInto State.setX (.memory (.zeroPage z)) s := rfl
@[simp] theorem exec_ldxZpY (z : Byte) : exec (.ldxZpY z) s = loadInto State.setX (.memory (.zeroPageY z)) s := rfl
@[simp] theorem exec_ldxAbs (w : Word) : exec (.ldxAbs w) s = loadInto State.setX (.memory (.absolute w)) s := rfl
@[simp] theorem exec_ldxAbsY (w : Word) : exec (.ldxAbsY w) s = loadInto State.setX (.memory (.absoluteY w)) s := rfl
@[simp] theorem exec_ldyImm (m : Byte) : exec (.ldyImm m) s = loadInto State.setY (.immediate m) s := rfl
@[simp] theorem exec_ldyZp (z : Byte) : exec (.ldyZp z) s = loadInto State.setY (.memory (.zeroPage z)) s := rfl
@[simp] theorem exec_ldyZpX (z : Byte) : exec (.ldyZpX z) s = loadInto State.setY (.memory (.zeroPageX z)) s := rfl
@[simp] theorem exec_ldyAbs (w : Word) : exec (.ldyAbs w) s = loadInto State.setY (.memory (.absolute w)) s := rfl
@[simp] theorem exec_ldyAbsX (w : Word) : exec (.ldyAbsX w) s = loadInto State.setY (.memory (.absoluteX w)) s := rfl
@[simp] theorem exec_staZp (z : Byte) : exec (.staZp z) s = storeFrom s.a (.zeroPage z) s := rfl
@[simp] theorem exec_staZpX (z : Byte) : exec (.staZpX z) s = storeFrom s.a (.zeroPageX z) s := rfl
@[simp] theorem exec_staAbs (w : Word) : exec (.staAbs w) s = storeFrom s.a (.absolute w) s := rfl
@[simp] theorem exec_staAbsX (w : Word) : exec (.staAbsX w) s = storeFrom s.a (.absoluteX w) s := rfl
@[simp] theorem exec_staAbsY (w : Word) : exec (.staAbsY w) s = storeFrom s.a (.absoluteY w) s := rfl
@[simp] theorem exec_stxZp (z : Byte) : exec (.stxZp z) s = storeFrom s.x (.zeroPage z) s := rfl
@[simp] theorem exec_stxZpY (z : Byte) : exec (.stxZpY z) s = storeFrom s.x (.zeroPageY z) s := rfl
@[simp] theorem exec_stxAbs (w : Word) : exec (.stxAbs w) s = storeFrom s.x (.absolute w) s := rfl
@[simp] theorem exec_styZp (z : Byte) : exec (.styZp z) s = storeFrom s.y (.zeroPage z) s := rfl
@[simp] theorem exec_styZpX (z : Byte) : exec (.styZpX z) s = storeFrom s.y (.zeroPageX z) s := rfl
@[simp] theorem exec_styAbs (w : Word) : exec (.styAbs w) s = storeFrom s.y (.absolute w) s := rfl
@[simp] theorem exec_adcImm (m : Byte) : exec (.adcImm m) s = addWithCarry (.immediate m) s := rfl
@[simp] theorem exec_adcZp (z : Byte) : exec (.adcZp z) s = addWithCarry (.memory (.zeroPage z)) s := rfl
@[simp] theorem exec_adcZpX (z : Byte) : exec (.adcZpX z) s = addWithCarry (.memory (.zeroPageX z)) s := rfl
@[simp] theorem exec_adcAbs (w : Word) : exec (.adcAbs w) s = addWithCarry (.memory (.absolute w)) s := rfl
@[simp] theorem exec_adcAbsX (w : Word) : exec (.adcAbsX w) s = addWithCarry (.memory (.absoluteX w)) s := rfl
@[simp] theorem exec_adcAbsY (w : Word) : exec (.adcAbsY w) s = addWithCarry (.memory (.absoluteY w)) s := rfl
@[simp] theorem exec_andImm (m : Byte) : exec (.andImm m) s = bitwise (fun a m => a &&& m) (.immediate m) s := rfl
@[simp] theorem exec_andZp (z : Byte) : exec (.andZp z) s = bitwise (fun a m => a &&& m) (.memory (.zeroPage z)) s := rfl
@[simp] theorem exec_andZpX (z : Byte) : exec (.andZpX z) s = bitwise (fun a m => a &&& m) (.memory (.zeroPageX z)) s := rfl
@[simp] theorem exec_andAbs (w : Word) : exec (.andAbs w) s = bitwise (fun a m => a &&& m) (.memory (.absolute w)) s := rfl
@[simp] theorem exec_andAbsX (w : Word) : exec (.andAbsX w) s = bitwise (fun a m => a &&& m) (.memory (.absoluteX w)) s := rfl
@[simp] theorem exec_andAbsY (w : Word) : exec (.andAbsY w) s = bitwise (fun a m => a &&& m) (.memory (.absoluteY w)) s := rfl
@[simp] theorem exec_oraImm (m : Byte) : exec (.oraImm m) s = bitwise (fun a m => a ||| m) (.immediate m) s := rfl
@[simp] theorem exec_oraZp (z : Byte) : exec (.oraZp z) s = bitwise (fun a m => a ||| m) (.memory (.zeroPage z)) s := rfl
@[simp] theorem exec_oraZpX (z : Byte) : exec (.oraZpX z) s = bitwise (fun a m => a ||| m) (.memory (.zeroPageX z)) s := rfl
@[simp] theorem exec_oraAbs (w : Word) : exec (.oraAbs w) s = bitwise (fun a m => a ||| m) (.memory (.absolute w)) s := rfl
@[simp] theorem exec_oraAbsX (w : Word) : exec (.oraAbsX w) s = bitwise (fun a m => a ||| m) (.memory (.absoluteX w)) s := rfl
@[simp] theorem exec_oraAbsY (w : Word) : exec (.oraAbsY w) s = bitwise (fun a m => a ||| m) (.memory (.absoluteY w)) s := rfl
@[simp] theorem exec_eorImm (m : Byte) : exec (.eorImm m) s = bitwise (fun a m => a ^^^ m) (.immediate m) s := rfl
@[simp] theorem exec_eorZp (z : Byte) : exec (.eorZp z) s = bitwise (fun a m => a ^^^ m) (.memory (.zeroPage z)) s := rfl
@[simp] theorem exec_eorZpX (z : Byte) : exec (.eorZpX z) s = bitwise (fun a m => a ^^^ m) (.memory (.zeroPageX z)) s := rfl
@[simp] theorem exec_eorAbs (w : Word) : exec (.eorAbs w) s = bitwise (fun a m => a ^^^ m) (.memory (.absolute w)) s := rfl
@[simp] theorem exec_eorAbsX (w : Word) : exec (.eorAbsX w) s = bitwise (fun a m => a ^^^ m) (.memory (.absoluteX w)) s := rfl
@[simp] theorem exec_eorAbsY (w : Word) : exec (.eorAbsY w) s = bitwise (fun a m => a ^^^ m) (.memory (.absoluteY w)) s := rfl
@[simp] theorem exec_cmpImm (m : Byte) : exec (.cmpImm m) s = compareWith s.a (.immediate m) s := rfl
@[simp] theorem exec_cmpZp (z : Byte) : exec (.cmpZp z) s = compareWith s.a (.memory (.zeroPage z)) s := rfl
@[simp] theorem exec_cmpZpX (z : Byte) : exec (.cmpZpX z) s = compareWith s.a (.memory (.zeroPageX z)) s := rfl
@[simp] theorem exec_cmpAbs (w : Word) : exec (.cmpAbs w) s = compareWith s.a (.memory (.absolute w)) s := rfl
@[simp] theorem exec_cmpAbsX (w : Word) : exec (.cmpAbsX w) s = compareWith s.a (.memory (.absoluteX w)) s := rfl
@[simp] theorem exec_cmpAbsY (w : Word) : exec (.cmpAbsY w) s = compareWith s.a (.memory (.absoluteY w)) s := rfl
@[simp] theorem exec_cpxImm (m : Byte) : exec (.cpxImm m) s = compareWith s.x (.immediate m) s := rfl
@[simp] theorem exec_cpxZp (z : Byte) : exec (.cpxZp z) s = compareWith s.x (.memory (.zeroPage z)) s := rfl
@[simp] theorem exec_cpxAbs (w : Word) : exec (.cpxAbs w) s = compareWith s.x (.memory (.absolute w)) s := rfl
@[simp] theorem exec_cpyImm (m : Byte) : exec (.cpyImm m) s = compareWith s.y (.immediate m) s := rfl
@[simp] theorem exec_cpyZp (z : Byte) : exec (.cpyZp z) s = compareWith s.y (.memory (.zeroPage z)) s := rfl
@[simp] theorem exec_cpyAbs (w : Word) : exec (.cpyAbs w) s = compareWith s.y (.memory (.absolute w)) s := rfl
@[simp] theorem exec_incZp (z : Byte) : exec (.incZp z) s = readModifyWrite (fun m => m + 1) (.zeroPage z) s := rfl
@[simp] theorem exec_incZpX (z : Byte) : exec (.incZpX z) s = readModifyWrite (fun m => m + 1) (.zeroPageX z) s := rfl
@[simp] theorem exec_incAbs (w : Word) : exec (.incAbs w) s = readModifyWrite (fun m => m + 1) (.absolute w) s := rfl
@[simp] theorem exec_incAbsX (w : Word) : exec (.incAbsX w) s = readModifyWrite (fun m => m + 1) (.absoluteX w) s := rfl
@[simp] theorem exec_decZp (z : Byte) : exec (.decZp z) s = readModifyWrite (fun m => m - 1) (.zeroPage z) s := rfl
@[simp] theorem exec_decZpX (z : Byte) : exec (.decZpX z) s = readModifyWrite (fun m => m - 1) (.zeroPageX z) s := rfl
@[simp] theorem exec_decAbs (w : Word) : exec (.decAbs w) s = readModifyWrite (fun m => m - 1) (.absolute w) s := rfl
@[simp] theorem exec_decAbsX (w : Word) : exec (.decAbsX w) s = readModifyWrite (fun m => m - 1) (.absoluteX w) s := rfl
@[simp] theorem exec_inx : exec (.inx) s = stepRegister State.setX (s.x + 1) s := rfl
@[simp] theorem exec_iny : exec (.iny) s = stepRegister State.setY (s.y + 1) s := rfl
@[simp] theorem exec_dex : exec (.dex) s = stepRegister State.setX (s.x - 1) s := rfl
@[simp] theorem exec_dey : exec (.dey) s = stepRegister State.setY (s.y - 1) s := rfl
@[simp] theorem exec_jmp (w : Word) : exec (.jmp w) s = execJmp w s := rfl
@[simp] theorem exec_jsr (w : Word) : exec (.jsr w) s = execJsr w s := rfl
@[simp] theorem exec_rts : exec (.rts) s = execRts s := rfl
@[simp] theorem exec_bcc (r : Byte) : exec (.bcc r) s = branchOn (!s.flags.c) r s := rfl
@[simp] theorem exec_bcs (r : Byte) : exec (.bcs r) s = branchOn s.flags.c r s := rfl
@[simp] theorem exec_beq (r : Byte) : exec (.beq r) s = branchOn s.flags.z r s := rfl
@[simp] theorem exec_bne (r : Byte) : exec (.bne r) s = branchOn (!s.flags.z) r s := rfl
@[simp] theorem exec_bmi (r : Byte) : exec (.bmi r) s = branchOn s.flags.n r s := rfl
@[simp] theorem exec_bpl (r : Byte) : exec (.bpl r) s = branchOn (!s.flags.n) r s := rfl
@[simp] theorem exec_bvc (r : Byte) : exec (.bvc r) s = branchOn (!s.flags.v) r s := rfl
@[simp] theorem exec_bvs (r : Byte) : exec (.bvs r) s = branchOn s.flags.v r s := rfl
@[simp] theorem exec_pha : exec (.pha) s = pushWord (s.a.setWidth 16) s := rfl
@[simp] theorem exec_pla : exec (.pla) s = pullWord (fun w s => (s.setA (loByte w)).setZN (loByte w)) s := rfl
@[simp] theorem exec_php : exec (.php) s = pushWord (packFlags s.flags) s := rfl
@[simp] theorem exec_plp : exec (.plp) s = pullWord (fun w s => s.setFlags (unpackFlags w)) s := rfl
@[simp] theorem exec_clc : exec (.clc) s = setFlagsOnly { s.flags with c := false } s := rfl
@[simp] theorem exec_cld : exec (.cld) s = setFlagsOnly { s.flags with d := false } s := rfl
@[simp] theorem exec_clv : exec (.clv) s = setFlagsOnly { s.flags with v := false } s := rfl
@[simp] theorem exec_cli : exec (.cli) s = setFlagsOnly { s.flags with i := false } s := rfl
@[simp] theorem exec_nop : exec (.nop) s = setFlagsOnly s.flags s := rfl
@[simp] theorem exec_rti : exec (.rti) s = execRti s := rfl

/-- A BRK operand below 5 names a slot, and one from 5 on does not (spec/30_encoding.md R87). -/
theorem slotOf_eq_none_iff (n : Byte) : slotOf n = none ↔ 5 ≤ n.toNat := by revert n; decide

/-- BRK with a slot of 0 to 4 is the entry through that slot. -/
theorem exec_brk_slot {n : Byte} {slot : Slot} (h : slotOf n = some slot) :
    exec (.brk n) s = (trapEntry slot (s.pc.toNat + 2) s).finish := by
  change execBrk n s = _
  unfold execBrk
  rw [h]

/-- BRK with a reserved slot is the invalid-opcode entry with the record byte 0x00. -/
theorem exec_brk_reserved {n : Byte} (h : slotOf n = none) :
    exec (.brk n) s = (invalidOpcode 0x00 (s.pc.toNat + 2) s).finish := by
  change execBrk n s = _
  unfold execBrk
  rw [h]

/-- When BRK answers a next state, it entered its own slot, or slot INVALID after storing 0x00 at `INVOP_ADDR`. -/
theorem exec_brk_next {s t : State} {n : Byte} (h : exec (.brk n) s = .next t) :
    s.pc.toNat + 2 < memSize ∧ 4 ≤ s.sp.toNat ∧
      ((∃ slot, slotOf n = some slot ∧ n.toNat < 5 ∧ t = s.entered slot (s.pc.toNat + 2)) ∨
        (slotOf n = none ∧ 5 ≤ n.toNat ∧
          t = ((s.stored [(s.cfg.invopAddr.toNat, 0x00)]).debit 1).entered .invalid (s.pc.toNat + 2))) := by
  cases hs : slotOf n with
  | none =>
    rw [exec_brk_reserved s hs, invalidOpcode_finish_next_iff] at h
    exact ⟨h.1, h.2.1, .inr ⟨rfl, (slotOf_eq_none_iff n).1 hs, h.2.2.2⟩⟩
  | some slot =>
    rw [exec_brk_slot s hs, trapEntry_finish_next_iff] at h
    refine ⟨h.1, h.2.1, .inl ⟨slot, rfl, ?_, h.2.2.2⟩⟩
    by_contra hn
    rw [(slotOf_eq_none_iff n).2 (by omega)] at hs
    cases hs

end Sys2Proof.Machine
end

