-- ==== Sys2Proof/Laws/Keeps.lean ====
section
/-! SUPPORT. One induction over everything an instruction does, fault or not: what every update of one field keeps, `exec`
keeps. -/

namespace Sys2Proof.Machine

/-- A property of states that the updates of a, x, y, flags, sp, memory and budget keep (`pc`, `cfg`, `fault` and
`engineState` are updated by none of them). -/
structure Kept (P : State → Prop) : Prop where
  debit   : ∀ {s} (n : Nat), P s → P (s.debit n)
  putByte : ∀ {s} (addr : Nat) (v : Byte), P s → P (s.putByte addr v)
  setA    : ∀ {s} (v : Byte), P s → P (s.setA v)
  setX    : ∀ {s} (v : Byte), P s → P (s.setX v)
  setY    : ∀ {s} (v : Byte), P s → P (s.setY v)
  flags   : ∀ {s} (f : Flags), P s → P (s.setFlags f)
  push    : ∀ {s}, P s → 2 ≤ s.sp.toNat → P (s.setSp (s.sp - 2))
  pull    : ∀ {s}, P s → s.sp.toNat + 2 ≤ 0xFFFF → P (s.setSp (s.sp + 2))

/-- A primitive that answers, or finds an address outside the space, in a state with `P`. -/
def Res.Keeps {α : Type} (P : State → Prop) : Res α → Prop
  | .ok _ s => P s
  | .oob addr s => (addr < 0 ∨ 0xFFFF < addr) ∧ P s

/-- An instruction that moves `pc`, or faults at an address outside the space, from a state with `P`. -/
def Keeps (P : State → Prop) : StepResult → Prop
  | .next t => ∃ s w, P s ∧ t = s.setPc w
  | .fault (.outOfRange addr final) => (addr < 0 ∨ 0xFFFF < addr) ∧ ∃ s, P s ∧ final = s.faulted addr
  | .fault .stillFaulted => False
  | .refused _ => False

variable {P : State → Prop} {s : State}

theorem past_top {n : Nat} (h : ¬ n < memSize) : (n : Int) < 0 ∨ 0xFFFF < (n : Int) := by
  change ¬ n < 65536 at h
  omega

theorem Res.Keeps.bind {α β : Type} {r : Res α} {k : α → State → Res β} (h : r.Keeps P)
    (hk : ∀ v t, P t → (k v t).Keeps P) : (r.bind k).Keeps P := by
  cases r with
  | ok v t => exact hk v t h
  | oob addr t => exact h

theorem Kept.complete (cur : Nat) (h : P s) : Keeps P (complete cur s) := by
  unfold Machine.complete
  split
  · exact ⟨s, _, h, rfl⟩
  · rename_i hc
    exact ⟨past_top hc, s, h, rfl⟩

theorem Res.Keeps.finish {r : Res Nat} (h : r.Keeps P) : Machine.Keeps P r.finish := by
  cases r with
  | ok cur t => exact Kept.complete cur h
  | oob addr t => exact ⟨h.1, t, h.2, rfl⟩

/-! ## The primitives -/

theorem Kept.setZN (K : Kept P) (r : Byte) (h : P s) : P (s.setZN r) := K.flags _ h

theorem Kept.memRead (K : Kept P) (addr : Nat) (h : P s) : (memRead addr s).Keeps P := by
  unfold Machine.memRead
  split
  · exact K.debit 1 h
  · rename_i hc
    exact ⟨past_top hc, h⟩

theorem Kept.memWrite (K : Kept P) (addr : Nat) (v : Byte) (h : P s) : (memWrite addr v s).Keeps P := by
  unfold Machine.memWrite
  split
  · exact K.debit 1 (K.putByte addr v h)
  · rename_i hc
    exact ⟨past_top hc, h⟩

theorem Kept.readWord (K : Kept P) (addr : Nat) (h : P s) : (readWord addr s).Keeps P :=
  (K.memRead addr h).bind fun _ _ h => (K.memRead _ h).bind fun _ _ h => h

theorem Kept.writeWord (K : Kept P) (addr : Nat) (v : Word) (h : P s) : (writeWord addr v s).Keeps P :=
  (K.memWrite addr _ h).bind fun _ _ h => K.memWrite _ _ h

theorem Kept.push16 (K : Kept P) (v : Word) (h : P s) : (push16 v s).Keeps P := by
  unfold Machine.push16
  split
  · exact ⟨by omega, h⟩
  · exact K.writeWord _ _ (K.push h (by omega))

theorem Kept.pull16 (K : Kept P) (h : P s) : (pull16 s).Keeps P := by
  refine (K.readWord _ h).bind fun v t h => ?_
  split
  · exact ⟨by omega, h⟩
  · exact K.pull h (by omega)

theorem Kept.operand (K : Kept P) (o : Operand) (h : P s) : (operand o s).Keeps P := by
  cases o with
  | immediate m => exact h
  | memory mode => exact K.memRead _ (K.debit _ h)

theorem Kept.trapEntry (K : Kept P) (slot : Slot) (ret : Nat) (h : P s) : (trapEntry slot ret s).Keeps P := by
  unfold Machine.trapEntry
  split
  · exact ⟨past_top (by omega), h⟩
  · exact (K.push16 _ h).bind fun _ _ h => (K.push16 _ h).bind fun _ _ h =>
      (K.readWord _ (K.flags _ h)).bind fun _ _ h => h

theorem Kept.invalidOpcode (K : Kept P) (op : Byte) (ret : Nat) (h : P s) : (invalidOpcode op ret s).Keeps P :=
  (K.memWrite _ _ h).bind fun _ _ h => K.trapEntry _ _ h

theorem Kept.interruptReturn (K : Kept P) (h : P s) : (interruptReturn s).Keeps P :=
  (K.pull16 h).bind fun _ _ h => (K.pull16 (K.flags _ h)).bind fun _ _ h => h

/-! ## The shared meanings -/

theorem Kept.loadInto (K : Kept P) {set : Byte → State → State} (hset : ∀ v t, P t → P (set v t)) (o : Operand)
    (h : P s) : Keeps P (loadInto set o s) :=
  Res.Keeps.finish ((K.operand o h).bind fun _ _ h => K.setZN _ (hset _ _ h))

theorem Kept.storeFrom (K : Kept P) (v : Byte) (mode : AddrMode) (h : P s) : Keeps P (storeFrom v mode s) :=
  Res.Keeps.finish (Res.Keeps.bind (r := effective mode s) (K.debit _ h) fun _ _ h =>
    (K.memWrite _ _ h).bind fun _ _ h => h)

theorem Kept.addWithCarry (K : Kept P) (o : Operand) (h : P s) : Keeps P (addWithCarry o s) :=
  Res.Keeps.finish ((K.operand o h).bind fun _ _ h => K.setA _ (K.flags _ h))

theorem Kept.bitwise (K : Kept P) (f : Byte → Byte → Byte) (o : Operand) (h : P s) : Keeps P (bitwise f o s) :=
  Res.Keeps.finish ((K.operand o h).bind fun _ _ h => K.setZN _ (K.setA _ h))

theorem Kept.compareWith (K : Kept P) (reg : Byte) (o : Operand) (h : P s) : Keeps P (compareWith reg o s) :=
  Res.Keeps.finish ((K.operand o h).bind fun _ _ h => K.flags _ h)

theorem Kept.readModifyWrite (K : Kept P) (f : Byte → Byte) (mode : AddrMode) (h : P s) :
    Keeps P (readModifyWrite f mode s) :=
  Res.Keeps.finish (Res.Keeps.bind (r := effective mode s) (K.debit _ h) fun _ _ h => (K.memRead _ h).bind fun _ _ h =>
    (K.memWrite _ _ h).bind fun _ _ h => K.setZN _ h)

theorem Kept.stepRegister (K : Kept P) {set : Byte → State → State} (hset : ∀ v t, P t → P (set v t)) (v : Byte)
    (h : P s) : Keeps P (stepRegister set v s) :=
  Res.Keeps.finish (r := sequential 1 _) (K.setZN _ (hset _ _ h))

theorem Kept.setFlagsOnly (K : Kept P) (f : Flags) (h : P s) : Keeps P (setFlagsOnly f s) :=
  Res.Keeps.finish (r := sequential 1 _) (K.flags f h)

theorem Kept.pushWord (K : Kept P) (v : Word) (h : P s) : Keeps P (pushWord v s) :=
  Res.Keeps.finish ((K.push16 v h).bind fun _ _ h => h)

theorem Kept.pullWord (K : Kept P) {use : Word → State → State} (huse : ∀ v t, P t → P (use v t)) (h : P s) :
    Keeps P (pullWord use s) :=
  Res.Keeps.finish ((K.pull16 h).bind fun _ _ h => huse _ _ h)

theorem Kept.branchOn (taken : Bool) (r : Byte) (h : P s) : Keeps P (branchOn taken r s) := by
  unfold Machine.branchOn
  split
  · simp only
    split
    · exact ⟨by omega, s, h, rfl⟩
    · exact Kept.complete _ h
  · exact Res.Keeps.finish (r := sequential 2 s) h

theorem Kept.execJsr (K : Kept P) (w : Word) (h : P s) : Keeps P (execJsr w s) := by
  unfold Machine.execJsr
  simp only
  split
  · exact ⟨past_top (by omega), s, h, rfl⟩
  · exact Res.Keeps.finish ((K.push16 _ h).bind fun _ _ h => h)

theorem Kept.execRts (K : Kept P) (h : P s) : Keeps P (execRts s) := Res.Keeps.finish ((K.pull16 h).bind fun _ _ h => h)

theorem Kept.execRti (K : Kept P) (h : P s) : Keeps P (execRti s) := (K.interruptReturn h).finish

theorem Kept.execBrk (K : Kept P) (n : Byte) (h : P s) : Keeps P (exec (.brk n) s) := by
  cases hs : slotOf n with
  | none => rw [exec_brk_reserved _ hs]; exact (K.invalidOpcode _ _ h).finish
  | some slot => rw [exec_brk_slot _ hs]; exact (K.trapEntry _ _ h).finish

/-- Whatever the updates keep, every instruction keeps, and it never refuses and faults only outside the space. -/
theorem Kept.exec (K : Kept P) (i : Instr) (h : P s) : Keeps P (exec i s) := by
  cases i
  case brk n => exact K.execBrk n h
  case ldaImm m => exact K.loadInto (set := State.setA) (fun v _ h => K.setA v h) (.immediate m) h
  case ldaZp z => exact K.loadInto (set := State.setA) (fun v _ h => K.setA v h) (.memory (.zeroPage z)) h
  case ldaZpX z => exact K.loadInto (set := State.setA) (fun v _ h => K.setA v h) (.memory (.zeroPageX z)) h
  case ldaAbs w => exact K.loadInto (set := State.setA) (fun v _ h => K.setA v h) (.memory (.absolute w)) h
  case ldaAbsX w => exact K.loadInto (set := State.setA) (fun v _ h => K.setA v h) (.memory (.absoluteX w)) h
  case ldaAbsY w => exact K.loadInto (set := State.setA) (fun v _ h => K.setA v h) (.memory (.absoluteY w)) h
  case ldxImm m => exact K.loadInto (set := State.setX) (fun v _ h => K.setX v h) (.immediate m) h
  case ldxZp z => exact K.loadInto (set := State.setX) (fun v _ h => K.setX v h) (.memory (.zeroPage z)) h
  case ldxZpY z => exact K.loadInto (set := State.setX) (fun v _ h => K.setX v h) (.memory (.zeroPageY z)) h
  case ldxAbs w => exact K.loadInto (set := State.setX) (fun v _ h => K.setX v h) (.memory (.absolute w)) h
  case ldxAbsY w => exact K.loadInto (set := State.setX) (fun v _ h => K.setX v h) (.memory (.absoluteY w)) h
  case ldyImm m => exact K.loadInto (set := State.setY) (fun v _ h => K.setY v h) (.immediate m) h
  case ldyZp z => exact K.loadInto (set := State.setY) (fun v _ h => K.setY v h) (.memory (.zeroPage z)) h
  case ldyZpX z => exact K.loadInto (set := State.setY) (fun v _ h => K.setY v h) (.memory (.zeroPageX z)) h
  case ldyAbs w => exact K.loadInto (set := State.setY) (fun v _ h => K.setY v h) (.memory (.absolute w)) h
  case ldyAbsX w => exact K.loadInto (set := State.setY) (fun v _ h => K.setY v h) (.memory (.absoluteX w)) h
  case staZp z => exact K.storeFrom _ (.zeroPage z) h
  case staZpX z => exact K.storeFrom _ (.zeroPageX z) h
  case staAbs w => exact K.storeFrom _ (.absolute w) h
  case staAbsX w => exact K.storeFrom _ (.absoluteX w) h
  case staAbsY w => exact K.storeFrom _ (.absoluteY w) h
  case stxZp z => exact K.storeFrom _ (.zeroPage z) h
  case stxZpY z => exact K.storeFrom _ (.zeroPageY z) h
  case stxAbs w => exact K.storeFrom _ (.absolute w) h
  case styZp z => exact K.storeFrom _ (.zeroPage z) h
  case styZpX z => exact K.storeFrom _ (.zeroPageX z) h
  case styAbs w => exact K.storeFrom _ (.absolute w) h
  case adcImm m => exact K.addWithCarry (.immediate m) h
  case adcZp z => exact K.addWithCarry (.memory (.zeroPage z)) h
  case adcZpX z => exact K.addWithCarry (.memory (.zeroPageX z)) h
  case adcAbs w => exact K.addWithCarry (.memory (.absolute w)) h
  case adcAbsX w => exact K.addWithCarry (.memory (.absoluteX w)) h
  case adcAbsY w => exact K.addWithCarry (.memory (.absoluteY w)) h
  case andImm m => exact K.bitwise _ (.immediate m) h
  case andZp z => exact K.bitwise _ (.memory (.zeroPage z)) h
  case andZpX z => exact K.bitwise _ (.memory (.zeroPageX z)) h
  case andAbs w => exact K.bitwise _ (.memory (.absolute w)) h
  case andAbsX w => exact K.bitwise _ (.memory (.absoluteX w)) h
  case andAbsY w => exact K.bitwise _ (.memory (.absoluteY w)) h
  case oraImm m => exact K.bitwise _ (.immediate m) h
  case oraZp z => exact K.bitwise _ (.memory (.zeroPage z)) h
  case oraZpX z => exact K.bitwise _ (.memory (.zeroPageX z)) h
  case oraAbs w => exact K.bitwise _ (.memory (.absolute w)) h
  case oraAbsX w => exact K.bitwise _ (.memory (.absoluteX w)) h
  case oraAbsY w => exact K.bitwise _ (.memory (.absoluteY w)) h
  case eorImm m => exact K.bitwise _ (.immediate m) h
  case eorZp z => exact K.bitwise _ (.memory (.zeroPage z)) h
  case eorZpX z => exact K.bitwise _ (.memory (.zeroPageX z)) h
  case eorAbs w => exact K.bitwise _ (.memory (.absolute w)) h
  case eorAbsX w => exact K.bitwise _ (.memory (.absoluteX w)) h
  case eorAbsY w => exact K.bitwise _ (.memory (.absoluteY w)) h
  case cmpImm m => exact K.compareWith _ (.immediate m) h
  case cmpZp z => exact K.compareWith _ (.memory (.zeroPage z)) h
  case cmpZpX z => exact K.compareWith _ (.memory (.zeroPageX z)) h
  case cmpAbs w => exact K.compareWith _ (.memory (.absolute w)) h
  case cmpAbsX w => exact K.compareWith _ (.memory (.absoluteX w)) h
  case cmpAbsY w => exact K.compareWith _ (.memory (.absoluteY w)) h
  case cpxImm m => exact K.compareWith _ (.immediate m) h
  case cpxZp z => exact K.compareWith _ (.memory (.zeroPage z)) h
  case cpxAbs w => exact K.compareWith _ (.memory (.absolute w)) h
  case cpyImm m => exact K.compareWith _ (.immediate m) h
  case cpyZp z => exact K.compareWith _ (.memory (.zeroPage z)) h
  case cpyAbs w => exact K.compareWith _ (.memory (.absolute w)) h
  case incZp z => exact K.readModifyWrite _ (.zeroPage z) h
  case incZpX z => exact K.readModifyWrite _ (.zeroPageX z) h
  case incAbs w => exact K.readModifyWrite _ (.absolute w) h
  case incAbsX w => exact K.readModifyWrite _ (.absoluteX w) h
  case decZp z => exact K.readModifyWrite _ (.zeroPage z) h
  case decZpX z => exact K.readModifyWrite _ (.zeroPageX z) h
  case decAbs w => exact K.readModifyWrite _ (.absolute w) h
  case decAbsX w => exact K.readModifyWrite _ (.absoluteX w) h
  case inx => exact K.stepRegister (set := State.setX) (fun v _ h => K.setX v h) _ h
  case iny => exact K.stepRegister (set := State.setY) (fun v _ h => K.setY v h) _ h
  case dex => exact K.stepRegister (set := State.setX) (fun v _ h => K.setX v h) _ h
  case dey => exact K.stepRegister (set := State.setY) (fun v _ h => K.setY v h) _ h
  case jmp w => exact Kept.complete w.toNat h
  case jsr w => exact K.execJsr w h
  case rts => exact K.execRts h
  case bcc r => exact Kept.branchOn _ r h
  case bcs r => exact Kept.branchOn _ r h
  case beq r => exact Kept.branchOn _ r h
  case bne r => exact Kept.branchOn _ r h
  case bmi r => exact Kept.branchOn _ r h
  case bpl r => exact Kept.branchOn _ r h
  case bvc r => exact Kept.branchOn _ r h
  case bvs r => exact Kept.branchOn _ r h
  case pha => exact K.pushWord _ h
  case pla => exact K.pullWord (fun _ _ h => K.setZN _ (K.setA _ h)) h
  case php => exact K.pushWord _ h
  case plp => exact K.pullWord (fun _ _ h => K.flags _ h) h
  case clc => exact K.setFlagsOnly _ h
  case cld => exact K.setFlagsOnly _ h
  case clv => exact K.setFlagsOnly _ h
  case cli => exact K.setFlagsOnly _ h
  case nop => exact K.setFlagsOnly _ h
  case rti => exact K.execRti h

end Sys2Proof.Machine
end

