-- ==== Sys2Proof/Laws/PerInstr.lean ====
section
/-! SUPPORT. Statements for every instruction as it is written, one lemma per constructor. -/

namespace Sys2Proof.Laws

/-- The opcode byte alone fixes the length (spec/30_encoding.md R80, R88): the first byte of an instruction's encoding has
an entry in the opcode map, and that entry's format has as many operand bytes as the encoding. -/
def OpcodeFixesLength.Statement (i : Instr) : Prop :=
  ∃ op sh, (encode i).head? = some op ∧ lookup op = some sh ∧ (encode i).length = 1 + sh.operandBytes

theorem OpcodeFixesLength.ldaImm (m : Byte) : OpcodeFixesLength.Statement (.ldaImm m) := ⟨_, _, rfl, rfl, rfl⟩
theorem OpcodeFixesLength.ldaZp (z : Byte) : OpcodeFixesLength.Statement (.ldaZp z) := ⟨_, _, rfl, rfl, rfl⟩
theorem OpcodeFixesLength.ldaZpX (z : Byte) : OpcodeFixesLength.Statement (.ldaZpX z) := ⟨_, _, rfl, rfl, rfl⟩
theorem OpcodeFixesLength.ldaAbs (w : Word) : OpcodeFixesLength.Statement (.ldaAbs w) := ⟨_, _, rfl, rfl, rfl⟩
theorem OpcodeFixesLength.ldaAbsX (w : Word) : OpcodeFixesLength.Statement (.ldaAbsX w) := ⟨_, _, rfl, rfl, rfl⟩
theorem OpcodeFixesLength.ldaAbsY (w : Word) : OpcodeFixesLength.Statement (.ldaAbsY w) := ⟨_, _, rfl, rfl, rfl⟩
theorem OpcodeFixesLength.ldxImm (m : Byte) : OpcodeFixesLength.Statement (.ldxImm m) := ⟨_, _, rfl, rfl, rfl⟩
theorem OpcodeFixesLength.ldxZp (z : Byte) : OpcodeFixesLength.Statement (.ldxZp z) := ⟨_, _, rfl, rfl, rfl⟩
theorem OpcodeFixesLength.ldxZpY (z : Byte) : OpcodeFixesLength.Statement (.ldxZpY z) := ⟨_, _, rfl, rfl, rfl⟩
theorem OpcodeFixesLength.ldxAbs (w : Word) : OpcodeFixesLength.Statement (.ldxAbs w) := ⟨_, _, rfl, rfl, rfl⟩
theorem OpcodeFixesLength.ldxAbsY (w : Word) : OpcodeFixesLength.Statement (.ldxAbsY w) := ⟨_, _, rfl, rfl, rfl⟩
theorem OpcodeFixesLength.ldyImm (m : Byte) : OpcodeFixesLength.Statement (.ldyImm m) := ⟨_, _, rfl, rfl, rfl⟩
theorem OpcodeFixesLength.ldyZp (z : Byte) : OpcodeFixesLength.Statement (.ldyZp z) := ⟨_, _, rfl, rfl, rfl⟩
theorem OpcodeFixesLength.ldyZpX (z : Byte) : OpcodeFixesLength.Statement (.ldyZpX z) := ⟨_, _, rfl, rfl, rfl⟩
theorem OpcodeFixesLength.ldyAbs (w : Word) : OpcodeFixesLength.Statement (.ldyAbs w) := ⟨_, _, rfl, rfl, rfl⟩
theorem OpcodeFixesLength.ldyAbsX (w : Word) : OpcodeFixesLength.Statement (.ldyAbsX w) := ⟨_, _, rfl, rfl, rfl⟩
theorem OpcodeFixesLength.staZp (z : Byte) : OpcodeFixesLength.Statement (.staZp z) := ⟨_, _, rfl, rfl, rfl⟩
theorem OpcodeFixesLength.staZpX (z : Byte) : OpcodeFixesLength.Statement (.staZpX z) := ⟨_, _, rfl, rfl, rfl⟩
theorem OpcodeFixesLength.staAbs (w : Word) : OpcodeFixesLength.Statement (.staAbs w) := ⟨_, _, rfl, rfl, rfl⟩
theorem OpcodeFixesLength.staAbsX (w : Word) : OpcodeFixesLength.Statement (.staAbsX w) := ⟨_, _, rfl, rfl, rfl⟩
theorem OpcodeFixesLength.staAbsY (w : Word) : OpcodeFixesLength.Statement (.staAbsY w) := ⟨_, _, rfl, rfl, rfl⟩
theorem OpcodeFixesLength.stxZp (z : Byte) : OpcodeFixesLength.Statement (.stxZp z) := ⟨_, _, rfl, rfl, rfl⟩
theorem OpcodeFixesLength.stxZpY (z : Byte) : OpcodeFixesLength.Statement (.stxZpY z) := ⟨_, _, rfl, rfl, rfl⟩
theorem OpcodeFixesLength.stxAbs (w : Word) : OpcodeFixesLength.Statement (.stxAbs w) := ⟨_, _, rfl, rfl, rfl⟩
theorem OpcodeFixesLength.styZp (z : Byte) : OpcodeFixesLength.Statement (.styZp z) := ⟨_, _, rfl, rfl, rfl⟩
theorem OpcodeFixesLength.styZpX (z : Byte) : OpcodeFixesLength.Statement (.styZpX z) := ⟨_, _, rfl, rfl, rfl⟩
theorem OpcodeFixesLength.styAbs (w : Word) : OpcodeFixesLength.Statement (.styAbs w) := ⟨_, _, rfl, rfl, rfl⟩
theorem OpcodeFixesLength.adcImm (m : Byte) : OpcodeFixesLength.Statement (.adcImm m) := ⟨_, _, rfl, rfl, rfl⟩
theorem OpcodeFixesLength.adcZp (z : Byte) : OpcodeFixesLength.Statement (.adcZp z) := ⟨_, _, rfl, rfl, rfl⟩
theorem OpcodeFixesLength.adcZpX (z : Byte) : OpcodeFixesLength.Statement (.adcZpX z) := ⟨_, _, rfl, rfl, rfl⟩
theorem OpcodeFixesLength.adcAbs (w : Word) : OpcodeFixesLength.Statement (.adcAbs w) := ⟨_, _, rfl, rfl, rfl⟩
theorem OpcodeFixesLength.adcAbsX (w : Word) : OpcodeFixesLength.Statement (.adcAbsX w) := ⟨_, _, rfl, rfl, rfl⟩
theorem OpcodeFixesLength.adcAbsY (w : Word) : OpcodeFixesLength.Statement (.adcAbsY w) := ⟨_, _, rfl, rfl, rfl⟩
theorem OpcodeFixesLength.andImm (m : Byte) : OpcodeFixesLength.Statement (.andImm m) := ⟨_, _, rfl, rfl, rfl⟩
theorem OpcodeFixesLength.andZp (z : Byte) : OpcodeFixesLength.Statement (.andZp z) := ⟨_, _, rfl, rfl, rfl⟩
theorem OpcodeFixesLength.andZpX (z : Byte) : OpcodeFixesLength.Statement (.andZpX z) := ⟨_, _, rfl, rfl, rfl⟩
theorem OpcodeFixesLength.andAbs (w : Word) : OpcodeFixesLength.Statement (.andAbs w) := ⟨_, _, rfl, rfl, rfl⟩
theorem OpcodeFixesLength.andAbsX (w : Word) : OpcodeFixesLength.Statement (.andAbsX w) := ⟨_, _, rfl, rfl, rfl⟩
theorem OpcodeFixesLength.andAbsY (w : Word) : OpcodeFixesLength.Statement (.andAbsY w) := ⟨_, _, rfl, rfl, rfl⟩
theorem OpcodeFixesLength.oraImm (m : Byte) : OpcodeFixesLength.Statement (.oraImm m) := ⟨_, _, rfl, rfl, rfl⟩
theorem OpcodeFixesLength.oraZp (z : Byte) : OpcodeFixesLength.Statement (.oraZp z) := ⟨_, _, rfl, rfl, rfl⟩
theorem OpcodeFixesLength.oraZpX (z : Byte) : OpcodeFixesLength.Statement (.oraZpX z) := ⟨_, _, rfl, rfl, rfl⟩
theorem OpcodeFixesLength.oraAbs (w : Word) : OpcodeFixesLength.Statement (.oraAbs w) := ⟨_, _, rfl, rfl, rfl⟩
theorem OpcodeFixesLength.oraAbsX (w : Word) : OpcodeFixesLength.Statement (.oraAbsX w) := ⟨_, _, rfl, rfl, rfl⟩
theorem OpcodeFixesLength.oraAbsY (w : Word) : OpcodeFixesLength.Statement (.oraAbsY w) := ⟨_, _, rfl, rfl, rfl⟩
theorem OpcodeFixesLength.eorImm (m : Byte) : OpcodeFixesLength.Statement (.eorImm m) := ⟨_, _, rfl, rfl, rfl⟩
theorem OpcodeFixesLength.eorZp (z : Byte) : OpcodeFixesLength.Statement (.eorZp z) := ⟨_, _, rfl, rfl, rfl⟩
theorem OpcodeFixesLength.eorZpX (z : Byte) : OpcodeFixesLength.Statement (.eorZpX z) := ⟨_, _, rfl, rfl, rfl⟩
theorem OpcodeFixesLength.eorAbs (w : Word) : OpcodeFixesLength.Statement (.eorAbs w) := ⟨_, _, rfl, rfl, rfl⟩
theorem OpcodeFixesLength.eorAbsX (w : Word) : OpcodeFixesLength.Statement (.eorAbsX w) := ⟨_, _, rfl, rfl, rfl⟩
theorem OpcodeFixesLength.eorAbsY (w : Word) : OpcodeFixesLength.Statement (.eorAbsY w) := ⟨_, _, rfl, rfl, rfl⟩
theorem OpcodeFixesLength.cmpImm (m : Byte) : OpcodeFixesLength.Statement (.cmpImm m) := ⟨_, _, rfl, rfl, rfl⟩
theorem OpcodeFixesLength.cmpZp (z : Byte) : OpcodeFixesLength.Statement (.cmpZp z) := ⟨_, _, rfl, rfl, rfl⟩
theorem OpcodeFixesLength.cmpZpX (z : Byte) : OpcodeFixesLength.Statement (.cmpZpX z) := ⟨_, _, rfl, rfl, rfl⟩
theorem OpcodeFixesLength.cmpAbs (w : Word) : OpcodeFixesLength.Statement (.cmpAbs w) := ⟨_, _, rfl, rfl, rfl⟩
theorem OpcodeFixesLength.cmpAbsX (w : Word) : OpcodeFixesLength.Statement (.cmpAbsX w) := ⟨_, _, rfl, rfl, rfl⟩
theorem OpcodeFixesLength.cmpAbsY (w : Word) : OpcodeFixesLength.Statement (.cmpAbsY w) := ⟨_, _, rfl, rfl, rfl⟩
theorem OpcodeFixesLength.cpxImm (m : Byte) : OpcodeFixesLength.Statement (.cpxImm m) := ⟨_, _, rfl, rfl, rfl⟩
theorem OpcodeFixesLength.cpxZp (z : Byte) : OpcodeFixesLength.Statement (.cpxZp z) := ⟨_, _, rfl, rfl, rfl⟩
theorem OpcodeFixesLength.cpxAbs (w : Word) : OpcodeFixesLength.Statement (.cpxAbs w) := ⟨_, _, rfl, rfl, rfl⟩
theorem OpcodeFixesLength.cpyImm (m : Byte) : OpcodeFixesLength.Statement (.cpyImm m) := ⟨_, _, rfl, rfl, rfl⟩
theorem OpcodeFixesLength.cpyZp (z : Byte) : OpcodeFixesLength.Statement (.cpyZp z) := ⟨_, _, rfl, rfl, rfl⟩
theorem OpcodeFixesLength.cpyAbs (w : Word) : OpcodeFixesLength.Statement (.cpyAbs w) := ⟨_, _, rfl, rfl, rfl⟩
theorem OpcodeFixesLength.incZp (z : Byte) : OpcodeFixesLength.Statement (.incZp z) := ⟨_, _, rfl, rfl, rfl⟩
theorem OpcodeFixesLength.incZpX (z : Byte) : OpcodeFixesLength.Statement (.incZpX z) := ⟨_, _, rfl, rfl, rfl⟩
theorem OpcodeFixesLength.incAbs (w : Word) : OpcodeFixesLength.Statement (.incAbs w) := ⟨_, _, rfl, rfl, rfl⟩
theorem OpcodeFixesLength.incAbsX (w : Word) : OpcodeFixesLength.Statement (.incAbsX w) := ⟨_, _, rfl, rfl, rfl⟩
theorem OpcodeFixesLength.decZp (z : Byte) : OpcodeFixesLength.Statement (.decZp z) := ⟨_, _, rfl, rfl, rfl⟩
theorem OpcodeFixesLength.decZpX (z : Byte) : OpcodeFixesLength.Statement (.decZpX z) := ⟨_, _, rfl, rfl, rfl⟩
theorem OpcodeFixesLength.decAbs (w : Word) : OpcodeFixesLength.Statement (.decAbs w) := ⟨_, _, rfl, rfl, rfl⟩
theorem OpcodeFixesLength.decAbsX (w : Word) : OpcodeFixesLength.Statement (.decAbsX w) := ⟨_, _, rfl, rfl, rfl⟩
theorem OpcodeFixesLength.inx : OpcodeFixesLength.Statement .inx := ⟨_, _, rfl, rfl, rfl⟩
theorem OpcodeFixesLength.iny : OpcodeFixesLength.Statement .iny := ⟨_, _, rfl, rfl, rfl⟩
theorem OpcodeFixesLength.dex : OpcodeFixesLength.Statement .dex := ⟨_, _, rfl, rfl, rfl⟩
theorem OpcodeFixesLength.dey : OpcodeFixesLength.Statement .dey := ⟨_, _, rfl, rfl, rfl⟩
theorem OpcodeFixesLength.jmp (w : Word) : OpcodeFixesLength.Statement (.jmp w) := ⟨_, _, rfl, rfl, rfl⟩
theorem OpcodeFixesLength.jsr (w : Word) : OpcodeFixesLength.Statement (.jsr w) := ⟨_, _, rfl, rfl, rfl⟩
theorem OpcodeFixesLength.rts : OpcodeFixesLength.Statement .rts := ⟨_, _, rfl, rfl, rfl⟩
theorem OpcodeFixesLength.bcc (r : Byte) : OpcodeFixesLength.Statement (.bcc r) := ⟨_, _, rfl, rfl, rfl⟩
theorem OpcodeFixesLength.bcs (r : Byte) : OpcodeFixesLength.Statement (.bcs r) := ⟨_, _, rfl, rfl, rfl⟩
theorem OpcodeFixesLength.beq (r : Byte) : OpcodeFixesLength.Statement (.beq r) := ⟨_, _, rfl, rfl, rfl⟩
theorem OpcodeFixesLength.bne (r : Byte) : OpcodeFixesLength.Statement (.bne r) := ⟨_, _, rfl, rfl, rfl⟩
theorem OpcodeFixesLength.bmi (r : Byte) : OpcodeFixesLength.Statement (.bmi r) := ⟨_, _, rfl, rfl, rfl⟩
theorem OpcodeFixesLength.bpl (r : Byte) : OpcodeFixesLength.Statement (.bpl r) := ⟨_, _, rfl, rfl, rfl⟩
theorem OpcodeFixesLength.bvc (r : Byte) : OpcodeFixesLength.Statement (.bvc r) := ⟨_, _, rfl, rfl, rfl⟩
theorem OpcodeFixesLength.bvs (r : Byte) : OpcodeFixesLength.Statement (.bvs r) := ⟨_, _, rfl, rfl, rfl⟩
theorem OpcodeFixesLength.pha : OpcodeFixesLength.Statement .pha := ⟨_, _, rfl, rfl, rfl⟩
theorem OpcodeFixesLength.pla : OpcodeFixesLength.Statement .pla := ⟨_, _, rfl, rfl, rfl⟩
theorem OpcodeFixesLength.php : OpcodeFixesLength.Statement .php := ⟨_, _, rfl, rfl, rfl⟩
theorem OpcodeFixesLength.plp : OpcodeFixesLength.Statement .plp := ⟨_, _, rfl, rfl, rfl⟩
theorem OpcodeFixesLength.clc : OpcodeFixesLength.Statement .clc := ⟨_, _, rfl, rfl, rfl⟩
theorem OpcodeFixesLength.cld : OpcodeFixesLength.Statement .cld := ⟨_, _, rfl, rfl, rfl⟩
theorem OpcodeFixesLength.clv : OpcodeFixesLength.Statement .clv := ⟨_, _, rfl, rfl, rfl⟩
theorem OpcodeFixesLength.cli : OpcodeFixesLength.Statement .cli := ⟨_, _, rfl, rfl, rfl⟩
theorem OpcodeFixesLength.nop : OpcodeFixesLength.Statement .nop := ⟨_, _, rfl, rfl, rfl⟩
theorem OpcodeFixesLength.brk (n : Byte) : OpcodeFixesLength.Statement (.brk n) := ⟨_, _, rfl, rfl, rfl⟩
theorem OpcodeFixesLength.rti : OpcodeFixesLength.Statement .rti := ⟨_, _, rfl, rfl, rfl⟩

end Sys2Proof.Laws
end

