-- ==== Sys2Proof/Tests/Slice0.lean ====
section
/-! SUPPORT. Tests: decoding of words written out from the encodings of spec/41 to spec/44, the checks of WellFormed, one-step
vectors of spec/95_test_vectors.md, what the host asks with table words, and for each statement of
Certificates/Slice0/Obligations.lean that has hypotheses a state and operands that meet them, for each of its clauses. -/

namespace Sys2Proof.Tests

open Machine

/-- The state a step answers, if it answers one. -/
def nextOf : StepResult → Option State
  | .next t => some t
  | .fault _ => none
  | .refused _ => none

/-- The address of the out-of-range fault, if there is one. -/
def faultAt : StepResult → Option Int
  | .fault (.outOfRange addr _) => some addr
  | .fault .stillFaulted => none
  | .next _ => none
  | .refused _ => none

/-- What is looked at in the state a step answers. -/
def seen {α : Type} (r : StepResult) (look : State → α) : Option α := (nextOf r).map look

/-- One step with `pc` at an address and bytes placed there: the start state of the vectors. -/
def run1 (pc : Word) (bytes : List Byte) (s : State) : StepResult := step (State.place pc.toNat bytes { s with pc := pc })

/-! ## Decoding, every opcode written out bit by bit from its rule's encoding -/

/-- Loads (spec/41_load_store.md R130 to R132). -/
theorem test_decode_load :
    decode [0b10101001, 0x48, 0xEA] = .instr (.ldaImm 0x48) [0xEA] ∧
    decode [0b10100101, 0x48, 0xEA] = .instr (.ldaZp 0x48) [0xEA] ∧
    decode [0b10110101, 0x48, 0xEA] = .instr (.ldaZpX 0x48) [0xEA] ∧
    decode [0b10101101, 0x12, 0x34] = .instr (.ldaAbs 0x1234) [] ∧
    decode [0b10111101, 0x12, 0x34] = .instr (.ldaAbsX 0x1234) [] ∧
    decode [0b10111001, 0x12, 0x34] = .instr (.ldaAbsY 0x1234) [] ∧
    decode [0b10100010, 0x48, 0xEA] = .instr (.ldxImm 0x48) [0xEA] ∧
    decode [0b10100110, 0x48, 0xEA] = .instr (.ldxZp 0x48) [0xEA] ∧
    decode [0b10110110, 0x48, 0xEA] = .instr (.ldxZpY 0x48) [0xEA] ∧
    decode [0b10101110, 0x12, 0x34] = .instr (.ldxAbs 0x1234) [] ∧
    decode [0b10111110, 0x12, 0x34] = .instr (.ldxAbsY 0x1234) [] ∧
    decode [0b10100000, 0x48, 0xEA] = .instr (.ldyImm 0x48) [0xEA] ∧
    decode [0b10100100, 0x48, 0xEA] = .instr (.ldyZp 0x48) [0xEA] ∧
    decode [0b10110100, 0x48, 0xEA] = .instr (.ldyZpX 0x48) [0xEA] ∧
    decode [0b10101100, 0x12, 0x34] = .instr (.ldyAbs 0x1234) [] ∧
    decode [0b10111100, 0x12, 0x34] = .instr (.ldyAbsX 0x1234) [] := by decide

/-- Stores (spec/41_load_store.md R133 to R135). -/
theorem test_decode_store :
    decode [0b10000101, 0x48, 0xEA] = .instr (.staZp 0x48) [0xEA] ∧
    decode [0b10010101, 0x48, 0xEA] = .instr (.staZpX 0x48) [0xEA] ∧
    decode [0b10001101, 0x12, 0x34] = .instr (.staAbs 0x1234) [] ∧
    decode [0b10011101, 0x12, 0x34] = .instr (.staAbsX 0x1234) [] ∧
    decode [0b10011001, 0x12, 0x34] = .instr (.staAbsY 0x1234) [] ∧
    decode [0b10000110, 0x48, 0xEA] = .instr (.stxZp 0x48) [0xEA] ∧
    decode [0b10010110, 0x48, 0xEA] = .instr (.stxZpY 0x48) [0xEA] ∧
    decode [0b10001110, 0x12, 0x34] = .instr (.stxAbs 0x1234) [] ∧
    decode [0b10000100, 0x48, 0xEA] = .instr (.styZp 0x48) [0xEA] ∧
    decode [0b10010100, 0x48, 0xEA] = .instr (.styZpX 0x48) [0xEA] ∧
    decode [0b10001100, 0x12, 0x34] = .instr (.styAbs 0x1234) [] := by decide

/-- Add with carry and the bitwise operations (spec/42_arith_logic.md R150 to R153). -/
theorem test_decode_arith :
    decode [0b01101001, 0x48, 0xEA] = .instr (.adcImm 0x48) [0xEA] ∧
    decode [0b01100101, 0x48, 0xEA] = .instr (.adcZp 0x48) [0xEA] ∧
    decode [0b01110101, 0x48, 0xEA] = .instr (.adcZpX 0x48) [0xEA] ∧
    decode [0b01101101, 0x12, 0x34] = .instr (.adcAbs 0x1234) [] ∧
    decode [0b01111101, 0x12, 0x34] = .instr (.adcAbsX 0x1234) [] ∧
    decode [0b01111001, 0x12, 0x34] = .instr (.adcAbsY 0x1234) [] ∧
    decode [0b00101001, 0x48, 0xEA] = .instr (.andImm 0x48) [0xEA] ∧
    decode [0b00100101, 0x48, 0xEA] = .instr (.andZp 0x48) [0xEA] ∧
    decode [0b00110101, 0x48, 0xEA] = .instr (.andZpX 0x48) [0xEA] ∧
    decode [0b00101101, 0x12, 0x34] = .instr (.andAbs 0x1234) [] ∧
    decode [0b00111101, 0x12, 0x34] = .instr (.andAbsX 0x1234) [] ∧
    decode [0b00111001, 0x12, 0x34] = .instr (.andAbsY 0x1234) [] ∧
    decode [0b00001001, 0x48, 0xEA] = .instr (.oraImm 0x48) [0xEA] ∧
    decode [0b00000101, 0x48, 0xEA] = .instr (.oraZp 0x48) [0xEA] ∧
    decode [0b00010101, 0x48, 0xEA] = .instr (.oraZpX 0x48) [0xEA] ∧
    decode [0b00001101, 0x12, 0x34] = .instr (.oraAbs 0x1234) [] ∧
    decode [0b00011101, 0x12, 0x34] = .instr (.oraAbsX 0x1234) [] ∧
    decode [0b00011001, 0x12, 0x34] = .instr (.oraAbsY 0x1234) [] ∧
    decode [0b01001001, 0x48, 0xEA] = .instr (.eorImm 0x48) [0xEA] ∧
    decode [0b01000101, 0x48, 0xEA] = .instr (.eorZp 0x48) [0xEA] ∧
    decode [0b01010101, 0x48, 0xEA] = .instr (.eorZpX 0x48) [0xEA] ∧
    decode [0b01001101, 0x12, 0x34] = .instr (.eorAbs 0x1234) [] ∧
    decode [0b01011101, 0x12, 0x34] = .instr (.eorAbsX 0x1234) [] ∧
    decode [0b01011001, 0x12, 0x34] = .instr (.eorAbsY 0x1234) [] := by decide

/-- Compares (spec/42_arith_logic.md R154 to R156). -/
theorem test_decode_compare :
    decode [0b11001001, 0x48, 0xEA] = .instr (.cmpImm 0x48) [0xEA] ∧
    decode [0b11000101, 0x48, 0xEA] = .instr (.cmpZp 0x48) [0xEA] ∧
    decode [0b11010101, 0x48, 0xEA] = .instr (.cmpZpX 0x48) [0xEA] ∧
    decode [0b11001101, 0x12, 0x34] = .instr (.cmpAbs 0x1234) [] ∧
    decode [0b11011101, 0x12, 0x34] = .instr (.cmpAbsX 0x1234) [] ∧
    decode [0b11011001, 0x12, 0x34] = .instr (.cmpAbsY 0x1234) [] ∧
    decode [0b11100000, 0x48, 0xEA] = .instr (.cpxImm 0x48) [0xEA] ∧
    decode [0b11100100, 0x48, 0xEA] = .instr (.cpxZp 0x48) [0xEA] ∧
    decode [0b11101100, 0x12, 0x34] = .instr (.cpxAbs 0x1234) [] ∧
    decode [0b11000000, 0x48, 0xEA] = .instr (.cpyImm 0x48) [0xEA] ∧
    decode [0b11000100, 0x48, 0xEA] = .instr (.cpyZp 0x48) [0xEA] ∧
    decode [0b11001100, 0x12, 0x34] = .instr (.cpyAbs 0x1234) [] := by decide

/-- Increments and decrements (spec/42_arith_logic.md R157 to R164). -/
theorem test_decode_incDec :
    decode [0b11100110, 0x48, 0xEA] = .instr (.incZp 0x48) [0xEA] ∧
    decode [0b11110110, 0x48, 0xEA] = .instr (.incZpX 0x48) [0xEA] ∧
    decode [0b11101110, 0x12, 0x34] = .instr (.incAbs 0x1234) [] ∧
    decode [0b11111110, 0x12, 0x34] = .instr (.incAbsX 0x1234) [] ∧
    decode [0b11000110, 0x48, 0xEA] = .instr (.decZp 0x48) [0xEA] ∧
    decode [0b11010110, 0x48, 0xEA] = .instr (.decZpX 0x48) [0xEA] ∧
    decode [0b11001110, 0x12, 0x34] = .instr (.decAbs 0x1234) [] ∧
    decode [0b11011110, 0x12, 0x34] = .instr (.decAbsX 0x1234) [] ∧
    decode [0b11101000] = .instr .inx [] ∧
    decode [0b11001000] = .instr .iny [] ∧
    decode [0b11001010] = .instr .dex [] ∧
    decode [0b10001000] = .instr .dey [] := by decide

/-- Jumps, call and return, branches (spec/43_control.md R180 to R193). -/
theorem test_decode_control :
    decode [0b01001100, 0x12, 0x34] = .instr (.jmp 0x1234) [] ∧
    decode [0b00100000, 0x12, 0x34] = .instr (.jsr 0x1234) [] ∧
    decode [0b01100000] = .instr .rts [] ∧
    decode [0b10010000, 0xFC, 0xEA] = .instr (.bcc 0xFC) [0xEA] ∧
    decode [0b10110000, 0xFC, 0xEA] = .instr (.bcs 0xFC) [0xEA] ∧
    decode [0b11110000, 0xFC, 0xEA] = .instr (.beq 0xFC) [0xEA] ∧
    decode [0b11010000, 0xFC, 0xEA] = .instr (.bne 0xFC) [0xEA] ∧
    decode [0b00110000, 0xFC, 0xEA] = .instr (.bmi 0xFC) [0xEA] ∧
    decode [0b00010000, 0xFC, 0xEA] = .instr (.bpl 0xFC) [0xEA] ∧
    decode [0b01010000, 0xFC, 0xEA] = .instr (.bvc 0xFC) [0xEA] ∧
    decode [0b01110000, 0xFC, 0xEA] = .instr (.bvs 0xFC) [0xEA] := by decide

/-- Stack, flag-clear and system instructions (spec/44_stack_flags_system.md R200 to R221). -/
theorem test_decode_system :
    decode [0b01001000] = .instr .pha [] ∧
    decode [0b01101000] = .instr .pla [] ∧
    decode [0b00001000] = .instr .php [] ∧
    decode [0b00101000] = .instr .plp [] ∧
    decode [0b00011000] = .instr .clc [] ∧
    decode [0b11011000] = .instr .cld [] ∧
    decode [0b10111000] = .instr .clv [] ∧
    decode [0b01011000] = .instr .cli [] ∧
    decode [0b11101010] = .instr .nop [] ∧
    decode [0b00000000, 0x03, 0xEA] = .instr (.brk 0x03) [0xEA] ∧
    decode [0b01000000] = .instr .rti [] := by decide

/-- Every encoding is the words the decoder was shown above; two samples (spec/30_encoding.md R95). -/
theorem test_encode_samples :
    encode (.ldaAbsX 0x1234) = [0xBD, 0x12, 0x34] ∧ encode (.brk 0x01) = [0x00, 0x01] ∧ encode .inx = [0xE8] := by decide

/-- An invalid opcode and a string too short for its opcode are no instructions (spec/30_encoding.md R88, R91, R92). -/
theorem test_decode_rejects :
    decode [0x02, 0x00] = .invalidOpcode 0x02 ∧ decode [0x6C, 0x12, 0x34] = .invalidOpcode 0x6C ∧
    decode [0xE9, 0x01] = .invalidOpcode 0xE9 ∧ decode [] = .truncated ∧ decode [0xA9] = .truncated ∧
    decode [0xAD, 0x12] = .truncated := by decide

/-! ## Well-formedness: an ill-formed term for each check, and the defaults accepted -/

/-- Slots 5 and 255 are reserved, 4 is not (spec/30_encoding.md R87, R93). -/
theorem test_wellFormed_brk :
    (Instr.brk 0x05).wellFormed = false ∧ (Instr.brk 0xFF).wellFormed = false ∧ (Instr.brk 0x04).wellFormed = true ∧
    (Instr.ldaImm 0xFF).wellFormed = true := by decide

/-- A vector entry at 0xFFFF has its second byte at 0x10000 (spec/00_scope.md R5). -/
theorem test_config_vectors :
    ({ Config.default with vecReset := 0xFFFF }).valid = false ∧
    ({ Config.default with vecUser1 := 0xFFFF }).valid = false ∧
    ({ Config.default with vecUser2 := 0xFFFF }).valid = false ∧
    ({ Config.default with vecInvalid := 0xFFFF }).valid = false ∧
    ({ Config.default with vecHalt := 0xFFFF }).valid = false ∧
    ({ Config.default with vecHalt := 0xFFFE }).valid = true := by decide

/-- `SP_INIT` is even and from 2 to 0xFFFE (spec/00_scope.md R5). -/
theorem test_config_spInit :
    ({ Config.default with spInit := 0x0201 }).valid = false ∧ ({ Config.default with spInit := 0x0000 }).valid = false ∧
    ({ Config.default with spInit := 0xFFFF }).valid = false ∧ ({ Config.default with spInit := 0x0002 }).valid = true ∧
    Config.default.valid = true := by decide

/-! ## What the host asks with table words -/

/-- The first byte is bits 7 to 0 of the word, a later one the bits above. -/
theorem test_tableWord :
    decodeTableWord 16 0x48A9 = some (.ldaImm 0x48) ∧ decodeTableWord 24 0x3412BD = some (.ldaAbsX 0x1234) ∧
    decodeTableWord 8 0xBD = some (.ldaAbsX 0x0000) ∧ decodeTableWord 8 0x02 = none := by decide

/-- `withFetchWord` at reset: the next step fetches and runs the instruction, at 0xFFFC. -/
theorem test_withFetchWord :
    seen (step (State.reset.withFetchWord 16 0x80A9)) (fun t => (t.a, t.pc)) = some (0x80, 0xFFFE) ∧
    seen (step (State.reset.withFetchWord 24 0x00034C)) (fun t => t.pc) = some 0x0300 := by decide

/-! ## One-step vectors of spec/95_test_vectors.md -/

/-- V1.2, R112: LDA $80. -/
theorem test_v1_2_ldaZp :
    seen (run1 0x0300 [0xA5, 0x80] (State.place 0x0080 [0x33] State.reset))
      (fun t => t.a) = some 0x33 := by decide

/-- V1.3, R113: LDA $F0,X. -/
theorem test_v1_3_ldaZpX :
    seen (run1 0x0300 [0xB5, 0xF0] (State.place 0x0110 [0x66] (State.place 0x0010 [0x55] { State.reset with x := 0x20 })))
      (fun t => t.a) = some 0x55 := by decide

/-- V1.4, R113: LDA $F0,X (ZP_WRAP=false). -/
theorem test_v1_4_ldaZpX :
    seen (run1 0x0300 [0xB5, 0xF0] (State.place 0x0110 [0x66] (State.place 0x0010 [0x55] { State.reset with cfg := { Config.default with zpWrap := false }, x := 0x20 })))
      (fun t => t.a) = some 0x66 := by decide

/-- V1.8, R115: LDA $1234. -/
theorem test_v1_8_ldaAbs :
    seen (run1 0x0300 [0xAD, 0x12, 0x34] (State.place 0x1234 [0x99] State.reset))
      (fun t => (t.a, t.flags.n)) = some (0x99, true) := by decide

/-- V1.9, R116: LDA $12F0,X. -/
theorem test_v1_9_ldaAbsX :
    seen (run1 0x0300 [0xBD, 0x12, 0xF0] (State.place 0x1310 [0x01] { State.reset with x := 0x20 }))
      (fun t => t.a) = some 0x01 := by decide

/-- V1.10, R116: LDA $FFF0,X. -/
theorem test_v1_10_ldaAbsX :
    faultAt (run1 0x0300 [0xBD, 0xFF, 0xF0] { State.reset with x := 0x20 }) =
      some (0x10010) := by decide

/-- V1.11, R117: LDA $FFFF,Y. -/
theorem test_v1_11_ldaAbsY :
    seen (run1 0x0300 [0xB9, 0xFF, 0xFF] (State.place 0xFFFF [0x7E] { State.reset with y := 0x00 }))
      (fun t => t.a) = some 0x7E := by decide

/-- V2.1, R130: LDA #$00. -/
theorem test_v2_1_ldaImm :
    seen (run1 0x0300 [0xA9, 0x00] { State.reset with a := 0x12, flags := { Flags.clear with n := true } })
      (fun t => (t.a, packFlags t.flags)) = some (0x00, 0x0002) := by decide

/-- V2.2, R130: LDA #$80. -/
theorem test_v2_2_ldaImm :
    seen (run1 0x0300 [0xA9, 0x80] { State.reset with flags := { Flags.clear with z := true } })
      (fun t => (t.a, packFlags t.flags)) = some (0x80, 0x0040) := by decide

/-- V2.5, R131: LDX #$00. -/
theorem test_v2_5_ldxImm :
    seen (run1 0x0300 [0xA2, 0x00] { State.reset with x := 0x05 })
      (fun t => (t.x, packFlags t.flags)) = some (0x00, 0x0002) := by decide

/-- V2.6, R131: LDX $10. -/
theorem test_v2_6_ldxZp :
    seen (run1 0x0300 [0xA6, 0x10] (State.place 0x0010 [0xC3] State.reset))
      (fun t => (t.x, t.flags.n)) = some (0xC3, true) := by decide

/-- V1.6, R114: LDX $FF,Y. -/
theorem test_v1_6_ldxZpY :
    seen (run1 0x0300 [0xB6, 0xFF] (State.place 0x01FE [0x02] (State.place 0x00FE [0x01] { State.reset with y := 0xFF })))
      (fun t => t.x) = some 0x01 := by decide

/-- V1.7, R114: LDX $FF,Y (ZP_WRAP=false). -/
theorem test_v1_7_ldxZpY :
    seen (run1 0x0300 [0xB6, 0xFF] (State.place 0x01FE [0x02] (State.place 0x00FE [0x01] { State.reset with cfg := { Config.default with zpWrap := false }, y := 0xFF })))
      (fun t => t.x) = some 0x02 := by decide

/-- V2.7, R131: LDX $1234. -/
theorem test_v2_7_ldxAbs :
    seen (run1 0x0300 [0xAE, 0x12, 0x34] (State.place 0x1234 [0x7F] State.reset))
      (fun t => t.x) = some 0x7F := by decide

/-- V2.8, R131: LDX $1234,Y. -/
theorem test_v2_8_ldxAbsY :
    seen (run1 0x0300 [0xBE, 0x12, 0x34] (State.place 0x1236 [0x80] { State.reset with y := 0x02 }))
      (fun t => (t.x, t.flags.n)) = some (0x80, true) := by decide

/-- V2.9, R132: LDY #$FF. -/
theorem test_v2_9_ldyImm :
    seen (run1 0x0300 [0xA0, 0xFF] State.reset)
      (fun t => (t.y, t.flags.n)) = some (0xFF, true) := by decide

/-- V2.10, R132: LDY $10. -/
theorem test_v2_10_ldyZp :
    seen (run1 0x0300 [0xA4, 0x10] (State.place 0x0010 [0x00] { State.reset with flags := { Flags.clear with n := true } }))
      (fun t => (t.y, packFlags t.flags)) = some (0x00, 0x0002) := by decide

/-- V2.11, R132: LDY $10,X. -/
theorem test_v2_11_ldyZpX :
    seen (run1 0x0300 [0xB4, 0x10] (State.place 0x0005 [0x09] { State.reset with x := 0xF5 }))
      (fun t => t.y) = some 0x09 := by decide

/-- V2.12, R132: LDY $1234. -/
theorem test_v2_12_ldyAbs :
    seen (run1 0x0300 [0xAC, 0x12, 0x34] (State.place 0x1234 [0x01] State.reset))
      (fun t => t.y) = some 0x01 := by decide

/-- V2.13, R132: LDY $1234,X. -/
theorem test_v2_13_ldyAbsX :
    seen (run1 0x0300 [0xBC, 0x12, 0x34] (State.place 0x1244 [0x90] { State.reset with x := 0x10 }))
      (fun t => (t.y, t.flags.n)) = some (0x90, true) := by decide

/-- V2.14, R133: STA $10. -/
theorem test_v2_14_staZp :
    seen (run1 0x0300 [0x85, 0x10] { State.reset with a := 0x77, flags := { Flags.clear with z := true } })
      (fun t => (t.mem.read 0x0010, packFlags t.flags)) = some (0x77, 0x0002) := by decide

/-- V2.15, R133: STA $10,X. -/
theorem test_v2_15_staZpX :
    seen (run1 0x0300 [0x95, 0x10] { State.reset with a := 0x01, x := 0xF1 })
      (fun t => t.mem.read 0x0001) = some 0x01 := by decide

/-- V2.16, R133: STA $F000. -/
theorem test_v2_16_staAbs :
    seen (run1 0x0300 [0x8D, 0xF0, 0x00] { State.reset with a := 0x48 })
      (fun t => (t.mem.read 0xF000, t.outLog)) = some (0x48, [0x48]) := by decide

/-- V2.17, R133: STA $1234,X. -/
theorem test_v2_17_staAbsX :
    seen (run1 0x0300 [0x9D, 0x12, 0x34] { State.reset with a := 0xAA, x := 0x01 })
      (fun t => t.mem.read 0x1235) = some 0xAA := by decide

/-- V2.18, R133: STA $1234,Y. -/
theorem test_v2_18_staAbsY :
    seen (run1 0x0300 [0x99, 0x12, 0x34] { State.reset with a := 0xBB, y := 0x02 })
      (fun t => t.mem.read 0x1236) = some 0xBB := by decide

/-- V2.19, R133: STA $FFFF,X. -/
theorem test_v2_19_staAbsX :
    faultAt (run1 0x0300 [0x9D, 0xFF, 0xFF] { State.reset with a := 0xCC, x := 0x01 }) =
      some (0x10000) := by decide

/-- V2.20, R133: STA $EFFF,Y (EA = OUT_ADDR). -/
theorem test_v2_20_staAbsY :
    seen (run1 0x0300 [0x99, 0xEF, 0xFF] { State.reset with a := 0x21, y := 0x01 })
      (fun t => t.outLog) = some [0x21] := by decide

/-- V2.21, R134: STX $10. -/
theorem test_v2_21_stxZp :
    seen (run1 0x0300 [0x86, 0x10] { State.reset with x := 0x5A })
      (fun t => t.mem.read 0x0010) = some 0x5A := by decide

/-- V2.22, R134: STX $10,Y. -/
theorem test_v2_22_stxZpY :
    seen (run1 0x0300 [0x96, 0x10] { State.reset with x := 0x5B, y := 0x03 })
      (fun t => t.mem.read 0x0013) = some 0x5B := by decide

/-- V2.23, R134: STX $1234. -/
theorem test_v2_23_stxAbs :
    seen (run1 0x0300 [0x8E, 0x12, 0x34] { State.reset with x := 0x5C })
      (fun t => t.mem.read 0x1234) = some 0x5C := by decide

/-- V2.24, R135: STY $10. -/
theorem test_v2_24_styZp :
    seen (run1 0x0300 [0x84, 0x10] { State.reset with y := 0x6A })
      (fun t => t.mem.read 0x0010) = some 0x6A := by decide

/-- V2.25, R135: STY $10,X. -/
theorem test_v2_25_styZpX :
    seen (run1 0x0300 [0x94, 0x10] { State.reset with y := 0x6B, x := 0x04 })
      (fun t => t.mem.read 0x0014) = some 0x6B := by decide

/-- V2.26, R135: STY $F000. -/
theorem test_v2_26_styAbs :
    seen (run1 0x0300 [0x8C, 0xF0, 0x00] { State.reset with y := 0x69 })
      (fun t => (t.mem.read 0xF000, t.outLog)) = some (0x69, [0x69]) := by decide

/-- V3.4, R150: ADC #$80. -/
theorem test_v3_4_adcImm :
    seen (run1 0x0300 [0x69, 0x80] { State.reset with a := 0x80 })
      (fun t => (t.a, packFlags t.flags)) = some (0x00, 0x0023) := by decide

/-- V3.8, R150: ADC #$01 with D=1 (binary). -/
theorem test_v3_8_adcImm :
    seen (run1 0x0300 [0x69, 0x01] { State.reset with a := 0x09, flags := { Flags.clear with d := true } })
      (fun t => (t.a, packFlags t.flags)) = some (0x0A, 0x0008) := by decide

/-- V3.10, R150: ADC $10. -/
theorem test_v3_10_adcZp :
    seen (run1 0x0300 [0x65, 0x10] (State.place 0x0010 [0x02] { State.reset with a := 0x01 }))
      (fun t => t.a) = some 0x03 := by decide

/-- V3.11, R150: ADC $10,X. -/
theorem test_v3_11_adcZpX :
    seen (run1 0x0300 [0x75, 0x10] (State.place 0x0011 [0x03] { State.reset with a := 0x01, x := 0x01 }))
      (fun t => t.a) = some 0x04 := by decide

/-- V3.12, R150: ADC $1234. -/
theorem test_v3_12_adcAbs :
    seen (run1 0x0300 [0x6D, 0x12, 0x34] (State.place 0x1234 [0x04] { State.reset with a := 0x01 }))
      (fun t => t.a) = some 0x05 := by decide

/-- V3.13, R150: ADC $1234,X. -/
theorem test_v3_13_adcAbsX :
    seen (run1 0x0300 [0x7D, 0x12, 0x34] (State.place 0x1235 [0x05] { State.reset with a := 0x01, x := 0x01 }))
      (fun t => t.a) = some 0x06 := by decide

/-- V3.14, R150: ADC $1234,Y. -/
theorem test_v3_14_adcAbsY :
    seen (run1 0x0300 [0x79, 0x12, 0x34] (State.place 0x1236 [0x06] { State.reset with a := 0x01, y := 0x02 }))
      (fun t => t.a) = some 0x07 := by decide

/-- V3.15, R151: AND #$0F. -/
theorem test_v3_15_andImm :
    seen (run1 0x0300 [0x29, 0x0F] { State.reset with a := 0xF0, flags := { Flags.clear with c := true, v := true } })
      (fun t => (t.a, packFlags t.flags)) = some (0x00, 0x0023) := by decide

/-- V3.17, R151: AND $10,X. -/
theorem test_v3_17_andZpX :
    seen (run1 0x0300 [0x35, 0x10] (State.place 0x0012 [0x0F] { State.reset with a := 0x3C, x := 0x02 }))
      (fun t => t.a) = some 0x0C := by decide

/-- V3.18, R152: ORA #$0F. -/
theorem test_v3_18_oraImm :
    seen (run1 0x0300 [0x09, 0x0F] { State.reset with a := 0xF0 })
      (fun t => (t.a, packFlags t.flags)) = some (0xFF, 0x0040) := by decide

/-- V3.20, R152: ORA $1234,Y. -/
theorem test_v3_20_oraAbsY :
    seen (run1 0x0300 [0x19, 0x12, 0x34] (State.place 0x1235 [0x02] { State.reset with a := 0x01, y := 0x01 }))
      (fun t => t.a) = some 0x03 := by decide

/-- V3.22, R153: EOR #$F0. -/
theorem test_v3_22_eorImm :
    seen (run1 0x0300 [0x49, 0xF0] { State.reset with a := 0x0F })
      (fun t => (t.a, packFlags t.flags)) = some (0xFF, 0x0040) := by decide

/-- V3.23, R153: EOR $10. -/
theorem test_v3_23_eorZp :
    seen (run1 0x0300 [0x45, 0x10] (State.place 0x0010 [0xAA] { State.reset with a := 0x55 }))
      (fun t => t.a) = some 0xFF := by decide

/-- V4.2, R154: CMP #$05, a=3 (source §8). -/
theorem test_v4_2_cmpImm :
    seen (run1 0x0300 [0xC9, 0x05] { State.reset with a := 0x03 })
      (fun t => packFlags t.flags) = some 0x0040 := by decide

/-- V4.7, R154: CMP #$FF, a=0xFF, V=1. -/
theorem test_v4_7_cmpImm :
    seen (run1 0x0300 [0xC9, 0xFF] { State.reset with a := 0xFF, flags := { Flags.clear with v := true } })
      (fun t => packFlags t.flags) = some 0x0023 := by decide

/-- V4.8, R154: CMP $1234,X. -/
theorem test_v4_8_cmpAbsX :
    seen (run1 0x0300 [0xDD, 0x12, 0x34] (State.place 0x1235 [0x10] { State.reset with a := 0x10, x := 0x01 }))
      (fun t => packFlags t.flags) = some 0x0003 := by decide

/-- V4.9, R155: CPX #$05, x=5. -/
theorem test_v4_9_cpxImm :
    seen (run1 0x0300 [0xE0, 0x05] { State.reset with x := 0x05 })
      (fun t => packFlags t.flags) = some 0x0003 := by decide

/-- V4.10, R155: CPX $10, x=3. -/
theorem test_v4_10_cpxZp :
    seen (run1 0x0300 [0xE4, 0x10] (State.place 0x0010 [0x05] { State.reset with x := 0x03 }))
      (fun t => packFlags t.flags) = some 0x0040 := by decide

/-- V4.11, R155: CPX $1234, x=0xFF. -/
theorem test_v4_11_cpxAbs :
    seen (run1 0x0300 [0xEC, 0x12, 0x34] (State.place 0x1234 [0x00] { State.reset with x := 0xFF }))
      (fun t => packFlags t.flags) = some 0x0041 := by decide

/-- V4.12, R156: CPY #$05, y=3. -/
theorem test_v4_12_cpyImm :
    seen (run1 0x0300 [0xC0, 0x05] { State.reset with y := 0x03 })
      (fun t => packFlags t.flags) = some 0x0040 := by decide

/-- V4.13, R156: CPY $10, y=0x40. -/
theorem test_v4_13_cpyZp :
    seen (run1 0x0300 [0xC4, 0x10] (State.place 0x0010 [0x40] { State.reset with y := 0x40 }))
      (fun t => packFlags t.flags) = some 0x0003 := by decide

/-- V4.14, R156: CPY $1234, y=0x00. -/
theorem test_v4_14_cpyAbs :
    seen (run1 0x0300 [0xCC, 0x12, 0x34] (State.place 0x1234 [0x00] { State.reset with y := 0x00 }))
      (fun t => packFlags t.flags) = some 0x0003 := by decide

/-- V5.1, R157: INC $10. -/
theorem test_v5_1_incZp :
    seen (run1 0x0300 [0xE6, 0x10] (State.place 0x0010 [0xFF] { State.reset with flags := { Flags.clear with c := true } }))
      (fun t => (t.mem.read 0x0010, packFlags t.flags)) = some (0x00, 0x0003) := by decide

/-- V5.2, R157: INC $10,X. -/
theorem test_v5_2_incZpX :
    seen (run1 0x0300 [0xF6, 0x10] (State.place 0x0011 [0x7F] { State.reset with x := 0x01 }))
      (fun t => (t.mem.read 0x0011, packFlags t.flags)) = some (0x80, 0x0040) := by decide

/-- V5.3, R157: INC $F000. -/
theorem test_v5_3_incAbs :
    seen (run1 0x0300 [0xEE, 0xF0, 0x00] (State.place 0xF000 [0x40] State.reset))
      (fun t => (t.mem.read 0xF000, t.outLog)) = some (0x41, [0x41]) := by decide

/-- V5.4, R157: INC $1234,X. -/
theorem test_v5_4_incAbsX :
    seen (run1 0x0300 [0xFE, 0x12, 0x34] (State.place 0x1235 [0x00] { State.reset with x := 0x01 }))
      (fun t => t.mem.read 0x1235) = some 0x01 := by decide

/-- V5.5, R157: INC $FFFF,X. -/
theorem test_v5_5_incAbsX :
    faultAt (run1 0x0300 [0xFE, 0xFF, 0xFF] { State.reset with x := 0x01 }) =
      some (0x10000) := by decide

/-- V5.6, R158: DEC $10. -/
theorem test_v5_6_decZp :
    seen (run1 0x0300 [0xC6, 0x10] (State.place 0x0010 [0x00] State.reset))
      (fun t => (t.mem.read 0x0010, packFlags t.flags)) = some (0xFF, 0x0040) := by decide

/-- V5.7, R158: DEC $10,X. -/
theorem test_v5_7_decZpX :
    seen (run1 0x0300 [0xD6, 0x10] (State.place 0x000F [0x01] { State.reset with x := 0xFF }))
      (fun t => (t.mem.read 0x000F, packFlags t.flags)) = some (0x00, 0x0002) := by decide

/-- V5.8, R158: DEC $1234. -/
theorem test_v5_8_decAbs :
    seen (run1 0x0300 [0xCE, 0x12, 0x34] (State.place 0x1234 [0x01] State.reset))
      (fun t => (t.mem.read 0x1234, packFlags t.flags)) = some (0x00, 0x0002) := by decide

/-- V5.9, R158: DEC $1234,X. -/
theorem test_v5_9_decAbsX :
    seen (run1 0x0300 [0xDE, 0x12, 0x34] (State.place 0x1236 [0x81] { State.reset with x := 0x02 }))
      (fun t => (t.mem.read 0x1236, packFlags t.flags)) = some (0x80, 0x0040) := by decide

/-- V5.10, R161: INX. -/
theorem test_v5_10_inx :
    seen (run1 0x0300 [0xE8] { State.reset with x := 0xFF })
      (fun t => (t.x, packFlags t.flags)) = some (0x00, 0x0002) := by decide

/-- V5.12, R162: INY. -/
theorem test_v5_12_iny :
    seen (run1 0x0300 [0xC8] { State.reset with y := 0x00, flags := { Flags.clear with z := true } })
      (fun t => (t.y, packFlags t.flags)) = some (0x01, 0x0000) := by decide

/-- V5.13, R163: DEX. -/
theorem test_v5_13_dex :
    seen (run1 0x0300 [0xCA] { State.reset with x := 0x00 })
      (fun t => (t.x, packFlags t.flags)) = some (0xFF, 0x0040) := by decide

/-- V5.15, R164: DEY. -/
theorem test_v5_15_dey :
    seen (run1 0x0300 [0x88] { State.reset with y := 0x80 })
      (fun t => (t.y, packFlags t.flags)) = some (0x7F, 0x0000) := by decide

/-- V6.1, R180: JMP $0300 from STARTUP_PC. -/
theorem test_v6_1_jmp :
    seen (run1 0xFFFC [0x4C, 0x03, 0x00] State.reset)
      (fun t => t.pc) = some 0x0300 := by decide

/-- V6.3, R180: JMP at 0xFFFE (operand byte at 0x10000). -/
theorem test_v6_3_jmp :
    faultAt (run1 0xFFFE [0x4C, 0x12] State.reset) =
      some (0x10000) := by decide

/-- V6.4, R181: JSR $0400. -/
theorem test_v6_4_jsr :
    seen (run1 0x0300 [0x20, 0x04, 0x00] State.reset)
      (fun t => (t.pc, t.mem.read 0x01FE, t.mem.read 0x01FF)) = some (0x0400, 0x03, 0x03) := by decide

/-- V6.5, R181: JSR $0400 at 0xFFFD (return address 0x10000). -/
theorem test_v6_5_jsr :
    faultAt (run1 0xFFFD [0x20, 0x04, 0x00] State.reset) =
      some (0x10000) := by decide

/-- V6.7, R182: RTS. -/
theorem test_v6_7_rts :
    seen (run1 0x0300 [0x60] (State.place 0x01FE [0x03, 0x03] { State.reset with sp := 0x01FE }))
      (fun t => (t.pc, t.sp)) = some (0x0303, 0x0200) := by decide

/-- V6.9, R182: RTS with sp=0xFFFE. -/
theorem test_v6_9_rts :
    faultAt (run1 0x0300 [0x60] (State.place 0xFFFE [0x03, 0x00] { State.reset with sp := 0xFFFE })) =
      some (0x10000) := by decide

/-- V6.10, R186: BCC, C=0. -/
theorem test_v6_10_bcc :
    seen (run1 0x0300 [0x90, 0x05] State.reset)
      (fun t => t.pc) = some 0x0307 := by decide

/-- V6.11, R186: BCC, C=1. -/
theorem test_v6_11_bcc :
    seen (run1 0x0300 [0x90, 0x05] { State.reset with flags := { Flags.clear with c := true } })
      (fun t => t.pc) = some 0x0302 := by decide

/-- V6.12, R187: BCS back, C=1. -/
theorem test_v6_12_bcs :
    seen (run1 0x0310 [0xB0, 0xFC] { State.reset with flags := { Flags.clear with c := true } })
      (fun t => t.pc) = some 0x030E := by decide

/-- V6.14, R187: BCS at 0x0000, r=0x80. -/
theorem test_v6_14_bcs :
    faultAt (run1 0x0000 [0xB0, 0x80] { State.reset with flags := { Flags.clear with c := true } }) =
      some (-126) := by decide

/-- V6.15, R188: BEQ, Z=1, r=0x7F. -/
theorem test_v6_15_beq :
    seen (run1 0x0300 [0xF0, 0x7F] { State.reset with flags := { Flags.clear with z := true } })
      (fun t => t.pc) = some 0x0381 := by decide

/-- V6.16, R188: BEQ, Z=0. -/
theorem test_v6_16_beq :
    seen (run1 0x0300 [0xF0, 0x7F] State.reset)
      (fun t => t.pc) = some 0x0302 := by decide

/-- V6.17, R189: BNE, Z=0, r=0x80. -/
theorem test_v6_17_bne :
    seen (run1 0x0300 [0xD0, 0x80] State.reset)
      (fun t => t.pc) = some 0x0282 := by decide

/-- V6.19, R189: BNE at 0xFFFE, Z=1 (not taken). -/
theorem test_v6_19_bne :
    faultAt (run1 0xFFFE [0xD0, 0x00] { State.reset with flags := { Flags.clear with z := true } }) =
      some (0x10000) := by decide

/-- V6.20, R190: BMI, N=1. -/
theorem test_v6_20_bmi :
    seen (run1 0x0300 [0x30, 0x02] { State.reset with flags := { Flags.clear with n := true } })
      (fun t => t.pc) = some 0x0304 := by decide

/-- V6.21, R190: BMI, N=0. -/
theorem test_v6_21_bmi :
    seen (run1 0x0300 [0x30, 0x02] State.reset)
      (fun t => t.pc) = some 0x0302 := by decide

/-- V6.22, R191: BPL, N=0. -/
theorem test_v6_22_bpl :
    seen (run1 0x0300 [0x10, 0x02] State.reset)
      (fun t => t.pc) = some 0x0304 := by decide

/-- V6.23, R191: BPL, N=1. -/
theorem test_v6_23_bpl :
    seen (run1 0x0300 [0x10, 0x02] { State.reset with flags := { Flags.clear with n := true } })
      (fun t => t.pc) = some 0x0302 := by decide

/-- V6.24, R192: BVC, V=0. -/
theorem test_v6_24_bvc :
    seen (run1 0x0300 [0x50, 0x10] State.reset)
      (fun t => t.pc) = some 0x0312 := by decide

/-- V6.25, R192: BVC, V=1. -/
theorem test_v6_25_bvc :
    seen (run1 0x0300 [0x50, 0x10] { State.reset with flags := { Flags.clear with v := true } })
      (fun t => t.pc) = some 0x0302 := by decide

/-- V6.26, R193: BVS, V=1. -/
theorem test_v6_26_bvs :
    seen (run1 0x0300 [0x70, 0x10] { State.reset with flags := { Flags.clear with v := true } })
      (fun t => t.pc) = some 0x0312 := by decide

/-- V6.27, R193: BVS, V=0. -/
theorem test_v6_27_bvs :
    seen (run1 0x0300 [0x70, 0x10] State.reset)
      (fun t => t.pc) = some 0x0302 := by decide

/-- V7.1, R200: PHA. -/
theorem test_v7_1_pha :
    seen (run1 0x0300 [0x48] { State.reset with a := 0x5A })
      (fun t => (t.sp, t.mem.read 0x01FF)) = some (0x01FE, 0x5A) := by decide

/-- V7.3, R200: PHA with sp=0xF002 (push onto OUT_ADDR). -/
theorem test_v7_3_pha :
    seen (run1 0x0300 [0x48] { State.reset with a := 0x5A, sp := 0xF002 })
      (fun t => (t.sp, t.outLog)) = some (0xF000, [0x00]) := by decide

/-- V7.4, R201: PLA. -/
theorem test_v7_4_pla :
    seen (run1 0x0300 [0x68] (State.place 0x01FE [0x12, 0x80] { State.reset with sp := 0x01FE }))
      (fun t => (t.sp, t.a)) = some (0x0200, 0x80) := by decide

/-- V7.5, R201: PLA of 0x0000. -/
theorem test_v7_5_pla :
    seen (run1 0x0300 [0x68] { State.reset with sp := 0x01FE, flags := { Flags.clear with n := true } })
      (fun t => (t.a, packFlags t.flags)) = some (0x00, 0x0002) := by decide

/-- V7.6, R202: PHP, C=1 Z=1. -/
theorem test_v7_6_php :
    seen (run1 0x0300 [0x08] { State.reset with flags := { Flags.clear with c := true, z := true } })
      (fun t => (t.sp, t.mem.read 0x01FF)) = some (0x01FE, 0x03) := by decide

/-- V7.7, R202: PHP, all flags 1. -/
theorem test_v7_7_php :
    seen (run1 0x0300 [0x08] { State.reset with flags := { Flags.clear with c := true, z := true, i := true, d := true, b := true, v := true, n := true } })
      (fun t => t.mem.read 0x01FF) = some 0x7F := by decide

/-- V7.8, R203: PLP of 0x0041. -/
theorem test_v7_8_plp :
    seen (run1 0x0300 [0x28] (State.place 0x01FE [0x00, 0x41] { State.reset with sp := 0x01FE }))
      (fun t => (t.sp, packFlags t.flags)) = some (0x0200, 0x0041) := by decide

/-- V7.9, R203: PLP of 0xFFFF. -/
theorem test_v7_9_plp :
    seen (run1 0x0300 [0x28] (State.place 0x01FE [0xFF, 0xFF] { State.reset with sp := 0x01FE }))
      (fun t => packFlags t.flags) = some 0x007F := by decide

/-- V7.11, R210: CLC. -/
theorem test_v7_11_clc :
    seen (run1 0x0300 [0x18] { State.reset with flags := { Flags.clear with c := true } })
      (fun t => packFlags t.flags) = some 0x0000 := by decide

/-- V7.12, R211: CLD. -/
theorem test_v7_12_cld :
    seen (run1 0x0300 [0xD8] { State.reset with flags := { Flags.clear with d := true } })
      (fun t => packFlags t.flags) = some 0x0000 := by decide

/-- V7.13, R212: CLV. -/
theorem test_v7_13_clv :
    seen (run1 0x0300 [0xB8] { State.reset with flags := { Flags.clear with v := true } })
      (fun t => packFlags t.flags) = some 0x0000 := by decide

/-- V7.14, R213: CLI. -/
theorem test_v7_14_cli :
    seen (run1 0x0300 [0x58] { State.reset with flags := { Flags.clear with i := true } })
      (fun t => packFlags t.flags) = some 0x0000 := by decide

/-- V7.15, R214: NOP. -/
theorem test_v7_15_nop :
    seen (run1 0x0300 [0xEA] State.reset)
      (fun t => (t.pc, packFlags t.flags)) = some (0x0301, 0x0000) := by decide

/-- V7.16, R214: NOP at 0xFFFF (pc would be 0x10000). -/
theorem test_v7_16_nop :
    faultAt (run1 0xFFFF [0xEA] State.reset) =
      some (0x10000) := by decide

/-- V8.3, R220: BRK #$02 with N=1 C=1 I=1. -/
theorem test_v8_3_brk :
    seen (run1 0x0300 [0x00, 0x02] (State.place 0xFFF0 [0x06, 0x00, 0x04, 0x00, 0x04, 0x80, 0x05, 0x00, 0x07, 0x00] { State.reset with flags := { Flags.clear with c := true, i := true, n := true } }))
      (fun t => (t.pc, t.mem.read 0x01FD, t.mem.read 0x01FE, t.mem.read 0x01FF)) = some (0x0480, 0x45, 0x03, 0x02) := by decide

/-- V8.5, R220: BRK #$05 (reserved slot). -/
theorem test_v8_5_brk :
    seen (run1 0x0300 [0x00, 0x05] (State.place 0xFFF0 [0x06, 0x00, 0x04, 0x00, 0x04, 0x80, 0x05, 0x00, 0x07, 0x00] State.reset))
      (fun t => (t.pc, t.mem.read 0x01FE, t.mem.read 0x01FF)) = some (0x0500, 0x03, 0x02) := by decide

/-- V8.10, R221: RTI restoring N, V, C. -/
theorem test_v8_10_rti :
    seen (run1 0x0300 [0x40] (State.place 0x01FC [0x00, 0x61, 0x12, 0x34] { State.reset with sp := 0x01FC }))
      (fun t => (t.pc, packFlags t.flags)) = some (0x1234, 0x0061) := by decide

/-- V8.11, R221: RTI with sp=0xFFFC. -/
theorem test_v8_11_rti :
    faultAt (run1 0x0300 [0x40] (State.place 0xFFFC [0x00, 0x00, 0x03, 0x00] { State.reset with sp := 0xFFFC })) =
      some (0x10000) := by decide

/-- V8.12, R238: invalid opcode 0x02. -/
theorem test_v8_12_invalidOpcode :
    seen (run1 0x0300 [0x02] (State.place 0xFFF0 [0x06, 0x00, 0x04, 0x00, 0x04, 0x80, 0x05, 0x00, 0x07, 0x00] State.reset))
      (fun t => (t.pc, t.mem.read 0x01FE, t.mem.read 0x01FF, t.mem.read 0x0200)) = some (0x0500, 0x03, 0x01, 0x02) := by decide

/-- V8.16, R238: invalid opcode at 0xFFFF (return address 0x10000). -/
theorem test_v8_16_invalidOpcode :
    faultAt (run1 0xFFFF [0x02] (State.place 0xFFF0 [0x06, 0x00, 0x04, 0x00, 0x04, 0x80, 0x05, 0x00, 0x07, 0x00] State.reset)) =
      some (0x10000) := by decide

/-! ## Witnesses: for each statement with hypotheses, values that meet them, at the ends of each clause's range -/

/-- The reset state with `pc` and `sp` put elsewhere. -/
def stateAt (pc sp : Word) : State := { State.reset with pc := pc, sp := sp }

/-- The reset state with an instruction's bytes at a place where `pc` stands. -/
def stateWith (pc sp : Word) (bytes : List Byte) : State := State.place pc.toNat bytes (stateAt pc sp)

/-- An instruction answers a next state. -/
def answers (r : StepResult) : Bool := (nextOf r).isSome

/-- A run of some steps answers a state. -/
theorem safeRun_of_isSome {k : Nat} {s : State} (h : (nextOf (runSteps k s)).isSome = true) : SafeRun k s := by
  unfold SafeRun
  cases hr : runSteps k s with
  | next t => exact ⟨t, rfl⟩
  | fault f => rw [hr] at h; cases h
  | refused r => rw [hr] at h; cases h

theorem test_witness_EncodeOfDecode :
    decode [0xA9, 0x48, 0xEA] = .instr (.ldaImm 0x48) [0xEA] ∧ decode [0x20, 0xFF, 0xFF] = .instr (.jsr 0xFFFF) [] := by
  decide

/-- One, two and three bytes, the last of them at 0xFFFF. -/
theorem test_witness_StepRunsDecodedInstruction :
    ((stateWith 0xFFFF 0x0200 [0xE8]).running ∧ decode (stateWith 0xFFFF 0x0200 [0xE8]).bytesAtPc = .instr .inx []) ∧
    ((stateWith 0xFFFE 0x0200 [0xA9, 0x48]).running ∧
      decode (stateWith 0xFFFE 0x0200 [0xA9, 0x48]).bytesAtPc = .instr (.ldaImm 0x48) []) ∧
    ((stateWith 0xFFFD 0x0200 [0x4C, 0x12, 0x34]).running ∧
      decode (stateWith 0xFFFD 0x0200 [0x4C, 0x12, 0x34]).bytesAtPc = .instr (.jmp 0x1234) []) := by
  unfold State.running
  decide

theorem test_witness_InvalidOpcodeEntry :
    ((stateWith 0xFFFE 4 [0x02]).running ∧
      (stateWith 0xFFFE 4 [0x02]).mem.read (stateWith 0xFFFE 4 [0x02]).pc.toNat ∈ invalidOpcodes ∧
      (stateWith 0xFFFE 4 [0x02]).pc.toNat + 1 < memSize ∧ 4 ≤ (stateWith 0xFFFE 4 [0x02]).sp.toNat) ∧
    ((stateWith 0xFFFD 4 [0x00, 0x05]).running ∧
      decode (stateWith 0xFFFD 4 [0x00, 0x05]).bytesAtPc = .instr (.brk 0x05) [0x00] ∧ 5 ≤ (0x05 : Byte).toNat ∧
      (stateWith 0xFFFD 4 [0x00, 0x05]).pc.toNat + 2 < memSize ∧ 4 ≤ (stateWith 0xFFFD 4 [0x00, 0x05]).sp.toNat) := by
  unfold State.running
  decide

theorem test_witness_OperandFetchPastTopFaults :
    ((stateWith 0xFFFF 0x0200 [0xA9]).running ∧ decode (stateWith 0xFFFF 0x0200 [0xA9]).bytesAtPc = .truncated) ∧
    ((stateWith 0xFFFF 0x0200 [0x4C]).running ∧ decode (stateWith 0xFFFF 0x0200 [0x4C]).bytesAtPc = .truncated) ∧
    ((stateWith 0xFFFE 0x0200 [0x4C, 0x12]).running ∧
      decode (stateWith 0xFFFE 0x0200 [0x4C, 0x12]).bytesAtPc = .truncated) := by
  unfold State.running
  decide

theorem test_witness_FaultedEngineIsStuck :
    ({ State.reset with fault := some (.outOfRange (-2)) } : State).cfg.valid = true ∧
    ({ State.reset with fault := some (.outOfRange (-2)) } : State).fault = some (.outOfRange (-2)) := by decide

/-- Each of the four kinds of bad parameter, at the value nearest to a good one. -/
theorem test_witness_BadConfigurationRefused :
    let bad : Config := { Config.default with vecHalt := 0xFFFF }
    (∃ v ∈ [bad.vecReset, bad.vecUser1, bad.vecUser2, bad.vecInvalid, bad.vecHalt], 0xFFFE < v.toNat) ∧
    ({ Config.default with spInit := 0x0003 } : Config).spInit.toNat % 2 = 1 ∧
    ({ Config.default with spInit := 0x0000 } : Config).spInit.toNat < 2 ∧
    0xFFFE < ({ Config.default with spInit := 0xFFFF } : Config).spInit.toNat := by decide

/-- The reset state meets the invariant, and a step from it answers (`BRK #$00` at 0xFFFC, its vector entry 0). -/
theorem test_witness_StepKeepsInvariant :
    State.reset.Inv ∧ answers (step State.reset) = true := by
  unfold State.Inv
  decide

theorem test_witness_RunKeepsInvariant : State.reset.Inv ∧ SafeRun 2 State.reset := by
  refine ⟨?_, safeRun_of_isSome (by decide)⟩
  unfold State.Inv
  decide

/-- An odd sp before a host reset; an image that ends at 0xFFFF and holds a zero byte. -/
theorem test_witness_ResetMeetsInvariant :
    ({ State.reset with sp := 0x0201, cfg := { Config.default with spInit := 0xFFFE } } : State).cfg.valid = true ∧
    State.reset.Inv ∧ answers (loadImage 0xFFFD [0x01, 0x00, 0x02] State.reset) = true := by
  unfold State.Inv
  decide

/-- A step that answers and a step that faults, `sp` even before both. -/
theorem test_witness_StackPointerStaysEven :
    State.reset.cfg.valid = true ∧
    (answers (step State.reset) = true ∧ State.reset.sp.toNat % 2 = 0) ∧
    (faultAt (step (stateWith 0xFFFC 2 [0x00, 0x01])) = some (-2) ∧ (stateWith 0xFFFC 2 [0x00, 0x01]).sp.toNat % 2 = 0) := by
  decide

/-- An image that ends at 0xFFFF, one byte below it, and one that is a byte too long. -/
theorem test_witness_LoadImageWrites :
    State.reset.mem.wf = true ∧ 0xFFFE + [(1 : Byte), 2].length ≤ memSize ∧ 1 < [(1 : Byte), 2].length ∧
    (0xFFFD < 0xFFFE ∨ 0xFFFE + [(1 : Byte), 2].length ≤ 0xFFFD) ∧ memSize < 0xFFFF + [(1 : Byte), 2].length := by
  decide

theorem test_witness_ExecuteRunsShortestPrefix : State.reset.running ∧ (0 : Int) ≤ 0 ∧ (0 : Int) < 1 := by
  unfold State.running
  decide

theorem test_witness_ExecuteOneRunsOneInstruction :
    State.reset.running ∧
    answers (step { State.reset with budget := 1, engineState := .idle }) = true ∧
    (stateWith 0xFFFF 0x0200 [0xEA]).running ∧
    faultAt (step { stateWith 0xFFFF 0x0200 [0xEA] with budget := 1, engineState := .idle }) = some 0x10000 := by
  unfold State.running
  decide

theorem test_witness_UnitsPerInstruction :
    (answers (step (stateWith 0x0300 0x0200 [0xDE, 0x12, 0x34])) = true ∧
      decode (stateWith 0x0300 0x0200 [0xDE, 0x12, 0x34]).bytesAtPc = .instr (.decAbsX 0x1234) []) ∧
    (answers (step (stateWith 0x0300 0x0200 [0xFF])) = true ∧
      decode (stateWith 0x0300 0x0200 [0xFF]).bytesAtPc = .invalidOpcode 0xFF) := by decide

theorem test_witness_BudgetIsNotRead :
    answers (exec .pla State.reset) = true ∧ faultAt (exec .pla (stateAt 0x0300 0xFFFE)) = some 0x10000 := by decide

theorem test_witness_ByteAccess : 0xFFFF < memSize ∧ State.reset.cfg.outAddr.toNat < memSize ∧ memSize ≤ 0x10000 := by
  decide

/-- The last word, the address whose second byte is missing, and the first that does not exist. -/
theorem test_witness_WordByteOrder :
    0xFFFE + 1 < memSize ∧ State.reset.mem.wf = true ∧ 0xFFFF + 1 = memSize ∧ memSize ≤ 0x10000 := by decide

theorem test_witness_PushAndPull :
    (stateAt 0 0).sp.toNat < 2 ∧ (stateAt 0 1).sp.toNat < 2 ∧ 2 ≤ (stateAt 0 2).sp.toNat ∧
    2 ≤ (stateAt 0 0xFFFF).sp.toNat ∧ (stateAt 0 0xFFFD).sp.toNat + 2 ≤ 0xFFFF ∧ (stateAt 0 0xFFFE).sp.toNat = 0xFFFE ∧
    (stateAt 0 0xFFFF).sp.toNat = 0xFFFF ∧ answers (exec .pha (stateAt 0 0xFFFF)) = true ∧
    answers (exec .pla (stateAt 0 0xFFFD)) = true := by decide

theorem test_witness_CanonicalMemory :
    Memory.wf [(0, 1), (0xFFFF, 0xFF)] = true ∧
    ∀ addr, Memory.read [(0, 1), (0xFFFF, 0xFF)] addr = Memory.read [(0, 1), (0xFFFF, 0xFF)] addr :=
  ⟨by decide, fun _ => rfl⟩

theorem test_witness_EffectiveAddresses :
    State.reset.cfg.zpWrap = true ∧
    ({ State.reset with cfg := { Config.default with zpWrap := false } } : State).cfg.zpWrap = false := by decide

/-- The conditions of the statements on one instruction's result: the last place an instruction of one, two or three bytes
can stand and complete, and the last byte an indexed address can reach. They are those of LdaLoads, LdxLoads, LdyLoads,
StoresWrite, AdcAdds, BitwiseResults, ComparesSetFlags, IncDecMemory, IndexRegisterSteps and FlagClearsAndNop. -/
theorem test_witness_results :
    let s : State := { stateAt 0xFFFC 0x0200 with x := 1, y := 2 }
    (s.pc.toNat + 3 < memSize ∧ (0xFFFE : Word).toNat + s.x.toNat < memSize ∧
      (0xFFFD : Word).toNat + s.y.toNat < memSize) ∧
    (stateAt 0xFFFD 0x0200).pc.toNat + 2 < memSize ∧ (stateAt 0xFFFE 0x0200).pc.toNat + 1 < memSize := by decide

theorem test_witness_JumpCallReturn :
    (stateAt 0xFFFC 2).pc.toNat + 3 < memSize ∧ 2 ≤ (stateAt 0xFFFC 2).sp.toNat ∧
    (stateAt 0xFFFC 0xFFFD).sp.toNat + 2 < memSize := by decide

/-- Not taken at the last place and one past it; taken to 0x0000, to 0xFFFF, to -1 and to 0x10000. -/
theorem test_witness_BranchRule :
    let clear : State := stateAt 0xFFFD 0x0200
    (Instr.bcs 0x00, clear.flags.c) = (Instr.bcs 0x00, false) ∧ (Instr.bcc 0x00, !clear.flags.c) = (Instr.bcc 0x00, true) ∧
    clear.pc.toNat + 2 < memSize ∧ memSize ≤ (stateAt 0xFFFE 0x0200).pc.toNat + 2 ∧
    (stateAt 0x0000 0).pc.toNat + 2 + (0xFE : Byte).toInt = 0 ∧
    (stateAt 0xFFFC 0).pc.toNat + 2 + (0x01 : Byte).toInt = 0xFFFF ∧
    (stateAt 0x0000 0).pc.toNat + 2 + (0xFD : Byte).toInt < 0 ∧
    0xFFFF < (stateAt 0xFFFC 0).pc.toNat + 2 + (0x02 : Byte).toInt := by decide

theorem test_witness_StackPushes :
    2 ≤ (stateAt 0xFFFE 2).sp.toNat ∧ (stateAt 0xFFFE 2).pc.toNat + 1 < memSize := by decide

theorem test_witness_StackPulls :
    (stateAt 0xFFFE 0xFFFD).sp.toNat + 2 < memSize ∧ (stateAt 0xFFFE 0xFFFD).pc.toNat + 1 < memSize := by decide

theorem test_witness_EntrySequence :
    0xFFFF < 0x10000 ∧ 0xFFFF ≤ 0xFFFF ∧ 4 ≤ (stateAt 0xFFFD 4).sp.toNat ∧
    (vecAddr ({ Config.default with vecHalt := 0xFFFE }) .halt).toNat + 1 < memSize := by decide

/-- Each slot, and the least and the greatest reserved operand. -/
theorem test_witness_BrkEntersSlot :
    (stateAt 0xFFFD 4).pc.toNat + 2 < memSize ∧ 4 ≤ (stateAt 0xFFFD 4).sp.toNat ∧
    (∀ p ∈ [((0 : Byte), Slot.reset), (1, .user1), (2, .user2), (3, .invalid), (4, .halt)],
      (vecAddr (stateAt 0xFFFD 4).cfg p.2).toNat + 1 < memSize ∧
      p ∈ [((0 : Byte), Slot.reset), (1, .user1), (2, .user2), (3, .invalid), (4, .halt)]) ∧
    5 ≤ (0x05 : Byte).toNat ∧ 5 ≤ (0xFF : Byte).toNat ∧ Slot.invalid = Slot.invalid := by decide

theorem test_witness_RtiReturns : (stateAt 0 0xFFFB).sp.toNat + 4 < memSize := by decide

theorem test_witness_IndexedAccessPastTopFaults :
    let s : State := { stateAt 0x0300 0x0200 with x := 1, y := 0xFF }
    (memSize ≤ (0xFFFF : Word).toNat + s.x.toNat ∧ Instr.incAbsX 0xFFFF ∈ [Instr.staAbsX 0xFFFF, Instr.incAbsX 0xFFFF]) ∧
    (memSize ≤ (0xFF01 : Word).toNat + s.y.toNat ∧ Instr.ldxAbsY 0xFF01 ∈ [Instr.ldaAbsY 0xFF01, Instr.ldxAbsY 0xFF01]) := by
  decide

theorem test_witness_CompletionPastTopFaults :
    ((Instr.ldaImm 0x00).transfersControl = false ∧
      memSize ≤ (stateAt 0xFFFE 0x0200).pc.toNat + (encode (.ldaImm 0x00)).length) ∧
    (stateAt 0xFFFF 0x0200).pc = 0xFFFF := by decide

/-- `sp` at 0 and 1, at 2 and 3 (for BRK), at 0xFFFE, at 0xFFFC. -/
theorem test_witness_StackLimitFaults :
    ((stateAt 0xFFFC 0).sp.toNat < 2 ∧ (stateAt 0xFFFC 1).sp.toNat < 2 ∧ (stateAt 0xFFFC 1).pc.toNat + 3 < memSize ∧
      (0x04 : Byte).toNat < numSlots ∧ (stateAt 0xFFFD 1).pc.toNat + 2 < memSize) ∧
    (2 ≤ (stateAt 0xFFFD 2).sp.toNat ∧ (stateAt 0xFFFD 3).sp.toNat < 4 ∧ (0x00 : Byte).toNat < numSlots ∧
      (stateAt 0xFFFD 3).pc.toNat + 2 < memSize) ∧
    (numSlots ≤ (0x05 : Byte).toNat ∧ numSlots ≤ (0xFF : Byte).toNat) ∧
    ((stateAt 0 0xFFFE).sp = 0xFFFE ∧ Instr.rti ∈ [Instr.pla, .plp, .rts, .rti]) ∧ (stateAt 0 0xFFFC).sp = 0xFFFC := by
  decide

/-- An invalid byte at 0xFFFE, with `sp` at 1 and at 3. -/
theorem test_witness_StackLimitFaults_invalidOpcode :
    ((stateWith 0xFFFE 1 [0xFF]).running ∧ (stateWith 0xFFFE 1 [0xFF]).sp.toNat < 2 ∧
      (stateWith 0xFFFE 1 [0xFF]).mem.read 0xFFFE ∈ invalidOpcodes ∧ (stateWith 0xFFFE 1 [0xFF]).pc.toNat + 1 < memSize) ∧
    ((stateWith 0xFFFE 3 [0xFF]).running ∧ 2 ≤ (stateWith 0xFFFE 3 [0xFF]).sp.toNat ∧
      (stateWith 0xFFFE 3 [0xFF]).sp.toNat < 4) := by
  unfold State.running
  decide

theorem test_witness_ReturnAddressPastTopFaults :
    (stateAt 0xFFFD 0x0200).pc = 0xFFFD ∧ ((stateAt 0xFFFE 0x0200).pc = 0xFFFE ∧ (0x04 : Byte).toNat < numSlots) ∧
    numSlots ≤ (0x05 : Byte).toNat ∧
    ((stateWith 0xFFFF 0x0200 [0xFF]).running ∧ (stateWith 0xFFFF 0x0200 [0xFF]).pc = 0xFFFF ∧
      (stateWith 0xFFFF 0x0200 [0xFF]).mem.read 0xFFFF ∈ invalidOpcodes) := by
  unfold State.running
  decide

theorem test_witness_OnlyOutOfRangeStops : (stateAt 0 0).running := by
  unfold State.running
  decide

/-- An instruction that answers, and writes none of a, x, y. -/
theorem test_witness_RegisterFrame :
    answers (exec (.brk 0x01) State.reset) = true ∧ (Instr.brk 0x01).writesA = false ∧
    (Instr.brk 0x01).writesX = false ∧ (Instr.brk 0x01).writesY = false := by decide

theorem test_witness_FlagFrame :
    answers (exec (.staAbs 0xF000) State.reset) = true ∧ (Instr.staAbs 0xF000).writesC = false ∧
    (Instr.staAbs 0xF000).writesZN = false ∧ (Instr.staAbs 0xF000).writesV = false ∧
    (Instr.staAbs 0xF000).writesI = false ∧ (Instr.staAbs 0xF000).writesD = false ∧
    (Instr.staAbs 0xF000).writesB = false := by decide

/-- A push, and the addresses next to the two bytes it stores. -/
theorem test_witness_MemoryFrame :
    answers (exec .pha (stateAt 0x0300 0x0200)) = true ∧
    (∀ p ∈ storesOf .pha (stateAt 0x0300 0x0200), p.1 ≠ 0x01FD) ∧
    (∀ p ∈ storesOf .pha (stateAt 0x0300 0x0200), p.1 ≠ 0x0200) := by decide

theorem test_witness_StoresAndOutput :
    answers (exec .pha (stateAt 0x0300 0xF002)) = true ∧ answers (loadImage 0xFFFF [0xFF] State.reset) = true ∧
    0xF000 < memSize := by decide

theorem test_witness_EngineFrame : answers (exec .rti State.reset) = true := by decide

/-- A reader of none of the registers that writes a, and one that writes none. -/
theorem test_witness_RegisterReadersAndWriters :
    answers (exec .pla State.reset) = true ∧ Instr.pla.readsA = false ∧ Instr.pla.readsX = false ∧
    Instr.pla.readsY = false ∧ Instr.pla.writesA = true ∧ Instr.pla.writesX = false ∧
    answers (exec .clc State.reset) = true ∧ Instr.clc.readsA = false ∧ Instr.clc.writesA = false := by decide

theorem test_witness_UngatedFlags :
    answers (exec (.adcImm 0x01) State.reset) = true ∧ (Instr.adcImm 0x01).packsFlags = false ∧
    answers (exec .rti State.reset) = true ∧ Instr.rti.packsFlags = false := by decide

/-- The state the JSR answers is itself one from which the RTS returns. -/
theorem test_witness_CallReturnSymmetry :
    (stateAt 0xFFFC 2).mem.wf = true ∧ (stateAt 0xFFFC 2).pc.toNat + 3 ≤ 0xFFFF ∧ 2 ≤ (stateAt 0xFFFC 2).sp.toNat ∧
    seen (exec (.jsr 0x0400) (stateAt 0xFFFC 2)) (fun t => t.sp) = some 0 := by decide

theorem test_witness_InterruptReturnSymmetry :
    (stateAt 0xFFFD 4).mem.wf = true ∧ (stateAt 0xFFFD 4).cfg.valid = true ∧ (0x04 : Byte).toNat < numSlots ∧
    (stateAt 0xFFFD 4).pc.toNat + 2 ≤ 0xFFFF ∧ 4 ≤ (stateAt 0xFFFD 4).sp.toNat ∧
    seen (exec (.brk 0x04) (stateAt 0xFFFD 4)) (fun t => t.sp) = some 0 := by decide

theorem test_witness_InterruptFrameLayout :
    (stateAt 0 4).mem.wf = true ∧ (stateAt 0 4).cfg.valid = true ∧ 0xFFFF < memSize ∧ 4 ≤ (stateAt 0 4).sp.toNat := by
  decide

end Sys2Proof.Tests
end

namespace Sys2Proof.Machine

/-! ## Flag packing (spec/10_state.md R37 to R39) -/

/-- A flag's word has the flag at its bit and zeros elsewhere. -/
theorem flagBit_getLsbD (b : Bool) {k : Nat} (hk : k < 16) (i : Nat) :
    (flagBit b k).getLsbD i = (decide (i = k) && b) := by
  cases b with
  | false => simp [flagBit]
  | true =>
    rw [Bool.eq_iff_iff]
    simp [flagBit]
    omega

theorem packFlags_getLsbD (f : Flags) (i : Nat) :
    (packFlags f).getLsbD i = (decide (i = 6) && f.n || decide (i = 5) && f.v || decide (i = 4) && f.b ||
      decide (i = 3) && f.d || decide (i = 2) && f.i || decide (i = 1) && f.z || decide (i = 0) && f.c) := by
  simp only [packFlags, BitVec.getLsbD_or, flagBit_getLsbD, Nat.reduceLT]

theorem unpackFlags_packFlags (f : Flags) : unpackFlags (packFlags f) = f := by
  simp only [unpackFlags, packFlags_getLsbD]
  simp

theorem packFlags_unpackFlags (w : Word) : packFlags (unpackFlags w) = w &&& 0x007F := by
  apply BitVec.eq_of_getLsbD_eq
  intro i hi
  rw [packFlags_getLsbD, BitVec.getLsbD_and]
  interval_cases i <;> simp [unpackFlags]

/-- The packed word as a number, over the 128 combinations of flags. -/
theorem packFlags_toNat (f : Flags) :
    (packFlags f).toNat = f.n.toNat * 64 + f.v.toNat * 32 + f.b.toNat * 16 + f.d.toNat * 8 + f.i.toNat * 4 +
      f.z.toNat * 2 + f.c.toNat := by
  obtain ⟨c, z, i, d, b, v, n⟩ := f
  revert c z i d b v n
  decide

/-! ## Reset (spec/10_state.md R46; spec/70_reset_and_hazards.md R270) -/

theorem hostReset_mem_read (s : State) (addr : Nat) : (hostReset s).mem.read addr = 0 := rfl

/-- `State.reset` is the state a reset leaves under its own configuration and log. -/
theorem hostReset_reset : hostReset State.reset = State.reset := rfl

/-! ## What one step can do (spec/40_execution.md R101, R107) -/

theorem fetch8_of_lt {cur : Nat} (h : cur < memSize) (s : State) : fetch8 cur s = .ok (s.mem.read cur) (s.debit 1) :=
  memRead_of_lt h s

theorem fetch8_of_ge {cur : Nat} (h : memSize ≤ cur) (s : State) : fetch8 cur s = .oob cur s :=
  if_neg (Nat.not_lt.2 h)

/-- A 16-bit fetch answers after two units, or finds an address past the top. -/
theorem fetch16_cases (cur : Nat) (s : State) :
    (∃ w, fetch16 cur s = .ok w (s.debit 2)) ∨
      ∃ (past n : Nat), memSize ≤ past ∧ fetch16 cur s = .oob past (s.debit n) := by
  by_cases h0 : cur < memSize
  · by_cases h1 : cur + 1 < memSize
    · exact .inl ⟨_, readWord_of_lt h1 s⟩
    · refine .inr ⟨cur + 1, 1, by omega, ?_⟩
      rw [fetch16, fetch8_of_lt h0, Res.bind_ok, fetch8_of_ge (by omega), Res.bind_oob]
  · refine .inr ⟨cur, 0, by omega, ?_⟩
    rw [fetch16, fetch8_of_ge (by omega), Res.bind_oob, State.debit_zero]

/-- What follows the opcode fetch: an instruction runs, or the invalid-opcode entry, or the fetch of an operand byte
finds an address past the top (spec/40_execution.md R101). Only the engine state and the budget changed before. -/
theorem decodeAndExecute_cases (op : Byte) (s : State) :
    (∃ i n, decodeAndExecute op s = exec i ((s.debit n).setEngine .executing)) ∨
      decodeAndExecute op s = (invalidOpcode op (s.pc.toNat + 1) (s.setEngine .trapping)).finish ∨
      ∃ (past n : Nat), memSize ≤ past ∧ decodeAndExecute op s = raiseFault past (s.debit n) := by
  unfold decodeAndExecute
  cases lookup op with
  | none => exact .inr (.inl rfl)
  | some shape =>
    cases shape with
    | implied i => exact .inl ⟨i, 0, by rw [State.debit_zero]; rfl⟩
    | withByte mk =>
      by_cases h : s.pc.toNat + 1 < memSize
      · simp only [fetch8_of_lt h]
        exact .inl ⟨_, 1, rfl⟩
      · have h : memSize ≤ s.pc.toNat + 1 := by omega
        simp only [fetch8_of_ge h]
        exact .inr (.inr ⟨_, 0, h, by rw [State.debit_zero]⟩)
    | withWord mk =>
      obtain ⟨w, h⟩ | ⟨past, n, hp, h⟩ := fetch16_cases (s.pc.toNat + 1) s
      · simp only [h]
        exact .inl ⟨_, 2, rfl⟩
      · simp only [h]
        exact .inr (.inr ⟨past, n, hp, rfl⟩)

/-- One run of `Step()`: `pc` is in the address space, so the opcode fetch always answers. -/
theorem runInstruction_eq (s : State) :
    runInstruction s = decodeAndExecute (s.mem.read s.pc.toNat) ((s.debit 1).setEngine .decoding) := by
  unfold runInstruction
  rw [fetch8_of_lt (show _ < memSize from s.pc.isLt)]
  rfl

/-- A step runs an instruction, is stuck on a fault, or is refused (spec/40_execution.md R107; spec/00_scope.md R5). -/
theorem step_cases (s : State) :
    (s.running ∧ step s = runInstruction s) ∨ (s.fault ≠ none ∧ step s = .fault .stillFaulted) ∨
      (s.cfg.valid = false ∧ step s = .refused .badConfiguration) := by
  unfold step engineStep State.running
  cases hv : s.cfg.valid with
  | false => exact .inr (.inr ⟨rfl, rfl⟩)
  | true =>
    cases hf : s.fault with
    | none => exact .inl ⟨⟨rfl, rfl⟩, rfl⟩
    | some c => exact .inr (.inl ⟨Option.some_ne_none c, rfl⟩)

theorem step_next {s t : State} (h : step s = .next t) : runInstruction s = .next t := by
  obtain ⟨-, hs⟩ | ⟨-, hs⟩ | ⟨-, hs⟩ := step_cases s <;> rw [hs] at h
  · exact h
  · cases h
  · cases h

theorem step_outOfRange {s t : State} {addr : Int} (h : step s = .fault (.outOfRange addr t)) :
    runInstruction s = .fault (.outOfRange addr t) := by
  obtain ⟨-, hs⟩ | ⟨-, hs⟩ | ⟨-, hs⟩ := step_cases s <;> rw [hs] at h
  · exact h
  · cases h
  · cases h

/-! ## What the updates and the change of engine state keep, a step keeps -/

section
variable {P : State → Prop} (K : Kept P) (engine : ∀ {u : State} (e : EngineState), P u → P (u.setEngine e))
include K engine

theorem Kept.decodeAndExecute {s : State} (op : Byte) (h : P s) : Keeps P (decodeAndExecute op s) := by
  obtain ⟨i, n, hr⟩ | hr | ⟨past, n, hp, hr⟩ := decodeAndExecute_cases op s <;> rw [hr]
  · exact K.exec i (engine _ (K.debit n h))
  · exact (K.invalidOpcode op _ (engine _ h)).finish
  · exact ⟨past_top (Nat.not_lt.2 hp), _, K.debit n h, rfl⟩

theorem Kept.runInstruction {s : State} (h : P s) : Keeps P (runInstruction s) := by
  rw [runInstruction_eq]
  exact K.decodeAndExecute engine _ (engine _ (K.debit 1 h))

theorem Kept.step_next {s t : State} (h : P s) (hs : step s = .next t) : ∃ u w, P u ∧ t = u.setPc w := by
  have keeps := K.runInstruction engine h
  rwa [Machine.step_next hs] at keeps

theorem Kept.step_outOfRange {s t : State} {addr : Int} (h : P s) (hs : step s = .fault (.outOfRange addr t)) :
    (addr < 0 ∨ 0xFFFF < addr) ∧ ∃ u, P u ∧ t = u.faulted addr := by
  have keeps := K.runInstruction engine h
  rwa [Machine.step_outOfRange hs] at keeps

end

/-! ## The stack pointer stays even (spec/10_state.md R28) -/

/-- `sp` is even, as in `State.Inv`. -/
def State.EvenSp (s : State) : Prop := s.sp.toNat % 2 = 0

/-- A push and a pull that are allowed move `sp` by 2 without wrapping; nothing else moves it. -/
theorem Kept.evenSp : Kept State.EvenSp where
  debit _ h := h
  putByte _ _ h := h
  setA _ h := h
  setX _ h := h
  setY _ h := h
  flags _ h := h
  push {s} h h2 := by
    have := toNat_sub_two h2
    simp only [State.EvenSp, State.setSp_sp] at h ⊢
    omega
  pull {s} h h2 := by
    have := toNat_add_two (lt_memSize (Nat.lt_succ_of_le h2))
    simp only [State.EvenSp, State.setSp_sp] at h ⊢
    omega

theorem step_next_evenSp {s t : State} (hs : step s = .next t) (h : s.EvenSp) : t.EvenSp := by
  obtain ⟨u, w, hu, rfl⟩ := Kept.evenSp.step_next (fun _ h => h) h hs
  exact hu

theorem step_outOfRange_evenSp {s t : State} {addr : Int} (hs : step s = .fault (.outOfRange addr t)) (h : s.EvenSp) :
    t.EvenSp := by
  obtain ⟨-, u, hu, rfl⟩ := Kept.evenSp.step_outOfRange (fun _ h => h) h hs
  exact hu

theorem spInit_even_of_valid {c : Config} (h : c.valid = true) : c.spInit.toNat % 2 = 0 := by
  simp only [Config.valid, spInitOk, Bool.and_eq_true, decide_eq_true_eq] at h
  obtain ⟨-, -, -, -, -, heven, -⟩ := h
  exact heven

/-! ## Where each instruction leaves the stack pointer -/

section
variable {s t : State}

theorem loadInto_next_sp {set : Byte → State → State} (hpc : ∀ v u, (set v u).pc = u.pc)
    (hsp : ∀ v u, (set v u).sp = u.sp) {o : Operand} (h : loadInto set o s = .next t) : t.sp = s.sp := by
  obtain ⟨-, -, rfl⟩ := (loadInto_next_iff hpc).1 h
  simp [hsp]

theorem storeFrom_next_sp {v : Byte} {mode : AddrMode} (h : storeFrom v mode s = .next t) : t.sp = s.sp := by
  obtain ⟨-, -, rfl⟩ := storeFrom_next_iff.1 h
  rfl

theorem addWithCarry_next_sp {o : Operand} (h : addWithCarry o s = .next t) : t.sp = s.sp := by
  obtain ⟨-, -, rfl⟩ := addWithCarry_next_iff.1 h
  rfl

theorem bitwise_next_sp {f : Byte → Byte → Byte} {o : Operand} (h : bitwise f o s = .next t) : t.sp = s.sp := by
  obtain ⟨-, -, rfl⟩ := bitwise_next_iff.1 h
  rfl

theorem compareWith_next_sp {reg : Byte} {o : Operand} (h : compareWith reg o s = .next t) : t.sp = s.sp := by
  obtain ⟨-, -, rfl⟩ := compareWith_next_iff.1 h
  rfl

theorem readModifyWrite_next_sp {f : Byte → Byte} {mode : AddrMode} (h : readModifyWrite f mode s = .next t) :
    t.sp = s.sp := by
  obtain ⟨-, -, rfl⟩ := readModifyWrite_next_iff.1 h
  rfl

theorem stepRegister_next_sp {set : Byte → State → State} (hpc : ∀ v u, (set v u).pc = u.pc)
    (hsp : ∀ v u, (set v u).sp = u.sp) {v : Byte} (h : stepRegister set v s = .next t) : t.sp = s.sp := by
  obtain ⟨-, rfl⟩ := (stepRegister_next_iff hpc).1 h
  simp [hsp]

theorem setFlagsOnly_next_sp {f : Flags} (h : setFlagsOnly f s = .next t) : t.sp = s.sp := by
  obtain ⟨-, rfl⟩ := setFlagsOnly_next_iff.1 h
  rfl

theorem branchOn_next_sp {taken : Bool} {r : Byte} (h : branchOn taken r s = .next t) : t.sp = s.sp := by
  obtain ⟨-, -, rfl⟩ | ⟨-, -, -, rfl⟩ := branchOn_next_iff.1 h
  · rfl
  · rfl

theorem pushWord_next_sp {v : Word} (h : pushWord v s = .next t) : t.sp = s.sp - 2 := by
  obtain ⟨-, -, rfl⟩ := pushWord_next_iff.1 h
  rfl

theorem pullWord_next_sp {use : Word → State → State} (hpc : ∀ v u, (use v u).pc = u.pc)
    (hsp : ∀ v u, (use v u).sp = u.sp) (h : pullWord use s = .next t) : t.sp = s.sp + 2 := by
  obtain ⟨-, -, rfl⟩ := (pullWord_next_iff hpc).1 h
  simp [hsp]

theorem invalidOpcode_finish_next_sp {op : Byte} {ret : Nat} (h : (invalidOpcode op ret s).finish = .next t) :
    t.sp = s.sp - 2 - 2 := by
  obtain ⟨-, -, -, rfl⟩ := invalidOpcode_finish_next_iff.1 h
  exact (sub_two_sub_two _).symm

theorem execBrk_next_sp {n : Byte} (h : exec (.brk n) s = .next t) : t.sp = s.sp - 2 - 2 := by
  rw [sub_two_sub_two]
  obtain ⟨-, -, ⟨slot, -, -, rfl⟩ | ⟨-, -, rfl⟩⟩ := exec_brk_next h
  · rfl
  · rfl

theorem execRti_next_sp (h : exec .rti s = .next t) : t.sp = s.sp + 2 + 2 := by
  obtain ⟨-, rfl⟩ := execRti_next_iff.1 h
  exact (add_two_add_two _).symm

end

/-- `sp` after no, one or two changes of 2. -/
def spReach (sp : Word) : List Word := [sp, sp - 2, sp - 2 - 2, sp + 2, sp + 2 + 2]

/-- An instruction that answers a next state moves `sp` by no, one or two changes of 2. -/
theorem exec_next_sp {i : Instr} {s t : State} (h : exec i s = .next t) : t.sp ∈ spReach s.sp := by
  have stay (h : t.sp = s.sp) : t.sp ∈ spReach s.sp := by simp [spReach, h]
  have push (h : t.sp = s.sp - 2) : t.sp ∈ spReach s.sp := by simp [spReach, h]
  have pull (h : t.sp = s.sp + 2) : t.sp ∈ spReach s.sp := by simp [spReach, h]
  cases i
  case ldaImm m | ldxImm m | ldyImm m => exact stay (loadInto_next_sp (o := .immediate m) (by simp) (by simp) h)
  case ldaZp | ldaZpX | ldaAbs | ldaAbsX | ldaAbsY | ldxZp | ldxZpY | ldxAbs | ldxAbsY | ldyZp | ldyZpX | ldyAbs
      | ldyAbsX =>
    exact stay (loadInto_next_sp (by simp) (by simp) h)
  case staZp | staZpX | staAbs | staAbsX | staAbsY | stxZp | stxZpY | stxAbs | styZp | styZpX | styAbs =>
    exact stay (storeFrom_next_sp h)
  case adcImm m => exact stay (addWithCarry_next_sp (o := .immediate m) h)
  case adcZp | adcZpX | adcAbs | adcAbsX | adcAbsY => exact stay (addWithCarry_next_sp h)
  case andImm m | oraImm m | eorImm m => exact stay (bitwise_next_sp (o := .immediate m) h)
  case andZp | andZpX | andAbs | andAbsX | andAbsY | oraZp | oraZpX | oraAbs | oraAbsX | oraAbsY
      | eorZp | eorZpX | eorAbs | eorAbsX | eorAbsY =>
    exact stay (bitwise_next_sp h)
  case cmpImm m | cpxImm m | cpyImm m => exact stay (compareWith_next_sp (o := .immediate m) h)
  case cmpZp | cmpZpX | cmpAbs | cmpAbsX | cmpAbsY | cpxZp | cpxAbs | cpyZp | cpyAbs =>
    exact stay (compareWith_next_sp h)
  case incZp | incZpX | incAbs | incAbsX | decZp | decZpX | decAbs | decAbsX => exact stay (readModifyWrite_next_sp h)
  case inx | iny | dex | dey => exact stay (stepRegister_next_sp (by simp) (by simp) h)
  case bcc | bcs | beq | bne | bmi | bpl | bvc | bvs => exact stay (branchOn_next_sp h)
  case clc | cld | clv | cli | nop => exact stay (setFlagsOnly_next_sp h)
  case jmp w =>
    obtain rfl := (execJmp_next_iff (w := w)).1 h
    exact stay rfl
  case jsr w =>
    obtain ⟨-, -, rfl⟩ := execJsr_next_iff.1 h
    exact push rfl
  case pha | php => exact push (pushWord_next_sp h)
  case pla | plp => exact pull (pullWord_next_sp (by simp) (by simp) h)
  case rts =>
    obtain ⟨-, rfl⟩ := execRts_next_iff.1 h
    exact pull rfl
  case brk n => simp [spReach, execBrk_next_sp h]
  case rti => simp [spReach, execRti_next_sp h]

theorem decodeAndExecute_next_sp {op : Byte} {s t : State} (h : decodeAndExecute op s = .next t) :
    t.sp ∈ spReach s.sp := by
  obtain ⟨i, n, hr⟩ | hr | ⟨past, n, -, hr⟩ := decodeAndExecute_cases op s <;> rw [hr] at h
  · exact exec_next_sp (s := (s.debit n).setEngine .executing) h
  · simp [spReach, invalidOpcode_finish_next_sp h]
  · cases h

theorem step_next_sp {s t : State} (h : step s = .next t) : t.sp ∈ spReach s.sp := by
  have hr := step_next h
  rw [runInstruction_eq] at hr
  exact decodeAndExecute_next_sp (s := (s.debit 1).setEngine .decoding) hr

end Sys2Proof.Machine

section
open Sys2Proof Sys2Proof.Machine

/-- Settles O13: an allowed push or pull moves `sp` by 2 without wrapping, and a step makes at most two of them. -/
theorem stackPointerStaysEven : Obligations.StackPointerStaysEven :=
  ⟨fun _ hv => ⟨spInit_even_of_valid hv, rfl⟩, fun _ _ => step_next_sp, fun _ _ => step_next_evenSp,
    fun _ _ _ => step_outOfRange_evenSp⟩

/-- Settles O14: `hostReset` writes every field but `cfg` and `outLog`, and the empty memory reads zero everywhere. -/
theorem hostResetState : Obligations.HostResetState := by
  refine ⟨fun s => ⟨hostReset_mem_read s, rfl⟩, ?_, hostReset_reset, rfl, rfl, ?_⟩
  · decide
  · decide

/-- Settles O24, from the value of the packed word over all flags; `unpackFlags` reads its bits by definition. -/
theorem flagPackingLayout : Obligations.FlagPackingLayout := ⟨packFlags_toNat, fun _ => rfl⟩

/-- Settles O25, bit by bit from `packFlags_getLsbD`. -/
theorem flagRoundTrip : Obligations.FlagRoundTrip := ⟨unpackFlags_packFlags, packFlags_unpackFlags⟩

end

namespace Sys2Proof.Machine

/-! ## Words in memory (spec/20_memory.md R53, R54) -/

theorem memRead_of_ge {addr : Nat} (h : memSize ≤ addr) (s : State) : memRead addr s = .oob addr s :=
  if_neg (Nat.not_lt.2 h)

theorem memWrite_of_ge {addr : Nat} (h : memSize ≤ addr) (v : Byte) (s : State) : memWrite addr v s = .oob addr s :=
  if_neg (Nat.not_lt.2 h)

/-- A word read at the last address: the first byte is read, and the second lies past the top. -/
theorem readWord_of_top {addr : Nat} (h : addr + 1 = memSize) (s : State) :
    readWord addr s = .oob 0x10000 (s.debit 1) := by
  rw [readWord, memRead_of_lt (by omega), Res.bind_ok, memRead_of_ge h.ge, Res.bind_oob, h]
  rfl

/-- A word written at the last address: the high byte is stored, and the low byte's address lies past the top. -/
theorem writeWord_of_top {addr : Nat} (h : addr + 1 = memSize) (v : Word) (s : State) :
    writeWord addr v s = .oob 0x10000 ((s.stored [(addr, hiByte v)]).debit 1) := by
  rw [writeWord, memWrite_of_lt (by omega), Res.bind_ok, memWrite_of_ge h.ge, h]
  rfl

theorem readWord_of_ge {addr : Nat} (h : memSize ≤ addr) (s : State) : readWord addr s = .oob addr s := by
  rw [readWord, memRead_of_ge h, Res.bind_oob]

theorem writeWord_of_ge {addr : Nat} (h : memSize ≤ addr) (v : Word) (s : State) :
    writeWord addr v s = .oob addr s := by
  rw [writeWord, memWrite_of_ge h, Res.bind_oob]

theorem fetch16_eq_readWord (addr : Nat) (s : State) : fetch16 addr s = readWord addr s := rfl

theorem wordOf_toNat (h l : Byte) : (wordOf h l).toNat = h.toNat * 256 + l.toNat := by
  rw [wordOf, BitVec.toNat_append, ← Nat.shiftLeft_add_eq_or_of_lt l.isLt, Nat.shiftLeft_eq]

theorem toNat_eq_hi_lo (v : Word) : v.toNat = (hiByte v).toNat * 256 + (loByte v).toNat := by
  rw [← wordOf_toNat, wordOf_hi_lo]

theorem Memory.read_store_wordAt_hi {m : Memory} (hm : m.wf = true) (addr : Nat) (v : Word) :
    (m.store (wordAt addr v)).read addr = hiByte v := by
  change ((m.write addr (hiByte v)).write (addr + 1) (loByte v)).read addr = _
  rw [read_write_other (by omega), read_write_self hm]

theorem Memory.read_store_wordAt_lo {m : Memory} (hm : m.wf = true) {addr : Nat} (ha : addr < memSize) (v : Word) :
    (m.store (wordAt addr v)).read (addr + 1) = loByte v :=
  read_write_self (wf_write ha _ hm) _ _

/-! ## Pulls at the top of the address space (spec/20_memory.md R57) -/

/-- With `sp` = 0xFFFE both bytes of the word exist and are read before `sp + 2` is found out of range. -/
theorem pull16_of_top_word {s : State} (h : s.sp.toNat = 0xFFFE) : pull16 s = .oob 0x10000 (s.debit 2) := by
  rw [pull16, readWord_of_lt (lt_memSize (by omega)), Res.bind_ok, if_pos (by rw [State.debit_sp]; omega),
    State.debit_sp, h]
  rfl

theorem pull16_of_top_byte {s : State} (h : s.sp.toNat = 0xFFFF) : pull16 s = .oob 0x10000 (s.debit 1) := by
  rw [pull16, readWord_of_top (by rw [h]), Res.bind_oob]

/-! ## What is stored and what is emitted (spec/20_memory.md R60) -/

theorem emitted_singleton (c : Config) (addr : Nat) (v : Byte) :
    emitted c [(addr, v)] = if addr = c.outAddr.toNat then [v] else [] := by
  by_cases h : addr = c.outAddr.toNat <;> simp [emitted, h]

theorem loadImage_next_iff {addr : Nat} {bytes : List Byte} {s t : State} :
    loadImage addr bytes s = .next t ↔
      addr + bytes.length ≤ memSize ∧ t = { s with mem := s.mem.writeAll addr bytes } := by
  unfold loadImage
  split <;> simp_all [eq_comm]

/-- From `s` to `t` exactly these bytes are stored, in order, and exactly those at `OUT_ADDR` emitted. -/
def StoresExactly (bytes : List (Nat × Byte)) (s t : State) : Prop :=
  t.mem = s.mem.store bytes ∧ t.outLog = s.outLog ++ emitted s.cfg bytes

theorem StoresExactly.nothing {s t : State} (hmem : t.mem = s.mem) (hlog : t.outLog = s.outLog) :
    StoresExactly [] s t :=
  ⟨hmem, hlog.trans (List.append_nil _).symm⟩

section
variable {s t : State}

theorem loadInto_next_stores {set : Byte → State → State} (hpc : ∀ v u, (set v u).pc = u.pc)
    (hmem : ∀ v u, (set v u).mem = u.mem) (hlog : ∀ v u, (set v u).outLog = u.outLog) {o : Operand}
    (h : loadInto set o s = .next t) : StoresExactly [] s t := by
  obtain ⟨-, -, rfl⟩ := (loadInto_next_iff hpc).1 h
  exact .nothing (by simp [hmem]) (by simp [hlog])

theorem storeFrom_next_stores {v : Byte} {mode : AddrMode} (h : storeFrom v mode s = .next t) :
    StoresExactly [(mode.ea s, v)] s t := by
  obtain ⟨-, -, rfl⟩ := storeFrom_next_iff.1 h
  exact ⟨rfl, rfl⟩

theorem addWithCarry_next_stores {o : Operand} (h : addWithCarry o s = .next t) : StoresExactly [] s t := by
  obtain ⟨-, -, rfl⟩ := addWithCarry_next_iff.1 h
  exact .nothing rfl rfl

theorem bitwise_next_stores {f : Byte → Byte → Byte} {o : Operand} (h : bitwise f o s = .next t) :
    StoresExactly [] s t := by
  obtain ⟨-, -, rfl⟩ := bitwise_next_iff.1 h
  exact .nothing rfl rfl

theorem compareWith_next_stores {reg : Byte} {o : Operand} (h : compareWith reg o s = .next t) :
    StoresExactly [] s t := by
  obtain ⟨-, -, rfl⟩ := compareWith_next_iff.1 h
  exact .nothing rfl rfl

theorem readModifyWrite_next_stores {f : Byte → Byte} {mode : AddrMode} (h : readModifyWrite f mode s = .next t) :
    StoresExactly [(mode.ea s, f (s.mem.read (mode.ea s)))] s t := by
  obtain ⟨-, -, rfl⟩ := readModifyWrite_next_iff.1 h
  exact ⟨rfl, rfl⟩

theorem stepRegister_next_stores {set : Byte → State → State} (hpc : ∀ v u, (set v u).pc = u.pc)
    (hmem : ∀ v u, (set v u).mem = u.mem) (hlog : ∀ v u, (set v u).outLog = u.outLog) {v : Byte}
    (h : stepRegister set v s = .next t) : StoresExactly [] s t := by
  obtain ⟨-, rfl⟩ := (stepRegister_next_iff hpc).1 h
  exact .nothing (by simp [hmem]) (by simp [hlog])

theorem setFlagsOnly_next_stores {f : Flags} (h : setFlagsOnly f s = .next t) : StoresExactly [] s t := by
  obtain ⟨-, rfl⟩ := setFlagsOnly_next_iff.1 h
  exact .nothing rfl rfl

theorem branchOn_next_stores {taken : Bool} {r : Byte} (h : branchOn taken r s = .next t) :
    StoresExactly [] s t := by
  obtain ⟨-, -, rfl⟩ | ⟨-, -, -, rfl⟩ := branchOn_next_iff.1 h
  · exact .nothing rfl rfl
  · exact .nothing rfl rfl

theorem pushWord_next_stores {v : Word} (h : pushWord v s = .next t) :
    StoresExactly (wordAt (s.sp - 2).toNat v) s t := by
  obtain ⟨-, -, rfl⟩ := pushWord_next_iff.1 h
  exact ⟨rfl, rfl⟩

theorem pullWord_next_stores {use : Word → State → State} (hpc : ∀ v u, (use v u).pc = u.pc)
    (hmem : ∀ v u, (use v u).mem = u.mem) (hlog : ∀ v u, (use v u).outLog = u.outLog)
    (h : pullWord use s = .next t) : StoresExactly [] s t := by
  obtain ⟨-, -, rfl⟩ := (pullWord_next_iff hpc).1 h
  exact .nothing (by simp [hmem]) (by simp [hlog])

theorem execJsr_next_stores {w : Word} (h : execJsr w s = .next t) :
    StoresExactly (wordAt (s.sp - 2).toNat (BitVec.ofNat 16 (s.pc.toNat + 3))) s t := by
  obtain ⟨-, -, rfl⟩ := execJsr_next_iff.1 h
  exact ⟨rfl, rfl⟩

/-- BRK stores the frame of its entry; a reserved slot stores the record byte 0x00 before it (spec/60_exceptions.md
R238). -/
theorem execBrk_next_stores {n : Byte} (h : exec (.brk n) s = .next t) : StoresExactly (storesOf (.brk n) s) s t := by
  obtain ⟨-, -, ⟨slot, -, hn, rfl⟩ | ⟨-, hn, rfl⟩⟩ := exec_brk_next h
  · rw [storesOf, if_pos hn]
    exact ⟨rfl, rfl⟩
  · rw [storesOf, if_neg (Nat.not_lt.2 hn)]
    have hseq := State.stored_stored [(s.cfg.invopAddr.toNat, 0x00)] (entryFrame (s.pc.toNat + 2) s) s
    exact ⟨congrArg State.mem hseq, congrArg State.outLog hseq⟩

end

/-- Every instruction that answers a next state stores exactly the bytes `storesOf` lists. -/
theorem exec_next_stores {i : Instr} {s t : State} (h : exec i s = .next t) : StoresExactly (storesOf i s) s t := by
  cases i
  case ldaImm m | ldxImm m | ldyImm m =>
    exact loadInto_next_stores (o := .immediate m) (by simp) (by simp) (by simp) h
  case ldaZp | ldaZpX | ldaAbs | ldaAbsX | ldaAbsY | ldxZp | ldxZpY | ldxAbs | ldxAbsY | ldyZp | ldyZpX | ldyAbs
      | ldyAbsX =>
    exact loadInto_next_stores (by simp) (by simp) (by simp) h
  case staZp | staZpX | staAbs | staAbsX | staAbsY | stxZp | stxZpY | stxAbs | styZp | styZpX | styAbs =>
    exact storeFrom_next_stores h
  case adcImm m => exact addWithCarry_next_stores (o := .immediate m) h
  case adcZp | adcZpX | adcAbs | adcAbsX | adcAbsY => exact addWithCarry_next_stores h
  case andImm m | oraImm m | eorImm m => exact bitwise_next_stores (o := .immediate m) h
  case andZp | andZpX | andAbs | andAbsX | andAbsY | oraZp | oraZpX | oraAbs | oraAbsX | oraAbsY
      | eorZp | eorZpX | eorAbs | eorAbsX | eorAbsY =>
    exact bitwise_next_stores h
  case cmpImm m | cpxImm m | cpyImm m => exact compareWith_next_stores (o := .immediate m) h
  case cmpZp | cmpZpX | cmpAbs | cmpAbsX | cmpAbsY | cpxZp | cpxAbs | cpyZp | cpyAbs =>
    exact compareWith_next_stores h
  case incZp | incZpX | incAbs | incAbsX | decZp | decZpX | decAbs | decAbsX => exact readModifyWrite_next_stores h
  case inx | iny | dex | dey => exact stepRegister_next_stores (by simp) (by simp) (by simp) h
  case bcc | bcs | beq | bne | bmi | bpl | bvc | bvs => exact branchOn_next_stores h
  case clc | cld | clv | cli | nop => exact setFlagsOnly_next_stores h
  case jmp w =>
    obtain rfl := (execJmp_next_iff (w := w)).1 h
    exact .nothing rfl rfl
  case jsr => exact execJsr_next_stores h
  case pha =>
    rw [exec_pha, setWidth_eq_wordOf] at h
    exact pushWord_next_stores h
  case php => exact pushWord_next_stores h
  case pla | plp => exact pullWord_next_stores (by simp) (by simp) (by simp) h
  case rts =>
    obtain ⟨-, rfl⟩ := execRts_next_iff.1 h
    exact .nothing rfl rfl
  case brk => exact execBrk_next_stores h
  case rti =>
    obtain ⟨-, rfl⟩ := execRti_next_iff.1 h
    exact .nothing rfl rfl

end Sys2Proof.Machine

section
open Sys2Proof Sys2Proof.Machine

/-- Settles O21: a word access is two byte accesses, the high byte first, and the place where the second or the first
byte leaves the address space gives its three cases. -/
theorem wordByteOrder : Obligations.WordByteOrder := by
  intro s addr v
  refine ⟨fun h => ⟨readWord_of_lt h s, writeWord_of_lt h v s, fun hm => ?_⟩,
    fun h => ⟨readWord_of_top h s, writeWord_of_top h v s⟩, fun h => ⟨readWord_of_ge h s, writeWord_of_ge h v s⟩,
    wordOf_toNat _ _, toNat_eq_hi_lo v, fetch16_eq_readWord addr s⟩
  exact ⟨Memory.read_store_wordAt_hi hm addr v, Memory.read_store_wordAt_lo hm (Nat.lt_of_succ_lt h) v, wordOf_hi_lo v⟩

/-- Settles O53: each shared meaning stores exactly what `storesOf` lists for its instructions, and one byte written is
one byte stored. -/
theorem storesAndOutput : Obligations.StoresAndOutput := by
  refine ⟨fun _ _ _ => exec_next_stores, ?_, fun _ => rfl, fun s addr v h => ?_⟩
  · intro s t addr bytes h
    obtain ⟨-, rfl⟩ := loadImage_next_iff.1 h
    rfl
  · exact ⟨memWrite_of_lt h v s, emitted_singleton s.cfg addr v⟩

/-- Settles O22: a push is checked before its word is written, a pull after its word is read. -/
theorem pushAndPull : Obligations.PushAndPull := by
  intro s v
  refine ⟨fun h => push16_of_lt h v, fun h => ?_, fun h => pull16_of_lt (lt_memSize (Nat.lt_succ_of_le h)),
    pull16_of_top_word, pull16_of_top_byte, fun _ => pushWord_next_sp, fun _ => pullWord_next_sp (by simp) (by simp)⟩
  rw [push16_of_le h, wordAt_sub_two h]
  rfl

end

namespace Sys2Proof

/-! ## The opcode map and the encoder (spec/30_encoding.md R81, R89) -/

/-- The instructions of an opcode map entry are encoded as its opcode byte and the operand bytes of its format. -/
def Shape.EncodesAs (op : Byte) : Shape → Prop
  | .implied i   => encode i = [op]
  | .withByte mk => ∀ b, encode (mk b) = [op, b]
  | .withWord mk => ∀ w, encode (mk w) = absBytes op w

theorem opcodeMap_encodesAs : ∀ r ∈ opcodeMap, r.shape.EncodesAs r.opcode := by
  simp only [opcodeMap, loadRows, storeRows, arithRows, compareRows, incDecRows, controlRows, systemRows,
    List.forall_mem_append, List.forall_mem_singleton, List.forall_mem_cons, Shape.EncodesAs]
  and_intros <;> intros <;> rfl

theorem mem_of_lookupIn {rows : List Row} {op : Byte} {sh : Shape} (h : lookupIn rows op = some sh) :
    ⟨op, sh⟩ ∈ rows := by
  induction rows with
  | nil => cases h
  | cons r rs ih =>
    rw [lookupIn] at h
    split at h
    · next hop =>
      cases h
      exact hop ▸ List.mem_cons_self
    · exact List.mem_cons_of_mem r (ih h)

theorem lookup_encodesAs {op : Byte} {sh : Shape} (h : lookup op = some sh) : sh.EncodesAs op :=
  opcodeMap_encodesAs _ (mem_of_lookupIn h)

/-! ## What the decoder can answer (spec/30_encoding.md R88) -/

/-- Bytes that decode to an instruction are an opcode byte with an entry and as many operand bytes as its format has. -/
theorem decode_instr_cases {bytes : List Byte} {i : Instr} {rest : List Byte} (h : decode bytes = .instr i rest) :
    (∃ op, bytes = op :: rest ∧ lookup op = some (.implied i)) ∨
      (∃ op b mk, bytes = op :: b :: rest ∧ lookup op = some (.withByte mk) ∧ i = mk b) ∨
      ∃ op hi lo mk, bytes = op :: hi :: lo :: rest ∧ lookup op = some (.withWord mk) ∧ i = mk (wordOf hi lo) := by
  unfold decode at h
  split at h
  · cases h
  · next op bs =>
    split at h
    · cases h
    · next hl =>
      cases h
      exact .inl ⟨op, rfl, hl⟩
    · next mk hl =>
      split at h
      · cases h
        exact .inr (.inl ⟨op, _, mk, rfl, hl, rfl⟩)
      · cases h
    · next mk hl =>
      split at h
      · cases h
        exact .inr (.inr ⟨op, _, _, mk, rfl, hl, rfl⟩)
      · cases h

theorem decode_invalidOpcode {bytes : List Byte} {op : Byte} (h : decode bytes = .invalidOpcode op) :
    (∃ bs, bytes = op :: bs) ∧ lookup op = none := by
  unfold decode at h
  split at h
  · cases h
  · next bs =>
    split at h
    · next hl =>
      cases h
      exact ⟨⟨bs, rfl⟩, hl⟩
    · cases h
    · split at h <;> cases h
    · split at h <;> cases h

namespace Machine

/-! ## The step runs what the bytes at `pc` decode to (spec/40_execution.md R101) -/

section
variable {s : State}

theorem bytesAtPc_getElem? {k : Nat} {b : Byte} (h : s.bytesAtPc[k]? = some b) :
    s.pc.toNat + k < memSize ∧ s.mem.read (s.pc.toNat + k) = b := by
  simp only [State.bytesAtPc, List.getElem?_map, Option.map_eq_some_iff, List.getElem?_eq_some_iff, List.length_range,
    List.getElem_range] at h
  obtain ⟨_, ⟨hk, rfl⟩, hb⟩ := h
  exact ⟨by omega, hb⟩

theorem bytesAtPc_head {op : Byte} {bs : List Byte} (h : s.bytesAtPc = op :: bs) : s.mem.read s.pc.toNat = op :=
  (bytesAtPc_getElem? (k := 0) (by rw [h]; rfl)).2

theorem decodeAndExecute_of_invalid {op : Byte} (hl : lookup op = none) :
    decodeAndExecute op s = (invalidOpcode op (s.pc.toNat + 1) (s.setEngine .trapping)).finish := by
  simp only [decodeAndExecute, hl]

theorem decodeAndExecute_of_implied {op : Byte} {i : Instr} (hl : lookup op = some (.implied i)) :
    decodeAndExecute op s = exec i (s.setEngine .executing) := by
  simp only [decodeAndExecute, hl, executing]

theorem decodeAndExecute_of_withByte {op : Byte} {mk : Byte → Instr} (hl : lookup op = some (.withByte mk))
    (h : s.pc.toNat + 1 < memSize) :
    decodeAndExecute op s = exec (mk (s.mem.read (s.pc.toNat + 1))) ((s.debit 1).setEngine .executing) := by
  simp only [decodeAndExecute, hl, fetch8_of_lt h, executing]

theorem decodeAndExecute_of_withWord {op : Byte} {mk : Word → Instr} (hl : lookup op = some (.withWord mk))
    (h : s.pc.toNat + 1 + 1 < memSize) :
    decodeAndExecute op s =
      exec (mk (wordOf (s.mem.read (s.pc.toNat + 1)) (s.mem.read (s.pc.toNat + 1 + 1))))
        ((s.debit 2).setEngine .executing) := by
  simp only [decodeAndExecute, hl, fetch16_eq_readWord, readWord_of_lt h, executing]

theorem fetched_eq_of_length {i : Instr} {n : Nat} (h : (encode i).length = n) :
    s.fetched i = (s.debit n).setEngine .executing := by
  subst h
  rfl

/-- One step from bytes that decode to an instruction runs it, one unit debited for each of its bytes. -/
theorem runInstruction_of_decode_instr {i : Instr} {rest : List Byte} (h : decode s.bytesAtPc = .instr i rest) :
    runInstruction s = exec i (s.fetched i) := by
  rw [runInstruction_eq]
  obtain ⟨op, hb, hl⟩ | ⟨op, b, mk, hb, hl, rfl⟩ | ⟨op, hi, lo, mk, hb, hl, rfl⟩ := decode_instr_cases h
  · have hlen : (encode i).length = 1 := congrArg List.length (lookup_encodesAs hl)
    rw [bytesAtPc_head hb, decodeAndExecute_of_implied hl, fetched_eq_of_length hlen]
    rfl
  · have hlen : (encode (mk b)).length = 1 + 1 := congrArg List.length (lookup_encodesAs hl b)
    obtain ⟨h1, rfl⟩ := bytesAtPc_getElem? (k := 1) (b := b) (by rw [hb]; rfl)
    rw [bytesAtPc_head hb, decodeAndExecute_of_withByte (s := (s.debit 1).setEngine .decoding) hl h1,
      fetched_eq_of_length hlen, ← State.debit_debit]
    rfl
  · have hlen : (encode (mk (wordOf hi lo))).length = 1 + 2 := congrArg List.length (lookup_encodesAs hl _)
    obtain ⟨-, rfl⟩ := bytesAtPc_getElem? (k := 1) (b := hi) (by rw [hb]; rfl)
    obtain ⟨h2, rfl⟩ := bytesAtPc_getElem? (k := 2) (b := lo) (by rw [hb]; rfl)
    rw [bytesAtPc_head hb, decodeAndExecute_of_withWord (s := (s.debit 1).setEngine .decoding) hl h2,
      fetched_eq_of_length hlen, ← State.debit_debit]
    rfl

/-- One step from an invalid opcode byte is the invalid-opcode entry (spec/60_exceptions.md R238). -/
theorem runInstruction_of_decode_invalid {op : Byte} (h : decode s.bytesAtPc = .invalidOpcode op) :
    runInstruction s = (invalidOpcode op (s.pc.toNat + 1) ((s.debit 1).setEngine .trapping)).finish := by
  obtain ⟨⟨bs, hb⟩, hl⟩ := decode_invalidOpcode h
  rw [runInstruction_eq, bytesAtPc_head hb, decodeAndExecute_of_invalid hl]
  rfl

end

/-! ## What each instruction costs beyond its fetch (spec/40_execution.md R104 to R106) -/

section
variable {s t : State}

@[simp] theorem State.entered_budget (slot : Slot) (ret : Nat) (s : State) :
    (s.entered slot ret).budget = s.budget - 6 := rfl

theorem loadInto_next_budget {set : Byte → State → State} (hpc : ∀ v u, (set v u).pc = u.pc)
    (hbudget : ∀ v u, (set v u).budget = u.budget) {o : Operand} (h : loadInto set o s = .next t) :
    t.budget = s.budget - o.units := by
  obtain ⟨-, -, rfl⟩ := (loadInto_next_iff hpc).1 h
  simp [hbudget]

theorem storeFrom_next_budget {v : Byte} {mode : AddrMode} (h : storeFrom v mode s = .next t) :
    t.budget = s.budget - (mode.extra + 1 : Nat) := by
  obtain ⟨-, -, rfl⟩ := storeFrom_next_iff.1 h
  rfl

theorem addWithCarry_next_budget {o : Operand} (h : addWithCarry o s = .next t) :
    t.budget = s.budget - o.units := by
  obtain ⟨-, -, rfl⟩ := addWithCarry_next_iff.1 h
  rfl

theorem bitwise_next_budget {f : Byte → Byte → Byte} {o : Operand} (h : bitwise f o s = .next t) :
    t.budget = s.budget - o.units := by
  obtain ⟨-, -, rfl⟩ := bitwise_next_iff.1 h
  rfl

theorem compareWith_next_budget {reg : Byte} {o : Operand} (h : compareWith reg o s = .next t) :
    t.budget = s.budget - o.units := by
  obtain ⟨-, -, rfl⟩ := compareWith_next_iff.1 h
  rfl

theorem readModifyWrite_next_budget {f : Byte → Byte} {mode : AddrMode} (h : readModifyWrite f mode s = .next t) :
    t.budget = s.budget - (mode.extra + 2 : Nat) := by
  obtain ⟨-, -, rfl⟩ := readModifyWrite_next_iff.1 h
  rfl

theorem stepRegister_next_budget {set : Byte → State → State} (hpc : ∀ v u, (set v u).pc = u.pc)
    (hbudget : ∀ v u, (set v u).budget = u.budget) {v : Byte} (h : stepRegister set v s = .next t) :
    t.budget = s.budget := by
  obtain ⟨-, rfl⟩ := (stepRegister_next_iff hpc).1 h
  simp [hbudget]

theorem setFlagsOnly_next_budget {f : Flags} (h : setFlagsOnly f s = .next t) : t.budget = s.budget := by
  obtain ⟨-, rfl⟩ := setFlagsOnly_next_iff.1 h
  rfl

theorem branchOn_next_budget {taken : Bool} {r : Byte} (h : branchOn taken r s = .next t) :
    t.budget = s.budget := by
  obtain ⟨-, -, rfl⟩ | ⟨-, -, -, rfl⟩ := branchOn_next_iff.1 h
  · rfl
  · rfl

theorem pushWord_next_budget {v : Word} (h : pushWord v s = .next t) : t.budget = s.budget - 2 := by
  obtain ⟨-, -, rfl⟩ := pushWord_next_iff.1 h
  rfl

theorem pullWord_next_budget {use : Word → State → State} (hpc : ∀ v u, (use v u).pc = u.pc)
    (hbudget : ∀ v u, (use v u).budget = u.budget) (h : pullWord use s = .next t) : t.budget = s.budget - 2 := by
  obtain ⟨-, -, rfl⟩ := (pullWord_next_iff hpc).1 h
  simp [hbudget]

/-- A reserved slot costs one unit more than a slot: the record byte is written. -/
theorem execBrk_next_budget {n : Byte} (h : exec (.brk n) s = .next t) :
    t.budget = s.budget - ((Instr.brk n).units - (encode (.brk n)).length) := by
  obtain ⟨-, -, ⟨slot, -, hn, rfl⟩ | ⟨-, hn, rfl⟩⟩ := exec_brk_next h
  · rw [Instr.units, if_pos hn]
    rfl
  · rw [Instr.units, if_neg (Nat.not_lt.2 hn)]
    change s.budget - 1 - 6 = s.budget - (9 - 2)
    omega

end

/-- An instruction that answers a next state has debited the units of the table but for those of its fetch. -/
theorem exec_next_budget {i : Instr} {s t : State} (h : exec i s = .next t) :
    t.budget = s.budget - (i.units - (encode i).length) := by
  have free (h : t.budget = s.budget) : t.budget = s.budget - 0 := by rw [h, Int.sub_zero]
  cases i
  case ldaImm m | ldxImm m | ldyImm m => exact loadInto_next_budget (o := .immediate m) (by simp) (by simp) h
  case ldaZp | ldaZpX | ldaAbs | ldaAbsX | ldaAbsY | ldxZp | ldxZpY | ldxAbs | ldxAbsY | ldyZp | ldyZpX | ldyAbs
      | ldyAbsX =>
    exact loadInto_next_budget (by simp) (by simp) h
  case staZp | staZpX | staAbs | staAbsX | staAbsY | stxZp | stxZpY | stxAbs | styZp | styZpX | styAbs =>
    exact storeFrom_next_budget h
  case adcImm m => exact addWithCarry_next_budget (o := .immediate m) h
  case adcZp | adcZpX | adcAbs | adcAbsX | adcAbsY => exact addWithCarry_next_budget h
  case andImm m | oraImm m | eorImm m => exact bitwise_next_budget (o := .immediate m) h
  case andZp | andZpX | andAbs | andAbsX | andAbsY | oraZp | oraZpX | oraAbs | oraAbsX | oraAbsY
      | eorZp | eorZpX | eorAbs | eorAbsX | eorAbsY =>
    exact bitwise_next_budget h
  case cmpImm m | cpxImm m | cpyImm m => exact compareWith_next_budget (o := .immediate m) h
  case cmpZp | cmpZpX | cmpAbs | cmpAbsX | cmpAbsY | cpxZp | cpxAbs | cpyZp | cpyAbs =>
    exact compareWith_next_budget h
  case incZp | incZpX | incAbs | incAbsX | decZp | decZpX | decAbs | decAbsX => exact readModifyWrite_next_budget h
  case inx | iny | dex | dey => exact free (stepRegister_next_budget (by simp) (by simp) h)
  case bcc | bcs | beq | bne | bmi | bpl | bvc | bvs => exact free (branchOn_next_budget h)
  case clc | cld | clv | cli | nop => exact free (setFlagsOnly_next_budget h)
  case jmp w =>
    obtain rfl := (execJmp_next_iff (w := w)).1 h
    exact free rfl
  case jsr w =>
    obtain ⟨-, -, rfl⟩ := execJsr_next_iff.1 h
    rfl
  case pha | php => exact pushWord_next_budget h
  case pla | plp => exact pullWord_next_budget (by simp) (by simp) h
  case rts =>
    obtain ⟨-, rfl⟩ := execRts_next_iff.1 h
    rfl
  case brk => exact execBrk_next_budget h
  case rti =>
    obtain ⟨-, rfl⟩ := execRti_next_iff.1 h
    rfl

end Machine

end Sys2Proof

section
open Sys2Proof Sys2Proof.Machine

/-- Settles O18: a step debits one unit for each byte it fetches, and the instruction debits the rest of the table's. -/
theorem unitsPerInstruction : Obligations.UnitsPerInstruction := by
  intro s t h
  have hr := step_next h
  refine ⟨fun i rest hd => ?_, fun op hd => ?_⟩
  · rw [runInstruction_of_decode_instr hd] at hr
    rw [exec_next_budget hr, State.fetched_budget]
    omega
  · rw [runInstruction_of_decode_invalid hd, invalidOpcode_finish_next_iff] at hr
    obtain ⟨-, -, -, rfl⟩ := hr
    change s.budget - 1 - 1 - 6 = s.budget - 8
    omega

end

namespace Sys2Proof.Machine

/-! ## The compare law (spec/42_arith_logic.md R168) -/

/-- The compare law in numbers, as R168 writes it; every flag but C, Z and N is that of `f`. -/
theorem Flags.compare_eq_unsigned (f : Flags) (reg m : Byte) :
    f.compare reg m = { f with
      c := decide (m.toNat ≤ reg.toNat), z := decide (reg = m),
      n := decide (128 ≤ (reg.toNat + 256 - m.toNat) % 256) } := by
  have hbit : (reg - m).getLsbD 7 = decide (128 ≤ (reg - m).toNat) :=
    congrArg Flags.n (Flags.zn_eq_ofResult f (reg - m))
  have hsub : (reg - m).toNat = (reg.toNat + 256 - m.toNat) % 256 := by
    rw [BitVec.toNat_sub, ← Nat.sub_add_comm m.isLt.le, Nat.add_comm]
  rw [Flags.compare, hbit, hsub]

/-! ## Operands that are always readable (spec/40_execution.md R112 to R115) -/

theorem Operand.readable_zeroPage (z : Byte) (s : State) : (Operand.memory (.zeroPage z)).readable s :=
  lt_memSize (z.isLt.trans (by decide))

theorem Operand.readable_zeroPageX (z : Byte) (s : State) : (Operand.memory (.zeroPageX z)).readable s :=
  lt_memSize ((zeroPageIndexed_lt s.cfg z s.x).trans (by decide))

theorem Operand.readable_absolute (w : Word) (s : State) : (Operand.memory (.absolute w)).readable s :=
  lt_memSize w.isLt

/-- A compare whose operand can be read and whose successor exists writes the flags of R168 and completes. -/
theorem compareWith_of_readable {reg : Byte} {o : Operand} {s : State} (hread : o.readable s)
    (hpc : s.pc.toNat + o.length < memSize) :
    compareWith reg o s = .next (({ s with flags := { s.flags with
      c := decide ((o.value s).toNat ≤ reg.toNat), z := decide (reg = o.value s),
      n := decide (128 ≤ (reg.toNat + 256 - (o.value s).toNat) % 256) } } : State).completed o.length o.units) := by
  refine compareWith_next_iff.2 ⟨hread, hpc, ?_⟩
  rw [Flags.compare_eq_unsigned]
  rfl

end Sys2Proof.Machine

section
open Sys2Proof Sys2Proof.Machine

/-- Settles O34: every form is `compareWith` its register, and only the absolute indexed ones need their address to
exist as a condition. -/
theorem comparesSetFlags : Obligations.ComparesSetFlags := by
  intro s m z w
  refine ⟨?cmpImm, ?cmpZp, ?cmpZpX, ?cmpAbs, ?cmpAbsX, ?cmpAbsY, ?cpxImm, ?cpxZp, ?cpxAbs, ?cpyImm, ?cpyZp, ?cpyAbs⟩
  case cmpImm | cpxImm | cpyImm => exact compareWith_of_readable (o := .immediate m) trivial
  case cmpZp | cpxZp | cpyZp => exact compareWith_of_readable (Operand.readable_zeroPage z s)
  case cmpZpX => exact compareWith_of_readable (Operand.readable_zeroPageX z s)
  case cmpAbs | cpxAbs | cpyAbs => exact compareWith_of_readable (Operand.readable_absolute w s)
  case cmpAbsX => exact fun hpc hea => compareWith_of_readable (o := .memory (.absoluteX w)) hea hpc
  case cmpAbsY => exact fun hpc hea => compareWith_of_readable (o := .memory (.absoluteY w)) hea hpc

end

namespace Sys2Proof.Machine

/-! ## A return address between its push and its pull (spec/43_control.md R183) -/

/-- The word a push stored is the word at the top of the stack it leaves. -/
theorem topWord_of_pushed {s t : State} {v : Word} (hm : s.mem.wf = true) (hsp : t.sp = s.sp - 2)
    (hmem : t.mem = s.mem.store (wordAt (s.sp - 2).toNat v)) : topWord t = v := by
  rw [topWord, hsp, hmem, Memory.read_store_wordAt_hi hm, Memory.read_store_wordAt_lo hm (lt_memSize (BitVec.isLt _)),
    wordOf_hi_lo]

theorem topWord_congr {t u : State} (hsp : u.sp = t.sp) (hhi : u.mem.read t.sp.toNat = t.mem.read t.sp.toNat)
    (hlo : u.mem.read (t.sp.toNat + 1) = t.mem.read (t.sp.toNat + 1)) : topWord u = topWord t := by
  rw [topWord, topWord, hsp, hhi, hlo]

theorem execJsr_next_sp {w : Word} {s t : State} (h : execJsr w s = .next t) : t.sp = s.sp - 2 := by
  obtain ⟨-, -, rfl⟩ := execJsr_next_iff.1 h
  rfl

/-- A call leaves the address of the instruction after it at the top of the stack. -/
theorem execJsr_next_topWord {w : Word} {s t : State} (hm : s.mem.wf = true) (h : execJsr w s = .next t) :
    topWord t = s.pc + 3 := by
  obtain ⟨hmem, -⟩ := execJsr_next_stores h
  exact (topWord_of_pushed hm (execJsr_next_sp h) hmem).trans (ofNat_toNat_add _ _)

end Sys2Proof.Machine

section
open Sys2Proof Sys2Proof.Machine

/-- Settles O57: the word RTS pulls is the one JSR pushed, and the two moves of `sp` by 2 cancel. -/
theorem callReturnSymmetry : Obligations.CallReturnSymmetry := by
  intro s u w hm hpc h2
  obtain ⟨t, ht⟩ : ∃ t, execJsr w s = .next t :=
    ⟨_, execJsr_next_iff.2 ⟨lt_memSize (Nat.lt_succ_of_le hpc), h2, rfl⟩⟩
  refine ⟨t, ht, fun hu hhi hlo => ?_⟩
  have hsp : u.sp = s.sp - 2 := hu.trans (execJsr_next_sp ht)
  have hpull : u.sp.toNat + 2 < memSize := by
    rw [hsp, toNat_sub_two h2, Nat.sub_add_cancel h2]
    exact lt_memSize s.sp.isLt
  refine ⟨_, execRts_next_iff.2 ⟨hpull, rfl⟩, ?pc, ?sp⟩
  case pc => exact (topWord_congr hu hhi hlo).trans (execJsr_next_topWord hm ht)
  case sp =>
    change u.sp + 2 = s.sp
    rw [hsp, BitVec.sub_add_cancel]

end

namespace Sys2Proof.Machine

/-! ## An interrupt frame between its entry and its return (spec/44_stack_flags_system.md R222) -/

theorem wf_store_wordAt {m : Memory} {addr : Nat} (ha : addr + 1 < memSize) (v : Word) (hm : m.wf = true) :
    (m.store (wordAt addr v)).wf = true :=
  Memory.wf_write ha _ (Memory.wf_write (Nat.lt_of_succ_lt ha) _ hm)

theorem read_store_wordAt_of_gt {addr a : Nat} (h : addr + 1 < a) (m : Memory) (v : Word) :
    (m.store (wordAt addr v)).read a = m.read a := by
  change ((m.write addr (hiByte v)).write (addr + 1) (loByte v)).read a = _
  rw [Memory.read_write_other h.ne', Memory.read_write_other (Nat.lt_of_succ_lt h).ne']

/-- An interrupt entry stores the return address and then, below it, the flags. -/
theorem entered_mem (slot : Slot) (ret : Nat) (s : State) :
    (s.entered slot ret).mem = (s.mem.store (wordAt (s.sp - 2).toNat (BitVec.ofNat 16 ret))).store
      (wordAt (s.sp - 4).toNat (packFlags s.flags)) :=
  List.foldl_append

/-- The word above the one at the top of the stack, where an interrupt entry leaves the return address. -/
def secondWord (s : State) : Word := wordOf (s.mem.read (s.sp.toNat + 2)) (s.mem.read (s.sp.toNat + 3))

theorem topWord_entered {s : State} (hm : s.mem.wf = true) (h4 : 4 ≤ s.sp.toNat) (slot : Slot) (ret : Nat) :
    topWord (s.entered slot ret) = packFlags s.flags := by
  have hlt : (s.sp - 2).toNat + 1 < memSize := by
    have := s.sp.isLt
    rw [toNat_sub_two (by omega)]
    exact lt_memSize (by omega)
  refine topWord_of_pushed (s := (s.stored (wordAt (s.sp - 2).toNat (BitVec.ofNat 16 ret))).setSp (s.sp - 2))
    (wf_store_wordAt hlt _ hm) (sub_two_sub_two s.sp).symm ?_
  rw [entered_mem, State.setSp_sp, sub_two_sub_two]
  rfl

theorem secondWord_entered {s : State} (hm : s.mem.wf = true) (h4 : 4 ≤ s.sp.toNat) (slot : Slot) (ret : Nat) :
    secondWord (s.entered slot ret) = BitVec.ofNat 16 ret := by
  have h2 := toNat_sub_two (w := s.sp) (by omega)
  have hsp : (s.entered slot ret).sp.toNat + 2 = (s.sp - 2).toNat := by
    change (s.sp - 4).toNat + 2 = _
    rw [toNat_sub_four h4]
    omega
  have hflags : (s.sp - 4).toNat + 1 < (s.sp - 2).toNat := hsp ▸ Nat.lt_succ_self _
  rw [secondWord, hsp, show (s.entered slot ret).sp.toNat + 3 = (s.sp - 2).toNat + 1 by omega, entered_mem,
    read_store_wordAt_of_gt hflags, read_store_wordAt_of_gt (Nat.lt_succ_of_lt hflags),
    Memory.read_store_wordAt_hi hm, Memory.read_store_wordAt_lo hm (lt_memSize (BitVec.isLt _)), wordOf_hi_lo]

theorem vecAddr_succ_lt_of_valid {c : Config} (h : c.valid = true) (slot : Slot) :
    (vecAddr c slot).toNat + 1 < memSize := by
  simp only [Config.valid, vecAddrOk, Bool.and_eq_true, decide_eq_true_eq] at h
  obtain ⟨hreset, huser1, huser2, hinvalid, hhalt, -⟩ := h
  refine lt_memSize (Nat.lt_succ_of_le (Nat.succ_le_succ ?_))
  cases slot
  case reset => exact hreset
  case user1 => exact huser1
  case user2 => exact huser2
  case invalid => exact hinvalid
  case halt => exact hhalt

theorem exists_slotOf_of_lt {n : Byte} (h : n.toNat < numSlots) : ∃ slot, slotOf n = some slot :=
  Option.ne_none_iff_exists'.1 fun hn => Nat.not_le.2 h ((slotOf_eq_none_iff n).1 hn)

/-- BRK with a slot of 0 to 4 enters that slot, when the return address exists and two words can be pushed. -/
theorem exec_brk_enters {s : State} {n : Byte} (hv : s.cfg.valid = true) (hn : n.toNat < numSlots)
    (hpc : s.pc.toNat + 2 < memSize) (h4 : 4 ≤ s.sp.toNat) :
    ∃ slot, exec (.brk n) s = .next (s.entered slot (s.pc.toNat + 2)) := by
  obtain ⟨slot, hslot⟩ := exists_slotOf_of_lt hn
  refine ⟨slot, ?_⟩
  rw [exec_brk_slot s hslot]
  exact trapEntry_finish_next_iff.2 ⟨hpc, h4, vecAddr_succ_lt_of_valid hv slot, rfl⟩

/-- RTI takes the flags from the word at the top of the stack and resumes at the word above it. -/
theorem execRti_of_lt {s : State} (h : s.sp.toNat + 4 < memSize) :
    execRti s =
      .next ((((s.setFlags (unpackFlags (topWord s))).setSp (s.sp + 4)).debit 4).setPc (secondWord s)) :=
  execRti_next_iff.2 ⟨h, rfl⟩

theorem secondWord_congr {t u : State} (hsp : u.sp = t.sp)
    (hhi : u.mem.read (t.sp.toNat + 2) = t.mem.read (t.sp.toNat + 2))
    (hlo : u.mem.read (t.sp.toNat + 3) = t.mem.read (t.sp.toNat + 3)) : secondWord u = secondWord t := by
  rw [secondWord, secondWord, hsp, hhi, hlo]

end Sys2Proof.Machine

section
open Sys2Proof Sys2Proof.Machine

/-- Settles O58: RTI reads the two words the entry pushed, unpacking the flags undoes their packing, and the two moves
of `sp` by 4 cancel. -/
theorem interruptReturnSymmetry : Obligations.InterruptReturnSymmetry := by
  intro s u n hm hv hn hpc h4
  obtain ⟨slot, ht⟩ := exec_brk_enters hv hn (lt_memSize (Nat.lt_succ_of_le hpc)) h4
  refine ⟨_, ht, toNat_sub_four h4, fun hu hread => ?_⟩
  have hsp : u.sp = s.sp - 4 := hu
  have hpull : u.sp.toNat + 4 < memSize := by
    rw [hsp, toNat_sub_four h4, Nat.sub_add_cancel h4]
    exact lt_memSize s.sp.isLt
  refine ⟨_, execRti_of_lt hpull, ?pc, ?sp, ?flags⟩
  case pc =>
    have hret := (secondWord_congr hu (hread 2 (by decide)) (hread 3 (by decide))).trans
      (secondWord_entered hm h4 slot _)
    exact hret.trans (ofNat_toNat_add _ _)
  case sp =>
    change u.sp + 4 = s.sp
    rw [hsp, BitVec.sub_add_cancel]
  case flags =>
    have htop := (topWord_congr hu (hread 0 (by decide)) (hread 1 (by decide))).trans (topWord_entered hm h4 slot _)
    change unpackFlags (topWord u) = s.flags
    rw [htop, unpackFlags_packFlags]

end

namespace Sys2Proof.Machine

/-! ## The entry sequence and its frame (spec/60_exceptions.md R236, R237) -/

theorem loByte_eq_setWidth (v : Word) : loByte v = v.setWidth 8 := rfl

theorem wordOf_eq_iff {h l : Byte} {v : Word} : wordOf h l = v ↔ h = hiByte v ∧ l = loByte v := by
  constructor
  · rintro rfl
    simp
  · rintro ⟨rfl, rfl⟩
    simp

/-- The packed flags end at bit 6, so the high byte of their word is zero (spec/10_state.md R37). -/
theorem hiByte_packFlags (f : Flags) : hiByte (packFlags f) = 0 := by
  apply BitVec.eq_of_getLsbD_eq
  intro i hi
  have high : ∀ k < 8, ¬ 8 + i = k := by omega
  rw [hiByte, BitVec.getLsbD_extractLsb', packFlags_getLsbD]
  simp [high]

/-- The four stores of an interrupt entry, addressed from `sp` as it was. -/
theorem entryFrame_eq {s : State} (h4 : 4 ≤ s.sp.toNat) (ret : Nat) :
    entryFrame ret s = [(s.sp.toNat - 2, hiByte (BitVec.ofNat 16 ret)), (s.sp.toNat - 1, loByte (BitVec.ofNat 16 ret)),
      (s.sp.toNat - 4, 0x00), (s.sp.toNat - 3, (packFlags s.flags).setWidth 8)] := by
  have hflags : s.sp.toNat - 4 + 1 = s.sp.toNat - 3 := by omega
  rw [entryFrame, wordAt_sub_two (by omega), toNat_sub_four h4, wordAt, hiByte_packFlags,
    loByte_eq_setWidth (packFlags _), hflags]
  rfl

/-- A return address past the top is found before anything is pushed. -/
theorem trapEntry_of_ge {ret : Nat} (h : memSize ≤ ret) (slot : Slot) (s : State) :
    trapEntry slot ret s = .oob ret s := if_pos h

theorem trapEntry_of_lt {slot : Slot} {ret : Nat} {s : State} (hr : ret < memSize) (h4 : 4 ≤ s.sp.toNat)
    (hvec : (vecAddr s.cfg slot).toNat + 1 < memSize) :
    trapEntry slot ret s = .ok (s.entered slot ret).pc.toNat ((s.entered slot ret).setPc s.pc) :=
  trapEntry_ok_iff.2 ⟨hr, h4, hvec, rfl, rfl⟩

/-! ## The invalid-opcode entry (spec/60_exceptions.md R238) -/

/-- No row of the opcode map is at one of the bytes R91 lists (spec/30_encoding.md R91), checked a group of rows at a
time. -/
theorem opcodeMap_not_invalid : ∀ r ∈ opcodeMap, r.opcode ∉ invalidOpcodes := by
  simp only [opcodeMap, List.forall_mem_append]
  and_intros <;> decide

theorem lookup_eq_none_of_invalid {op : Byte} (h : op ∈ invalidOpcodes) : lookup op = none :=
  Option.eq_none_iff_forall_ne_some.2 fun _ hl => opcodeMap_not_invalid _ (mem_of_lookupIn hl) h

theorem step_of_running {s : State} (h : s.running) : step s = runInstruction s := by
  obtain ⟨hv, hf⟩ := h
  rw [step, engineStep, if_pos hv, hf]

/-- After a fetch of `n` bytes, the invalid-opcode entry costs one unit for the record byte beside those of the entry
sequence. -/
theorem invalidOpcode_finish_of_fetched {s : State} (hv : s.cfg.valid = true) (h4 : 4 ≤ s.sp.toNat) {ret : Nat}
    (hr : ret < memSize) (op : Byte) (n : Nat) (e : EngineState) :
    (invalidOpcode op ret ((s.debit n).setEngine e)).finish =
      .next (((({ s with engineState := e } : State).debit (n + 1)).stored
        [(s.cfg.invopAddr.toNat, op)]).entered .invalid ret) := by
  refine invalidOpcode_finish_next_iff.2 ⟨hr, h4, vecAddr_succ_lt_of_valid hv .invalid, ?_⟩
  rw [← stored_debit, ← State.debit_debit]
  rfl

end Sys2Proof.Machine

section
open Sys2Proof Sys2Proof.Machine

/-- Settles O42: past the check of the return address the entry is two pushes and a vector read, all in range. -/
theorem entrySequence : Obligations.EntrySequence := by
  intro s slot ret
  refine ⟨fun h => trapEntry_of_ge (Nat.succ_le_of_lt h) slot s, fun hr h4 hvec => ?_⟩
  rw [trapEntry_of_lt (Nat.lt_succ_of_le hr) h4 hvec, State.entered, entryFrame_eq h4]
  rfl

/-- Settles O59: the frame is the flags' word, whose high byte is zero, with the return address above it. -/
theorem interruptFrameLayout : Obligations.InterruptFrameLayout := by
  intro s slot ret hm hv hr h4
  refine ⟨_, _, trapEntry_of_lt hr h4 (vecAddr_succ_lt_of_valid hv slot), toNat_sub_four h4, rfl, ?_⟩
  have hsp : (s.entered slot ret).sp.toNat = s.sp.toNat - 4 := toNat_sub_four h4
  obtain ⟨hflagsHi, hflagsLo⟩ := wordOf_eq_iff.1 (topWord_entered hm h4 slot ret)
  obtain ⟨hretHi, hretLo⟩ := wordOf_eq_iff.1 (secondWord_entered hm h4 slot ret)
  rw [hsp] at hflagsHi hflagsLo hretHi hretLo
  rw [show s.sp.toNat - 4 + 1 = s.sp.toNat - 3 by omega] at hflagsLo
  rw [show s.sp.toNat - 4 + 2 = s.sp.toNat - 2 by omega] at hretHi
  rw [show s.sp.toNat - 4 + 3 = s.sp.toNat - 1 by omega] at hretLo
  exact ⟨hflagsHi.trans (hiByte_packFlags s.flags), hflagsLo, hretHi, hretLo⟩

/-- Settles O6: the invalid byte has no entry in the opcode map and the reserved slot no vector, so both take the
invalid-opcode entry, after a fetch of one byte and of two. -/
theorem invalidOpcodeEntry : Obligations.InvalidOpcodeEntry := by
  refine ⟨fun s hrun hop hpc h4 => ⟨.trapping, ?_⟩, fun s n rest hrun hdec hn hpc h4 => ⟨.executing, ?_⟩, by decide⟩
  · rw [step_of_running hrun, runInstruction_eq, decodeAndExecute_of_invalid (lookup_eq_none_of_invalid hop)]
    exact invalidOpcode_finish_of_fetched hrun.1 h4 hpc _ 1 _
  · rw [step_of_running hrun, runInstruction_of_decode_instr hdec, exec_brk_reserved _ ((slotOf_eq_none_iff n).2 hn)]
    exact invalidOpcode_finish_of_fetched hrun.1 h4 hpc _ 2 _

end

namespace Sys2Proof

theorem Instr.units_pos (i : Instr) : 0 < i.units := by
  cases i
  case brk n =>
    rw [Instr.units]
    split <;> decide
  all_goals exact Nat.succ_pos _

theorem Shape.operandBytes_le_two : ∀ shape : Shape, shape.operandBytes ≤ 2
  | .implied _  => Nat.zero_le 2
  | .withByte _ => Nat.le_succ 1
  | .withWord _ => Nat.le_refl 2

/-- Bytes that are too few are none at all, or an opcode byte with fewer operand bytes than its format has. -/
theorem decode_truncated_cases {bytes : List Byte} (h : decode bytes = .truncated) :
    bytes = [] ∨ ∃ op shape bs, bytes = op :: bs ∧ lookup op = some shape ∧ bs.length < shape.operandBytes := by
  unfold decode at h
  split at h
  · exact .inl rfl
  · next op bs =>
    split at h
    · cases h
    · cases h
    · next mk hl =>
      split at h
      · cases h
      · exact .inr ⟨op, _, [], rfl, hl, Nat.one_pos⟩
    · next mk hl =>
      split at h
      · cases h
      · next hshort =>
        refine .inr ⟨op, _, bs, rfl, hl, ?_⟩
        match bs with
        | [] => exact Nat.two_pos
        | [_] => exact Nat.one_lt_two
        | hi :: lo :: rest => exact (hshort hi lo rest rfl).elim

namespace Machine

/-! ## Images (spec/70_reset_and_hazards.md R273) -/

/-- Each byte of an image is read where it was put: no later byte of the image is written over it. -/
theorem Memory.read_writeAll_getElem {m : Memory} (hm : m.wf = true) {bs : List Byte} {a k : Nat}
    (ha : a + bs.length ≤ memSize) (hk : k < bs.length) : (m.writeAll a bs).read (a + k) = bs[k] := by
  induction bs generalizing m a k with
  | nil => exact absurd hk (Nat.not_lt_zero k)
  | cons b bs ih =>
    rw [List.length_cons] at ha
    rw [Memory.writeAll]
    cases k with
    | zero => exact (Memory.read_writeAll_other (.inl (Nat.lt_succ_self a)) _).trans (Memory.read_write_self hm a b)
    | succ k =>
      have hfit : a + 1 + bs.length ≤ memSize := by omega
      have shift : a + (k + 1) = a + 1 + k := by omega
      exact shift ▸ ih (Memory.wf_write (by omega) b hm) hfit (Nat.lt_of_succ_lt_succ hk)

theorem loadImage_of_le {addr : Nat} {bytes : List Byte} (h : addr + bytes.length ≤ memSize) (s : State) :
    loadImage addr bytes s = .next { s with mem := s.mem.writeAll addr bytes } := if_pos h

theorem loadImage_of_gt {addr : Nat} {bytes : List Byte} (h : memSize < addr + bytes.length) (s : State) :
    loadImage addr bytes s = .refused .imageOutOfBounds := if_neg (Nat.not_le.2 h)

/-! ## A fetch past the top of the address space (spec/40_execution.md R101) -/

section
variable {s : State}

theorem bytesAtPc_length : s.bytesAtPc.length = min 3 (memSize - s.pc.toNat) := by
  rw [State.bytesAtPc, List.length_map, List.length_range]

theorem bytesAtPc_ne_nil : s.bytesAtPc ≠ [] := by
  have hpc : s.pc.toNat < memSize := s.pc.isLt
  rw [← List.length_pos_iff, bytesAtPc_length]
  omega

/-- If the operand bytes reach past the top, the fetch of the first byte there faults; those before it are debited. -/
theorem decodeAndExecute_of_past {op : Byte} {shape : Shape} (hl : lookup op = some shape)
    (h : memSize ≤ s.pc.toNat + shape.operandBytes) :
    decodeAndExecute op s = raiseFault memSize (s.debit (memSize - (s.pc.toNat + 1))) := by
  have hpc : s.pc.toNat < memSize := s.pc.isLt
  cases shape with
  | implied i => exact absurd h (Nat.not_le.2 hpc)
  | withByte mk =>
    have htop : s.pc.toNat + 1 = memSize := Nat.le_antisymm hpc h
    simp only [decodeAndExecute, hl, htop, fetch8_of_ge le_rfl, Nat.sub_self, State.debit_zero]
  | withWord mk =>
    obtain htop | htop : s.pc.toNat + 1 = memSize ∨ s.pc.toNat + 1 + 1 = memSize :=
      (Nat.eq_or_lt_of_le hpc).imp_right fun h' => Nat.le_antisymm h' h
    · simp only [decodeAndExecute, hl, htop, fetch16_eq_readWord, readWord_of_ge le_rfl, Nat.sub_self,
        State.debit_zero]
    · have hone : memSize - (s.pc.toNat + 1) = 1 := by omega
      simp only [decodeAndExecute, hl, fetch16_eq_readWord, readWord_of_top htop, hone]
      rfl

/-- One step from bytes that are too few faults at the first address past the top, a unit debited for each of them. -/
theorem runInstruction_of_decode_truncated (h : decode s.bytesAtPc = .truncated) :
    runInstruction s = raiseFault memSize ((s.debit s.bytesAtPc.length).setEngine .decoding) := by
  obtain hnil | ⟨op, shape, bs, hb, hl, hshort⟩ := decode_truncated_cases h
  · exact absurd hnil bytesAtPc_ne_nil
  · have hlen : s.bytesAtPc.length = bs.length + 1 := congrArg List.length hb
    have hmin : s.bytesAtPc.length = min 3 (memSize - s.pc.toNat) := bytesAtPc_length
    have htwo : shape.operandBytes ≤ 2 := shape.operandBytes_le_two
    have hall : s.bytesAtPc.length = 1 + (memSize - (s.pc.toNat + 1)) := by omega
    have hpast : memSize ≤ s.pc.toNat + shape.operandBytes := by omega
    rw [runInstruction_eq, bytesAtPc_head hb, hall, ← State.debit_debit,
      decodeAndExecute_of_past (s := (s.debit 1).setEngine .decoding) hl hpast]
    rfl

end

/-! ## The budget of a step (spec/40_execution.md R106) -/

/-- A step that answers has debited its units, and there is at least one: it had all its bytes to fetch. -/
theorem step_next_budget {s t : State} (h : step s = .next t) :
    t.budget = s.budget - stepUnits s ∧ 0 < stepUnits s := by
  obtain ⟨hinstr, hinvalid⟩ := unitsPerInstruction s t h
  rw [stepUnits]
  cases hd : decode s.bytesAtPc with
  | instr i rest => exact ⟨hinstr i rest hd, i.units_pos⟩
  | invalidOpcode op => exact ⟨hinvalid op hd, Nat.succ_pos 7⟩
  | truncated =>
    have hr := step_next h
    rw [runInstruction_of_decode_truncated hd] at hr
    cases hr

/-! ## From a state that can run, a step answers such a state or raises the out-of-range fault (R107, R242) -/

theorem Kept.running : Kept State.running where
  debit _ h := h
  putByte _ _ h := h
  setA _ h := h
  setX _ h := h
  setY _ h := h
  flags _ h := h
  push h _ := h
  pull h _ := h

theorem step_of_running_cases {s : State} (h : s.running) :
    (∃ t, step s = .next t ∧ t.running) ∨ ∃ addr final, step s = .fault (.outOfRange addr final) := by
  have keeps := Kept.running.runInstruction (fun _ hu => hu) h
  rw [← step_of_running h] at keeps
  match hs : step s, keeps with
  | .next t, ⟨u, w, hu, ht⟩ => exact .inl ⟨t, rfl, ht ▸ hu⟩
  | .fault (.outOfRange addr final), _ => exact .inr ⟨addr, final, rfl⟩

/-! ## Runs, one step at a time -/

theorem coreRun_succ_of_next {M : Host.Core} {s t : M.State} (h : M.step s = .next t) (k : Nat) :
    M.run (k + 1) s = M.run k t := by
  rw [Host.Core.run, h]

section
variable {s t : State}

theorem runSteps_succ_of_next (h : step s = .next t) (k : Nat) : runSteps (k + 1) s = runSteps k t :=
  coreRun_succ_of_next (M := core) h k

theorem unitsOfRun_succ_of_next (h : step s = .next t) (k : Nat) :
    unitsOfRun (k + 1) s = stepUnits s + unitsOfRun k t := by
  rw [unitsOfRun, h]

theorem runLoop_of_exhausted (h : s.budget ≤ 0) (fuel : Nat) :
    runLoop fuel s = .next ⟨.budgetExhausted, s.setEngine .halted⟩ := by
  cases fuel with
  | zero => rfl
  | succ fuel => exact if_neg (Int.not_lt.2 h)

theorem runLoop_succ_of_next (hb : 0 < s.budget) (h : step s = .next t) (fuel : Nat) :
    runLoop (fuel + 1) s = runLoop fuel t := by
  rw [runLoop, if_pos hb, h]

theorem runLoop_succ_of_outOfRange {addr : Int} (hb : 0 < s.budget) (h : step s = .fault (.outOfRange addr t))
    (fuel : Nat) : runLoop (fuel + 1) s = .next ⟨.faulted, t⟩ := by
  rw [runLoop, if_pos hb, h]

theorem execute_of_running (h : s.running) (n : Int) :
    execute n s = runLoop n.toNat { s with budget := n, engineState := .idle } := by
  obtain ⟨hv, hf⟩ := h
  rw [execute, if_pos hv, hf]

end

/-! ## The loop of `execute` (spec/40_execution.md R100, R103; spec/70_reset_and_hazards.md R283) -/

/-- The first `k` steps from `s` answer, the last of them `t`; the budget is positive before each, and `t` has what
their units leave of it. -/
structure FundedRun (s : State) (k : Nat) (t : State) : Prop where
  steps  : runSteps k s = .next t
  budget : t.budget = s.budget - unitsOfRun k s
  funded : ∀ j < k, ∃ u, runSteps j s = .next u ∧ 0 < u.budget

theorem FundedRun.zero (s : State) : FundedRun s 0 s where
  steps := rfl
  budget := (Int.sub_zero _).symm
  funded j hj := absurd hj (Nat.not_lt_zero j)

theorem FundedRun.cons {s u t : State} {k : Nat} (hb : 0 < s.budget) (hs : step s = .next u) (h : FundedRun u k t) :
    FundedRun s (k + 1) t where
  steps := (runSteps_succ_of_next hs k).trans h.steps
  budget := by
    rw [h.budget, (step_next_budget hs).1, unitsOfRun_succ_of_next hs, Int.natCast_add, Int.sub_sub]
  funded j hj := by
    cases j with
    | zero => exact ⟨s, rfl, hb⟩
    | succ j =>
      rw [runSteps_succ_of_next hs]
      exact h.funded j (Nat.lt_of_succ_lt_succ hj)

/-- The two ways a call of `execute` ends at `t`: the budget is exhausted, or the next step raises the fault. -/
def EndsAt (t : State) (r : Host.Outcome RunResult Fault Refusal) : Prop :=
  (t.budget ≤ 0 ∧ r = .next ⟨.budgetExhausted, t.setEngine .halted⟩) ∨
    (0 < t.budget ∧ ∃ addr final, step t = .fault (.outOfRange addr final) ∧ r = .next ⟨.faulted, final⟩)

/-- As every step debits a unit, fuel for each unit of the budget lets the loop end in one of the two ways. -/
theorem runLoop_ends (fuel : Nat) {s : State} (hrun : s.running) (hfuel : s.budget ≤ fuel) :
    ∃ k t, FundedRun s k t ∧ EndsAt t (runLoop fuel s) := by
  induction fuel generalizing s with
  | zero => exact ⟨0, s, .zero s, .inl ⟨hfuel, rfl⟩⟩
  | succ fuel ih =>
    by_cases hb : 0 < s.budget
    · obtain ⟨u, hs, hu⟩ | ⟨addr, final, hs⟩ := step_of_running_cases hrun
      · obtain ⟨hunits, hpos⟩ := step_next_budget hs
        obtain ⟨k, t, hfunded, hend⟩ := ih hu (by omega)
        exact ⟨k + 1, t, hfunded.cons hb hs, runLoop_succ_of_next hb hs fuel ▸ hend⟩
      · exact ⟨0, s, .zero s, .inr ⟨hb, addr, final, hs, runLoop_succ_of_outOfRange hb hs fuel⟩⟩
    · have hb : s.budget ≤ 0 := Int.not_lt.1 hb
      exact ⟨0, s, .zero s, .inl ⟨hb, runLoop_of_exhausted hb _⟩⟩

end Machine

end Sys2Proof

section
open Sys2Proof Sys2Proof.Machine

/-- Settles O15: the image is written byte by byte at rising addresses, each read back and none outside it touched. -/
theorem loadImageWrites : Obligations.LoadImageWrites := by
  intro s addr bytes hm
  refine ⟨fun hfit => ⟨_, loadImage_of_le hfit s, ?_, ?_⟩, fun hbig => loadImage_of_gt hbig s⟩
  · exact fun k hk => Memory.read_writeAll_getElem hm hfit hk
  · exact fun b hb => Memory.read_writeAll_other hb s.mem

/-- Settles O16: the loop's fuel is the budget, and every step debits at least one unit of it. -/
theorem executeRunsShortestPrefix : Obligations.ExecuteRunsShortestPrefix := by
  intro n s hrun
  rw [execute_of_running hrun]
  refine ⟨fun hn => runLoop_of_exhausted hn _, fun _ => ?_⟩
  obtain ⟨k, t, ⟨hsteps, hbudget, hfunded⟩, hend⟩ :=
    runLoop_ends n.toNat (s := { s with budget := n, engineState := .idle }) hrun (Int.self_le_toNat n)
  exact ⟨k, t, hsteps, hbudget, hfunded, hend⟩

end

namespace Sys2Proof

/-! ## Decoding from the entry of the opcode byte (spec/30_encoding.md R80, R88) -/

section
variable {op : Byte} (rest : List Byte)

theorem decode_of_implied {i : Instr} (hl : lookup op = some (.implied i)) : decode ([op] ++ rest) = .instr i rest := by
  simp only [List.cons_append, List.nil_append, decode, hl]

theorem decode_of_withByte {mk : Byte → Instr} (hl : lookup op = some (.withByte mk)) (b : Byte) :
    decode ([op, b] ++ rest) = .instr (mk b) rest := by
  simp only [List.cons_append, List.nil_append, decode, hl]

/-- The two operand bytes are those of the word, the high byte first (R85). -/
theorem decode_of_withWord {mk : Word → Instr} (hl : lookup op = some (.withWord mk)) (w : Word) :
    decode (absBytes op w ++ rest) = .instr (mk w) rest := by
  simp only [absBytes, List.cons_append, List.nil_append, decode, hl, Machine.wordOf_hi_lo]

end

theorem lookupIn_eq_none_iff {rows : List Row} {op : Byte} :
    lookupIn rows op = none ↔ op ∉ rows.map Row.opcode := by
  induction rows with
  | nil => simp [lookupIn]
  | cons r rs ih =>
    by_cases h : r.opcode = op
    · simp [lookupIn, h]
    · simp [lookupIn, h, ih, Ne.symm h]

/-- A set of bytes as a number: bit `k` says whether `k` is among them. -/
def byteMask (l : List Byte) : Nat := l.foldr (fun b mask => 2 ^ b.toNat ||| mask) 0

theorem testBit_byteMask {l : List Byte} {op : Byte} : (byteMask l).testBit op.toNat = true ↔ op ∈ l := by
  induction l with
  | nil => simp [byteMask]
  | cons b l ih =>
    change (2 ^ b.toNat ||| byteMask l).testBit op.toNat = true ↔ _
    rw [Nat.testBit_or, Bool.or_eq_true, ih, Nat.testBit_two_pow, decide_eq_true_iff, BitVec.toNat_inj, List.mem_cons,
      eq_comm]

/-- The opcodes of the rows and the bytes R91 lists are all 256 bytes. -/
theorem byteMask_opcodes : byteMask (opcodeMap.map Row.opcode ++ invalidOpcodes) = 2 ^ 256 - 1 := by
  simp only [byteMask, opcodeMap, loadRows, storeRows, arithRows, compareRows, incDecRows, controlRows, systemRows,
    invalidOpcodes, List.map_append, List.foldr_append, List.map_cons, List.map_nil, List.foldr_cons, List.foldr_nil,
    BitVec.reduceToNat, Nat.reducePow, Nat.reduceOr, Nat.reduceSub]

theorem opcode_or_invalid (op : Byte) : op ∈ opcodeMap.map Row.opcode ∨ op ∈ invalidOpcodes := by
  rw [← List.mem_append, ← testBit_byteMask, byteMask_opcodes, Nat.testBit_two_pow_sub_one]
  exact decide_eq_true op.isLt

theorem lookup_eq_none_iff {op : Byte} : lookup op = none ↔ op ∈ invalidOpcodes :=
  ⟨fun h => (opcode_or_invalid op).resolve_left (lookupIn_eq_none_iff.1 h), Machine.lookup_eq_none_of_invalid⟩

theorem decode_of_invalid {op : Byte} (hl : lookup op = none) (rest : List Byte) :
    decode (op :: rest) = .invalidOpcode op := by
  simp only [decode, hl]

end Sys2Proof

section
open Sys2Proof Sys2Proof.Machine

/-- Settles O1: an encoding is an opcode byte, whose entry has the format of the operand bytes that follow it. -/
theorem decodeOfEncode : Obligations.DecodeOfEncode := by
  intro i rest
  cases i
  case inx | iny | dex | dey | rts | pha | pla | php | plp | clc | cld | clv | cli | nop | rti =>
    exact decode_of_implied rest rfl
  case ldaImm b | ldaZp b | ldaZpX b | ldxImm b | ldxZp b | ldxZpY b | ldyImm b | ldyZp b | ldyZpX b
      | staZp b | staZpX b | stxZp b | stxZpY b | styZp b | styZpX b | adcImm b | adcZp b | adcZpX b
      | andImm b | andZp b | andZpX b | oraImm b | oraZp b | oraZpX b | eorImm b | eorZp b | eorZpX b
      | cmpImm b | cmpZp b | cmpZpX b | cpxImm b | cpxZp b | cpyImm b | cpyZp b | incZp b | incZpX b | decZp b
      | decZpX b | bcc b | bcs b | beq b | bne b | bmi b | bpl b | bvc b | bvs b | brk b =>
    exact decode_of_withByte rest rfl b
  case ldaAbs w | ldaAbsX w | ldaAbsY w | ldxAbs w | ldxAbsY w | ldyAbs w | ldyAbsX w | staAbs w | staAbsX w
      | staAbsY w | stxAbs w | styAbs w | adcAbs w | adcAbsX w | adcAbsY w | andAbs w | andAbsX w | andAbsY w
      | oraAbs w | oraAbsX w | oraAbsY w | eorAbs w | eorAbsX w | eorAbsY w | cmpAbs w | cmpAbsX w | cmpAbsY w
      | cpxAbs w | cpyAbs w | incAbs w | incAbsX w | decAbs w | decAbsX w | jmp w | jsr w =>
    exact decode_of_withWord rest rfl w

/-- Settles O2: the entry that decoded the bytes encodes its instructions as exactly those bytes. -/
theorem encodeOfDecode : Obligations.EncodeOfDecode := by
  intro bytes i rest h
  obtain ⟨op, rfl, hl⟩ | ⟨op, b, mk, rfl, hl, rfl⟩ | ⟨op, hi, lo, mk, rfl, hl, rfl⟩ := decode_instr_cases h
  · have henc : encode i = [op] := lookup_encodesAs hl
    rw [henc]
    rfl
  · have henc : encode (mk b) = [op, b] := lookup_encodesAs hl b
    rw [henc]
    rfl
  · have henc : encode (mk (wordOf hi lo)) = absBytes op (wordOf hi lo) := lookup_encodesAs hl _
    rw [henc, absBytes, hiByte_wordOf, loByte_wordOf]
    rfl

/-- Settles O3: the decoder rejects just the bytes without an entry, and those are the bytes R91 lists. -/
theorem invalidOpcodesRejected : Obligations.InvalidOpcodesRejected := by
  intro op rest
  rw [← lookup_eq_none_iff]
  exact ⟨fun h => (decode_invalidOpcode h).2, fun h => decode_of_invalid h rest⟩

/-- Settles O4: each opcode byte is looked up and its operand bytes are read. -/
theorem sampleWordsDecode : Obligations.SampleWordsDecode := by
  unfold Obligations.SampleWordsDecode
  decide

/-- Settles O5: a step of an engine that can run is the instruction rule, which runs what the bytes decode to. -/
theorem stepRunsDecodedInstruction : Obligations.StepRunsDecodedInstruction := by
  intro s i rest hrun hdec
  rw [step_of_running hrun, runInstruction_of_decode_instr hdec]

/-- Settles O7: the fetch reaches the first address past the top after every byte below it. -/
theorem operandFetchPastTopFaults : Obligations.OperandFetchPastTopFaults := by
  intro s hrun hdec
  rw [step_of_running hrun, runInstruction_of_decode_truncated hdec]
  rfl

end

namespace Sys2Proof

namespace Machine

/-! ## What an instruction that answers a next state can depend on and change -/

/-- Values to put where an instruction does not look. -/
structure Unread where
  a : Byte
  x : Byte
  y : Byte
  i : Bool
  d : Bool
  b : Bool

/-- The values a state has there itself. -/
def State.unread (s : State) : Unread where
  a := s.a
  x := s.x
  y := s.y
  i := s.flags.i
  d := s.flags.d
  b := s.flags.b

/-- What the spec's tables say of an instruction but for the index registers it reads. -/
structure Access where
  readsA     : Bool := false
  packsFlags : Bool := false
  writesA    : Bool := false
  writesX    : Bool := false
  writesY    : Bool := false
  writesC    : Bool := false
  writesZN   : Bool := false
  writesV    : Bool := false
  writesI    : Bool := false
  writesD    : Bool := false
  writesB    : Bool := false
  spChange   : Word := 0

end Machine

/-- The access of an instruction, from the tables of Safety (spec/10_state.md R21 to R36). -/
def Instr.access (i : Instr) : Machine.Access :=
  ⟨i.readsA, i.packsFlags, i.writesA, i.writesX, i.writesY, i.writesC, i.writesZN, i.writesV, i.writesI, i.writesD,
    i.writesB, i.spChange⟩

namespace Machine

/-- `s` with the registers that `i` does not read, and I, D and B if it does not pack the flags, replaced
(spec/10_state.md R21 to R23, R34 to R36). -/
def State.vary (s : State) (i : Instr) (v : Unread) : State :=
  { s with
    a := if i.access.readsA then s.a else v.a
    x := if i.readsX then s.x else v.x
    y := if i.readsY then s.y else v.y
    flags := { s.flags with
      i := if i.access.packsFlags then s.flags.i else v.i
      d := if i.access.packsFlags then s.flags.d else v.d
      b := if i.access.packsFlags then s.flags.b else v.b } }

/-- `t` with every register and flag that an instruction does not write as in `s`. -/
def State.framed (t : State) (acc : Access) (s : State) : State :=
  { t with
    a := if acc.writesA then t.a else s.a
    x := if acc.writesX then t.x else s.x
    y := if acc.writesY then t.y else s.y
    flags := {
      c := if acc.writesC then t.flags.c else s.flags.c
      z := if acc.writesZN then t.flags.z else s.flags.z
      i := if acc.writesI then t.flags.i else s.flags.i
      d := if acc.writesD then t.flags.d else s.flags.d
      b := if acc.writesB then t.flags.b else s.flags.b
      v := if acc.writesV then t.flags.v else s.flags.v
      n := if acc.writesZN then t.flags.n else s.flags.n } }

/-- What the tables give of an instruction `i` that runs from `s` and answers `t`. -/
structure Runs (i : Instr) (s t : State) : Prop where
  /-- `sp` moves by what `i` pushes and pulls (spec/10_state.md R27). -/
  sp       : t.sp = s.sp + i.access.spChange
  /-- In sequence, the next instruction's address exists (spec/10_state.md R26). -/
  sequence : i.transfersControl = false → s.pc.toNat + (encode i).length < memSize
  /-- Every byte is stored in the address space (spec/20_memory.md R50). -/
  stores   : ∀ p ∈ storesOf i s, p.1 < memSize
  /-- What `i` does not read changes nothing but itself. -/
  vary     : ∀ v, exec i (s.vary i v) = .next (t.framed i.access (s.vary i v))

theorem wordAt_lt {sp : Word} (h : 2 ≤ sp.toNat) (v : Word) : ∀ p ∈ wordAt (sp - 2).toNat v, p.1 < memSize := by
  have := sp.isLt
  rw [wordAt_sub_two h]
  simp only [List.forall_mem_cons]
  exact ⟨lt_memSize (by omega), lt_memSize (by omega), List.forall_mem_nil _⟩

theorem entryFrame_lt {s : State} (h4 : 4 ≤ s.sp.toNat) (ret : Nat) : ∀ p ∈ entryFrame ret s, p.1 < memSize := by
  have hs := toNat_sub_two (w := s.sp) (by omega)
  rw [entryFrame, List.forall_mem_append, ← sub_two_sub_two]
  exact ⟨wordAt_lt (by omega) _, wordAt_lt (by omega) _⟩

section
variable {s t : State}

/-- BRK keeps to its row whether its slot is reserved or not. -/
theorem exec_brk_runs {n : Byte} (h : exec (.brk n) s = .next t) : Runs (.brk n) s t := by
  refine ⟨?sp, nofun, ?stores, ?vary⟩
  case sp =>
    rw [execBrk_next_sp h, sub_two_sub_two, BitVec.sub_eq_add_neg]
    rfl
  case stores =>
    obtain ⟨-, h4, -⟩ := exec_brk_next h
    rw [storesOf]
    split
    · exact entryFrame_lt h4 _
    · exact List.forall_mem_cons.2 ⟨lt_memSize s.cfg.invopAddr.isLt, entryFrame_lt h4 _⟩
  case vary =>
    intro v
    cases hs : slotOf n with
    | some slot =>
      rw [exec_brk_slot _ hs, trapEntry_finish_next_iff] at h ⊢
      obtain ⟨hret, h4, hvec, rfl⟩ := h
      exact ⟨hret, h4, hvec, rfl⟩
    | none =>
      rw [exec_brk_reserved _ hs, invalidOpcode_finish_next_iff] at h ⊢
      obtain ⟨hret, h4, hvec, rfl⟩ := h
      exact ⟨hret, h4, hvec, rfl⟩

end

/-- The address an operand is read at, if it is in memory. -/
def Operand.address (s : State) : Operand → Option Nat
  | .immediate _ => none
  | .memory mode => some (mode.ea s)

theorem Operand.value_congr {o : Operand} {s u : State} (hmem : u.mem = s.mem) (h : o.address u = o.address s) :
    o.value u = o.value s := by
  cases o with
  | immediate m => rfl
  | memory mode => exact congrArg₂ Memory.read hmem (Option.some.inj h)

theorem Operand.readable_congr {o : Operand} {s u : State} (h : o.address u = o.address s) :
    o.readable u ↔ o.readable s := by
  cases o with
  | immediate m => exact Iff.rfl
  | memory mode => rw [readable_memory, readable_memory, Option.some.inj h]

/-- `i` has the operand `o`, at an address that nothing decides but what `i` reads, and the access `acc`. -/
structure HasOperand (i : Instr) (o : Operand) (acc : Access) : Prop where
  access  : i.access = acc
  length  : (encode i).length = o.length
  address : ∀ s v, o.address (s.vary i v) = o.address s

/-- The register a load writes, with what the load writes beside it. -/
inductive Loads : (Byte → State → State) → Access → Prop where
  | a : Loads State.setA { writesA := true, writesZN := true }
  | x : Loads State.setX { writesX := true, writesZN := true }
  | y : Loads State.setY { writesY := true, writesZN := true }

section
variable {i : Instr} {o : Operand} {mode : AddrMode} {acc : Access} {s t : State}

theorem HasOperand.value (hi : HasOperand i o acc) (v : Unread) : o.value (s.vary i v) = o.value s :=
  Operand.value_congr rfl (hi.address s v)

theorem HasOperand.readable (hi : HasOperand i o acc) (v : Unread) : o.readable (s.vary i v) ↔ o.readable s :=
  Operand.readable_congr (hi.address s v)

theorem HasOperand.ea (hi : HasOperand i (.memory mode) acc) (v : Unread) : mode.ea (s.vary i v) = mode.ea s :=
  Option.some.inj (hi.address s v)

/-- An instruction with an operand runs in sequence and leaves `sp` alone. -/
theorem HasOperand.runs (hi : HasOperand i o acc) (hstay : acc.spChange = 0) (hsp : t.sp = s.sp)
    (hpc : s.pc.toNat + o.length < memSize) (hs : ∀ p ∈ storesOf i s, p.1 < memSize)
    (hv : ∀ v, exec i (s.vary i v) = .next (t.framed acc (s.vary i v))) : Runs i s t where
  sp := by rw [hi.access, hstay, hsp]; exact (BitVec.add_zero _).symm
  sequence _ := hi.length ▸ hpc
  stores := hs
  vary := hi.access ▸ hv

theorem loadInto_runs {set : Byte → State → State} (he : ∀ u, exec i u = loadInto set o u) (hi : HasOperand i o acc)
    (hset : Loads set acc) (hs : storesOf i s = []) (h : exec i s = .next t) : Runs i s t := by
  rw [he] at h
  cases hset <;> (
    obtain ⟨hr, hpc, rfl⟩ := (loadInto_next_iff (by simp)).1 h
    refine hi.runs rfl rfl hpc (by simp [hs]) fun v => (he _).trans ?_
    refine (loadInto_next_iff (by simp)).2 ⟨(hi.readable v).2 hr, hpc, ?_⟩
    rw [hi.value v]
    rfl)

theorem storeFrom_runs {reg : State → Byte} {r : Bool} (he : ∀ u, exec i u = storeFrom (reg u) mode u)
    (hi : HasOperand i (.memory mode) { readsA := r }) (hreg : ∀ v, reg (s.vary i v) = reg s)
    (hs : storesOf i s = [(mode.ea s, reg s)]) (h : exec i s = .next t) : Runs i s t := by
  rw [he] at h
  obtain ⟨hea, hpc, rfl⟩ := storeFrom_next_iff.1 h
  refine hi.runs rfl rfl hpc (by simpa [hs] using hea) fun v => (he _).trans ?_
  rw [storeFrom_next_iff, hi.ea v, hreg v]
  exact ⟨hea, hpc, rfl⟩

theorem addWithCarry_runs (he : ∀ u, exec i u = addWithCarry o u)
    (hi : HasOperand i o { readsA := true, writesA := true, writesC := true, writesZN := true, writesV := true })
    (hs : storesOf i s = []) (h : exec i s = .next t) : Runs i s t := by
  rw [he] at h
  obtain ⟨hr, hpc, rfl⟩ := addWithCarry_next_iff.1 h
  refine hi.runs rfl rfl hpc (by simp [hs]) fun v => (he _).trans ?_
  refine addWithCarry_next_iff.2 ⟨(hi.readable v).2 hr, hpc, ?_⟩
  rw [hi.value v, State.vary, hi.access]
  rfl

theorem bitwise_runs {f : Byte → Byte → Byte} (he : ∀ u, exec i u = bitwise f o u)
    (hi : HasOperand i o { readsA := true, writesA := true, writesZN := true })
    (hs : storesOf i s = []) (h : exec i s = .next t) : Runs i s t := by
  rw [he] at h
  obtain ⟨hr, hpc, rfl⟩ := bitwise_next_iff.1 h
  refine hi.runs rfl rfl hpc (by simp [hs]) fun v => (he _).trans ?_
  refine bitwise_next_iff.2 ⟨(hi.readable v).2 hr, hpc, ?_⟩
  rw [hi.value v, State.vary, hi.access]
  rfl

theorem compareWith_runs {reg : State → Byte} {r : Bool} (he : ∀ u, exec i u = compareWith (reg u) o u)
    (hi : HasOperand i o { readsA := r, writesC := true, writesZN := true }) (hreg : ∀ v, reg (s.vary i v) = reg s)
    (hs : storesOf i s = []) (h : exec i s = .next t) : Runs i s t := by
  rw [he] at h
  obtain ⟨hr, hpc, rfl⟩ := compareWith_next_iff.1 h
  refine hi.runs rfl rfl hpc (by simp [hs]) fun v => (he _).trans ?_
  refine compareWith_next_iff.2 ⟨(hi.readable v).2 hr, hpc, ?_⟩
  rw [hi.value v, hreg v]
  rfl

theorem readModifyWrite_runs {f : Byte → Byte} (he : ∀ u, exec i u = readModifyWrite f mode u)
    (hi : HasOperand i (.memory mode) { writesZN := true })
    (hs : storesOf i s = [(mode.ea s, f (s.mem.read (mode.ea s)))]) (h : exec i s = .next t) : Runs i s t := by
  rw [he] at h
  obtain ⟨hea, hpc, rfl⟩ := readModifyWrite_next_iff.1 h
  refine hi.runs rfl rfl hpc (by simpa [hs] using hea) fun v => (he _).trans ?_
  rw [readModifyWrite_next_iff, hi.ea v]
  exact ⟨hea, hpc, rfl⟩

end

/-- Each of the 97 instructions keeps to its row of the tables. -/
theorem exec_runs {i : Instr} {s t : State} (h : exec i s = .next t) : Runs i s t := by
  have stay : s.sp = s.sp + 0 := (BitVec.add_zero _).symm
  have down : s.sp - 2 = s.sp + (-2) := BitVec.sub_eq_add_neg _ 2
  have storeless : ∀ p ∈ ([] : List (Nat × Byte)), p.1 < memSize := List.forall_mem_nil _
  cases i
  case ldaImm m =>
    exact loadInto_runs (o := .immediate m) (fun _ => rfl) ⟨rfl, rfl, fun _ _ => rfl⟩ .a rfl h
  case ldaZp | ldaZpX | ldaAbs | ldaAbsX | ldaAbsY =>
    exact loadInto_runs (fun _ => rfl) ⟨rfl, rfl, fun _ _ => rfl⟩ .a rfl h
  case ldxImm m =>
    exact loadInto_runs (o := .immediate m) (fun _ => rfl) ⟨rfl, rfl, fun _ _ => rfl⟩ .x rfl h
  case ldxZp | ldxZpY | ldxAbs | ldxAbsY =>
    exact loadInto_runs (fun _ => rfl) ⟨rfl, rfl, fun _ _ => rfl⟩ .x rfl h
  case ldyImm m =>
    exact loadInto_runs (o := .immediate m) (fun _ => rfl) ⟨rfl, rfl, fun _ _ => rfl⟩ .y rfl h
  case ldyZp | ldyZpX | ldyAbs | ldyAbsX =>
    exact loadInto_runs (fun _ => rfl) ⟨rfl, rfl, fun _ _ => rfl⟩ .y rfl h
  case staZp | staZpX | staAbs | staAbsX | staAbsY =>
    exact storeFrom_runs (reg := State.a) (fun _ => rfl) ⟨rfl, rfl, fun _ _ => rfl⟩ (fun _ => rfl) rfl h
  case stxZp | stxZpY | stxAbs =>
    exact storeFrom_runs (reg := State.x) (fun _ => rfl) ⟨rfl, rfl, fun _ _ => rfl⟩ (fun _ => rfl) rfl h
  case styZp | styZpX | styAbs =>
    exact storeFrom_runs (reg := State.y) (fun _ => rfl) ⟨rfl, rfl, fun _ _ => rfl⟩ (fun _ => rfl) rfl h
  case adcImm m =>
    exact addWithCarry_runs (o := .immediate m) (fun _ => rfl) ⟨rfl, rfl, fun _ _ => rfl⟩ rfl h
  case adcZp | adcZpX | adcAbs | adcAbsX | adcAbsY =>
    exact addWithCarry_runs (fun _ => rfl) ⟨rfl, rfl, fun _ _ => rfl⟩ rfl h
  case andImm m | oraImm m | eorImm m =>
    exact bitwise_runs (o := .immediate m) (fun _ => rfl) ⟨rfl, rfl, fun _ _ => rfl⟩ rfl h
  case andZp | andZpX | andAbs | andAbsX | andAbsY | oraZp | oraZpX | oraAbs | oraAbsX | oraAbsY
      | eorZp | eorZpX | eorAbs | eorAbsX | eorAbsY =>
    exact bitwise_runs (fun _ => rfl) ⟨rfl, rfl, fun _ _ => rfl⟩ rfl h
  case cmpImm m =>
    exact compareWith_runs (o := .immediate m) (reg := State.a) (fun _ => rfl) ⟨rfl, rfl, fun _ _ => rfl⟩ (fun _ => rfl)
      rfl h
  case cmpZp | cmpZpX | cmpAbs | cmpAbsX | cmpAbsY =>
    exact compareWith_runs (reg := State.a) (fun _ => rfl) ⟨rfl, rfl, fun _ _ => rfl⟩ (fun _ => rfl) rfl h
  case cpxImm m =>
    exact compareWith_runs (o := .immediate m) (reg := State.x) (fun _ => rfl) ⟨rfl, rfl, fun _ _ => rfl⟩ (fun _ => rfl)
      rfl h
  case cpxZp | cpxAbs =>
    exact compareWith_runs (reg := State.x) (fun _ => rfl) ⟨rfl, rfl, fun _ _ => rfl⟩ (fun _ => rfl) rfl h
  case cpyImm m =>
    exact compareWith_runs (o := .immediate m) (reg := State.y) (fun _ => rfl) ⟨rfl, rfl, fun _ _ => rfl⟩ (fun _ => rfl)
      rfl h
  case cpyZp | cpyAbs =>
    exact compareWith_runs (reg := State.y) (fun _ => rfl) ⟨rfl, rfl, fun _ _ => rfl⟩ (fun _ => rfl) rfl h
  case incZp | incZpX | incAbs | incAbsX | decZp | decZpX | decAbs | decAbsX =>
    exact readModifyWrite_runs (fun _ => rfl) ⟨rfl, rfl, fun _ _ => rfl⟩ rfl h
  case inx | iny | dex | dey =>
    obtain ⟨hpc, rfl⟩ := (stepRegister_next_iff (by simp)).1 h
    exact ⟨stay, fun _ => hpc, storeless, fun v => (stepRegister_next_iff (by simp)).2 ⟨hpc, rfl⟩⟩
  case clc | cld | clv | cli | nop =>
    obtain ⟨hpc, rfl⟩ := setFlagsOnly_next_iff.1 h
    exact ⟨stay, fun _ => hpc, storeless, fun v => setFlagsOnly_next_iff.2 ⟨hpc, rfl⟩⟩
  case bcc | bcs | beq | bne | bmi | bpl | bvc | bvs =>
    refine ⟨(branchOn_next_sp h).trans stay, nofun, storeless, fun v => ?_⟩
    obtain ⟨hno, hpc, rfl⟩ | ⟨hyes, hlo, hhi, rfl⟩ := branchOn_next_iff.1 h
    · exact branchOn_next_iff.2 (.inl ⟨hno, hpc, rfl⟩)
    · exact branchOn_next_iff.2 (.inr ⟨hyes, hlo, hhi, rfl⟩)
  case jmp w =>
    obtain rfl := (execJmp_next_iff (w := w)).1 h
    exact ⟨stay, nofun, storeless, fun v => (execJmp_next_iff (w := w)).2 rfl⟩
  case jsr =>
    obtain ⟨hpc, hsp, rfl⟩ := execJsr_next_iff.1 h
    exact ⟨down, nofun, wordAt_lt hsp _, fun v => execJsr_next_iff.2 ⟨hpc, hsp, rfl⟩⟩
  case pha | php =>
    obtain ⟨hsp, hpc, rfl⟩ := pushWord_next_iff.1 h
    exact ⟨down, fun _ => hpc, wordAt_lt hsp _, fun v => pushWord_next_iff.2 ⟨hsp, hpc, rfl⟩⟩
  case pla | plp =>
    obtain ⟨hsp, hpc, rfl⟩ := (pullWord_next_iff (by simp)).1 h
    exact ⟨rfl, fun _ => hpc, storeless, fun v => (pullWord_next_iff (by simp)).2 ⟨hsp, hpc, rfl⟩⟩
  case rts =>
    obtain ⟨hsp, rfl⟩ := execRts_next_iff.1 h
    exact ⟨rfl, nofun, storeless, fun v => execRts_next_iff.2 ⟨hsp, rfl⟩⟩
  case brk => exact exec_brk_runs h
  case rti =>
    obtain ⟨hsp, rfl⟩ := execRti_next_iff.1 h
    exact ⟨rfl, nofun, storeless, fun v => execRti_next_iff.2 ⟨hsp, rfl⟩⟩

/-! ## The state left, and two states that differ in what is not read -/

section
variable {i : Instr} {s t : State}

theorem vary_unread (i : Instr) (s : State) : s.vary i s.unread = s := by
  simp only [State.vary, State.unread, ite_self]

/-- What an instruction does not write is as it was (spec/10_state.md R21 to R23, R30 to R36). -/
theorem exec_next_framed (h : exec i s = .next t) : t = t.framed i.access s := by
  have hvary := (exec_runs h).vary s.unread
  rw [vary_unread, h] at hvary
  exact Host.Outcome.next.inj hvary

theorem ite_eq_of_false {α : Type} {b : Bool} {x y z : α} (h : x = if b then y else z) (hb : b = false) : x = z := by
  rw [h, hb, if_neg Bool.false_ne_true]

theorem exec_next_a (h : exec i s = .next t) : i.writesA = false → t.a = s.a :=
  ite_eq_of_false (congrArg State.a (exec_next_framed h))

theorem exec_next_x (h : exec i s = .next t) : i.writesX = false → t.x = s.x :=
  ite_eq_of_false (congrArg State.x (exec_next_framed h))

theorem exec_next_y (h : exec i s = .next t) : i.writesY = false → t.y = s.y :=
  ite_eq_of_false (congrArg State.y (exec_next_framed h))

/-- Replacing by `upd` what an instruction does not read replaces it in the state answered, unless the instruction
writes it. -/
theorem exec_of_unread {upd : State → State} (w : Bool) (h : exec i s = .next t) (v : Unread)
    (hread : s.vary i v = upd s)
    (hwrite : t.framed i.access (upd s) = if w then t.framed i.access s else upd (t.framed i.access s)) :
    exec i (upd s) = .next (if w then t else upd t) := by
  rw [← hread, (exec_runs h).vary, hread, hwrite, ← exec_next_framed h]

end

end Machine

end Sys2Proof

section
open Sys2Proof Sys2Proof.Machine

/-- Settles O50: varying nothing shows that what is not written is as it was, and `sp` moves by the table. -/
theorem registerFrame : Obligations.RegisterFrame :=
  fun _ _ _ h => ⟨exec_next_a h, exec_next_x h, exec_next_y h, (exec_runs h).sp⟩

/-- Settles O51: varying nothing shows that what is not written is as it was, flag by flag. -/
theorem flagFrame : Obligations.FlagFrame := by
  intro i s t h
  have hframe := congrArg State.flags (exec_next_framed h)
  exact ⟨ite_eq_of_false (congrArg Flags.c hframe),
    fun hw => ⟨ite_eq_of_false (congrArg Flags.z hframe) hw, ite_eq_of_false (congrArg Flags.n hframe) hw⟩,
    ite_eq_of_false (congrArg Flags.v hframe), ite_eq_of_false (congrArg Flags.i hframe),
    ite_eq_of_false (congrArg Flags.d hframe), ite_eq_of_false (congrArg Flags.b hframe)⟩

/-- Settles O52: memory is the old one with exactly the listed bytes stored. -/
theorem memoryFrame : Obligations.MemoryFrame := by
  intro i s t h addr haddr
  rw [(exec_next_stores h).1, Memory.read_store_other haddr]

/-- Settles O55: the registers are among what may vary where they are not read. -/
theorem registerReadersAndWriters : Obligations.RegisterReadersAndWriters := by
  intro i s t v h
  refine ⟨fun hr => ?a, fun hr => ?x, fun hr => ?y, exec_next_a h, exec_next_x h, exec_next_y h⟩
  case a =>
    refine exec_of_unread (upd := fun u => { u with a := v }) i.writesA h { s.unread with a := v } ?_ ?_
    · have hr : i.access.readsA = false := hr
      simp only [State.vary, State.unread, hr, ite_self, Bool.false_eq_true, if_false]
    · cases hw : i.writesA <;> simp [State.framed, Instr.access, hw]
  case x =>
    refine exec_of_unread (upd := fun u => { u with x := v }) i.writesX h { s.unread with x := v } ?_ ?_
    · simp only [State.vary, State.unread, hr, ite_self, Bool.false_eq_true, if_false]
    · cases hw : i.writesX <;> simp [State.framed, Instr.access, hw]
  case y =>
    refine exec_of_unread (upd := fun u => { u with y := v }) i.writesY h { s.unread with y := v } ?_ ?_
    · simp only [State.vary, State.unread, hr, ite_self, Bool.false_eq_true, if_false]
    · cases hw : i.writesY <;> simp [State.framed, Instr.access, hw]

/-- Settles O56: I, D and B are among what may vary where the flags are not packed. -/
theorem ungatedFlags : Obligations.UngatedFlags := by
  intro i s t v h
  refine ⟨fun (hr : i.access.packsFlags = false) => ?i, fun (hr : i.access.packsFlags = false) => ?d,
    fun (hr : i.access.packsFlags = false) => ?b⟩
  case i =>
    refine exec_of_unread (upd := fun u => { u with flags := { u.flags with i := v } }) i.writesI h
      { s.unread with i := v } ?_ ?_
    · simp only [State.vary, State.unread, hr, ite_self, Bool.false_eq_true, if_false]
    · cases hw : i.writesI <;> simp [State.framed, Instr.access, hw]
  case d =>
    refine exec_of_unread (upd := fun u => { u with flags := { u.flags with d := v } }) i.writesD h
      { s.unread with d := v } ?_ ?_
    · simp only [State.vary, State.unread, hr, ite_self, Bool.false_eq_true, if_false]
    · cases hw : i.writesD <;> simp [State.framed, Instr.access, hw]
  case b =>
    refine exec_of_unread (upd := fun u => { u with flags := { u.flags with b := v } }) i.writesB h
      { s.unread with b := v } ?_ ?_
    · simp only [State.vary, State.unread, hr, ite_self, Bool.false_eq_true, if_false]
    · cases hw : i.writesB <;> simp [State.framed, Instr.access, hw]

end

namespace Sys2Proof.Machine

/-! ## What every instruction keeps, when it answers and when it faults -/

section
variable {P : State → Prop} {i : Instr} {s t : State}

/-- What keeps a property answers a next state or raises the out-of-range fault, in a state that has the property but
for the fault. -/
theorem Keeps.next_or_outOfRange {r : StepResult} (h : Keeps P r) :
    (∃ t, r = .next t) ∨ ∃ addr final, r = .fault (.outOfRange addr final) ∧ (addr < 0 ∨ 0xFFFF < addr) ∧
      ∃ u, P u ∧ final = u.faulted addr :=
  match r, h with
  | .next t, _ => .inl ⟨t, rfl⟩
  | .fault (.outOfRange addr final), ⟨haddr, hfinal⟩ => .inr ⟨addr, final, rfl, haddr, hfinal⟩

theorem Kept.exec_next (K : Kept P) (hs : P s) (h : Machine.exec i s = .next t) : ∃ u w, P u ∧ t = u.setPc w := by
  have keeps := K.exec i hs
  rwa [h] at keeps

/-- `u` has the configuration, fault register and engine state of `s`, and no higher budget. -/
def State.SameEngine (s u : State) : Prop :=
  u.cfg = s.cfg ∧ u.fault = s.fault ∧ u.engineState = s.engineState ∧ u.budget ≤ s.budget

theorem Kept.sameEngine (s : State) : Kept s.SameEngine where
  debit {u} n h := by
    obtain ⟨hcfg, hfault, hengine, hbudget⟩ := h
    exact ⟨hcfg, hfault, hengine, (Int.sub_le_self _ (Int.natCast_nonneg n)).trans hbudget⟩
  putByte _ _ h := h
  setA _ h := h
  setX _ h := h
  setY _ h := h
  flags _ h := h
  push h _ := h
  pull h _ := h

/-- `u` has the `pc` and the configuration of `s`. -/
def State.SamePlace (s u : State) : Prop := u.pc = s.pc ∧ u.cfg = s.cfg

theorem Kept.samePlace (s : State) : Kept s.SamePlace where
  debit _ h := h
  putByte _ _ h := h
  setA _ h := h
  setX _ h := h
  setY _ h := h
  flags _ h := h
  push h _ := h
  pull h _ := h

/-- A fault is at an address outside the space and leaves `pc` uncommitted (spec/40_execution.md R108). -/
theorem Keeps.stops {r : StepResult} (h : Keeps s.SamePlace r) :
    (∃ t, r = .next t) ∨ ∃ addr final, r = .fault (.outOfRange addr final) ∧ (addr < 0 ∨ 0xFFFF < addr) ∧
      final.fault = some (.outOfRange addr) ∧ final.engineState = .faulted ∧ final.pc = s.pc ∧
      final.cfg = s.cfg := by
  refine h.next_or_outOfRange.imp_right ?_
  rintro ⟨addr, final, hr, haddr, u, ⟨hpc, hcfg⟩, rfl⟩
  exact ⟨addr, _, hr, haddr, rfl, rfl, hpc, hcfg⟩

end

/-! ## Completion past the top of the address space (spec/10_state.md R26) -/

section
variable {s : State}

theorem complete_of_ge {cur : Nat} (h : memSize ≤ cur) (s : State) : complete cur s = raiseFault cur s :=
  if_neg (Nat.not_lt.2 h)

theorem sequential_finish_of_ge {len : Nat} (h : memSize ≤ s.pc.toNat + len) :
    (sequential len s).finish = raiseFault (s.pc.toNat + len : Nat) s := complete_of_ge h s

/-- At the last address the next instruction's is 0x10000. -/
theorem sequential_one_finish_of_top (h : s.pc = 0xFFFF) : (sequential 1 s).finish = raiseFault 0x10000 s := by
  have htop : s.pc.toNat + 1 = memSize := by rw [h]; rfl
  rw [sequential_finish_of_ge htop.ge, htop]
  rfl

end

/-! ## The invariant (spec/10_state.md R28; spec/20_memory.md R50) -/

/-- The invariant but for memory: it is kept whatever is stored. -/
def State.Sound (s : State) : Prop :=
  s.cfg.valid = true ∧ s.EvenSp ∧ s.fault = none ∧ s.engineState ≠ .faulted

theorem State.inv_iff {s : State} : s.Inv ↔ s.mem.wf = true ∧ s.Sound := and_left_comm

theorem Kept.sound : Kept State.Sound where
  debit _ h := h
  putByte _ _ h := h
  setA _ h := h
  setX _ h := h
  setY _ h := h
  flags _ h := h
  push h h2 := h.imp_right (And.imp_left fun heven => Kept.evenSp.push heven h2)
  pull h h2 := h.imp_right (And.imp_left fun heven => Kept.evenSp.pull heven h2)

section
variable {s t : State}

theorem exec_next_inv {i : Instr} (h : exec i s = .next t) (hs : s.Inv) : t.Inv := by
  obtain ⟨hwf, hsound⟩ := State.inv_iff.1 hs
  obtain ⟨hmem, -⟩ := exec_next_stores h
  obtain ⟨u, w, hu, rfl⟩ := Kept.sound.exec_next hsound h
  exact State.inv_iff.2 ⟨hmem ▸ Memory.wf_store (exec_runs h).stores hwf, hu⟩

theorem invalidOpcode_next_inv {op : Byte} {ret : Nat} (h : (invalidOpcode op ret s).finish = .next t) (hs : s.Inv) :
    t.Inv := by
  obtain ⟨hwf, hsound⟩ := State.inv_iff.1 hs
  have keeps := (Kept.sound.invalidOpcode op ret hsound).finish
  rw [h] at keeps
  obtain ⟨u, w, hu, ht⟩ := keeps
  obtain ⟨-, h4, -, hentered⟩ := invalidOpcode_finish_next_iff.1 h
  have hrecord : (s.mem.store [(s.cfg.invopAddr.toNat, op)]).wf = true :=
    Memory.wf_write (lt_memSize s.cfg.invopAddr.isLt) op hwf
  refine State.inv_iff.2 ⟨?_, ht ▸ hu⟩
  rw [hentered]
  exact Memory.wf_store (entryFrame_lt (s := (s.stored _).debit 1) h4 ret) hrecord

theorem State.Inv.setEngine (hs : s.Inv) {e : EngineState} (he : e ≠ .faulted) : (s.setEngine e).Inv := by
  obtain ⟨hvalid, hwf, heven, hfault, -⟩ := hs
  exact ⟨hvalid, hwf, heven, hfault, he⟩

theorem State.Inv.debit (hs : s.Inv) (n : Nat) : (s.debit n).Inv := hs

theorem decodeAndExecute_next_inv {op : Byte} (h : decodeAndExecute op s = .next t) (hs : s.Inv) : t.Inv := by
  obtain ⟨i, n, hr⟩ | hr | ⟨past, n, -, hr⟩ := decodeAndExecute_cases op s <;> rw [hr] at h
  · exact exec_next_inv h ((hs.debit n).setEngine nofun)
  · exact invalidOpcode_next_inv h (hs.setEngine nofun)
  · cases h

theorem step_next_inv (h : step s = .next t) (hs : s.Inv) : t.Inv := by
  have hr := step_next h
  rw [runInstruction_eq] at hr
  exact decodeAndExecute_next_inv hr ((hs.debit 1).setEngine nofun)

/-! ## A run (spec/00_scope.md R12) -/

/-- `u` has the configuration of `s` and its log, grown at its end only. -/
def State.LogGrown (s u : State) : Prop := u.cfg = s.cfg ∧ s.outLog <+: u.outLog

theorem Kept.logGrown (s : State) : Kept s.LogGrown where
  debit _ h := h
  putByte {u} addr v h := by
    refine h.imp_right fun hlog => hlog.trans ?_
    rw [State.putByte_eq_stored]
    exact List.prefix_append _ _
  setA _ h := h
  setX _ h := h
  setY _ h := h
  flags _ h := h
  push h _ := h
  pull h _ := h

theorem step_next_logGrown (h : step s = .next t) : s.LogGrown t := by
  obtain ⟨u, w, hu, rfl⟩ := (Kept.logGrown s).step_next (fun _ hu => hu) ⟨rfl, List.prefix_rfl⟩ h
  exact hu

theorem coreRun_succ_next_iff {M : Host.Core} {k : Nat} {s t : M.State} :
    M.run (k + 1) s = .next t ↔ ∃ u, M.step s = .next u ∧ M.run k u = .next t := by
  rw [Host.Core.run]
  cases M.step s <;> simp

theorem runSteps_succ_next_iff {k : Nat} :
    runSteps (k + 1) s = .next t ↔ ∃ u, step s = .next u ∧ runSteps k u = .next t :=
  coreRun_succ_next_iff (M := core)

theorem runSteps_next_inv {k : Nat} (h : runSteps k s = .next t) (hs : s.Inv) : t.Inv ∧ s.LogGrown t := by
  induction k generalizing s with
  | zero =>
    cases h
    exact ⟨hs, rfl, List.prefix_rfl⟩
  | succ k ih =>
    obtain ⟨u, hstep, hrest⟩ := runSteps_succ_next_iff.1 h
    obtain ⟨hcfg, hlog⟩ := step_next_logGrown hstep
    obtain ⟨ht, hcfg', hlog'⟩ := ih hrest (step_next_inv hstep hs)
    exact ⟨ht, hcfg'.trans hcfg, hlog.trans hlog'⟩

end

end Sys2Proof.Machine

section
open Sys2Proof Sys2Proof.Machine

/-- Settles O10: every byte an instruction stores is in the address space, and no update of another field touches what
the invariant says. -/
theorem stepKeepsInvariant : Obligations.StepKeepsInvariant := fun _ _ hs h => step_next_inv h hs

/-- Settles O11, by induction on the number of steps. -/
theorem runKeepsInvariant : Obligations.RunKeepsInvariant := by
  rintro k s hs ⟨t, h⟩
  obtain ⟨ht, hcfg, hlog⟩ := runSteps_next_inv h hs
  exact ⟨t, h, ht, hcfg, hlog⟩

/-- Settles O12: reset's memory is empty and its `sp` is `SP_INIT`; an image that is loaded fits. -/
theorem resetMeetsInvariant : Obligations.ResetMeetsInvariant := by
  have hreset (s : State) (hv : s.cfg.valid = true) : (hostReset s).Inv :=
    ⟨hv, rfl, spInit_even_of_valid hv, rfl, nofun⟩
  refine ⟨hostReset_reset ▸ hreset State.reset (by decide), hreset, ?_⟩
  rintro s t addr bytes ⟨hvalid, hwf, hrest⟩ h
  obtain ⟨hfit, rfl⟩ := loadImage_next_iff.1 h
  exact ⟨hvalid, Memory.wf_writeAll hfit hwf, hrest⟩

/-- Settles O17: the loop runs a step for the unit of the budget and stops after it, as it has fuel for one. -/
theorem executeOneRunsOneInstruction : Obligations.ExecuteOneRunsOneInstruction := by
  intro s hrun
  rw [execute_of_running hrun]
  exact ⟨fun t h => runLoop_succ_of_next Int.one_pos h 0,
    fun addr final h => runLoop_succ_of_outOfRange Int.one_pos h 0⟩

/-- Settles O46: an instruction that answers in sequence had a successor, and one that does not answer raises the
out-of-range fault. -/
theorem completionPastTopFaults : Obligations.CompletionPastTopFaults := by
  refine ⟨fun s i hi hpast => ?_, fun s htop => ⟨?inx, ?nop, ?clc⟩⟩
  · obtain ⟨t, h⟩ | ⟨addr, final, h, -⟩ := (Kept.samePlace s).exec i ⟨rfl, rfl⟩ |>.next_or_outOfRange
    · exact absurd ((exec_runs h).sequence hi) (Nat.not_lt.2 hpast)
    · exact ⟨addr, final, h⟩
  case inx =>
    rw [← Flags.zn_eq_ofResult]
    exact sequential_one_finish_of_top (s := (s.setX (s.x + 1)).setZN (s.x + 1)) htop
  case nop => exact sequential_one_finish_of_top (s := s.setFlags s.flags) htop
  case clc => exact sequential_one_finish_of_top (s := s.setFlags { s.flags with c := false }) htop

/-- Settles O49: `pc` and the configuration are kept up to the fault, which sets the other two. -/
theorem onlyOutOfRangeStops : Obligations.OnlyOutOfRangeStops := by
  refine ⟨fun i s => ((Kept.samePlace s).exec i ⟨rfl, rfl⟩).stops, fun s hrun => ?_⟩
  rw [step_of_running hrun]
  exact ((Kept.samePlace s).runInstruction (fun _ hu => hu) ⟨rfl, rfl⟩).stops

/-- Settles O54: no update an instruction makes raises the budget or touches the other three. -/
theorem engineFrame : Obligations.EngineFrame := by
  intro i s t h
  obtain ⟨u, w, hu, rfl⟩ := (Kept.sameEngine s).exec_next ⟨rfl, rfl, rfl, le_rfl⟩ h
  exact hu

end

namespace Sys2Proof.Machine

/-! ## The engine that does not run (spec/40_execution.md R107; spec/00_scope.md R5) -/

section
variable {s : State}

theorem step_of_fault (hv : s.cfg.valid = true) {c : FaultCause} (hf : s.fault = some c) :
    step s = .fault .stillFaulted := by
  rw [step, engineStep, if_pos hv, hf]

theorem execute_of_fault (hv : s.cfg.valid = true) {c : FaultCause} (hf : s.fault = some c) (n : Int) :
    execute n s = .next ⟨.faulted, s⟩ := by
  rw [execute, if_pos hv, hf]

theorem step_of_invalid (hv : ¬ s.cfg.valid = true) : step s = .refused .badConfiguration := by
  rw [step, engineStep, if_neg hv]

theorem execute_of_invalid (hv : ¬ s.cfg.valid = true) (n : Int) : execute n s = .refused .badConfiguration := by
  rw [execute, if_neg hv]

theorem Config.valid_iff (c : Config) : c.valid = true ↔
    (∀ v ∈ [c.vecReset, c.vecUser1, c.vecUser2, c.vecInvalid, c.vecHalt], v.toNat ≤ 0xFFFE) ∧
      c.spInit.toNat % 2 = 0 ∧ 2 ≤ c.spInit.toNat ∧ c.spInit.toNat ≤ 0xFFFE := by
  simp [Config.valid, vecAddrOk, spInitOk, and_assoc]

end

/-! ## Canonical memory (spec/20_memory.md R50) -/

theorem Memory.wfFrom_cons_iff {lo b : Nat} {w : Byte} {m : Memory} :
    Memory.wfFrom lo ((b, w) :: m) = true ↔ lo ≤ b ∧ b < memSize ∧ w ≠ 0 ∧ m.wfFrom (b + 1) = true := by
  simp only [Memory.wfFrom, Bool.and_eq_true, decide_eq_true_eq]

theorem Memory.read_cons_self (b : Nat) (w : Byte) (m : Memory) : Memory.read ((b, w) :: m) b = w := if_pos rfl

theorem Memory.read_cons_other {a b : Nat} (h : a ≠ b) (w : Byte) (m : Memory) :
    Memory.read ((b, w) :: m) a = m.read a := if_neg h

theorem Memory.read_cons_below {a lo b : Nat} {w : Byte} {m : Memory} (h : Memory.wfFrom lo ((b, w) :: m) = true)
    (ha : a < b) : Memory.read ((b, w) :: m) a = 0 := by
  obtain ⟨-, -, -, hm⟩ := Memory.wfFrom_cons_iff.1 h
  rw [Memory.read_cons_other ha.ne, Memory.read_below hm (Nat.lt_succ_of_lt ha)]

theorem Memory.read_tail_eq {b : Nat} {w x : Byte} {m n : Memory} (hm : m.wfFrom (b + 1) = true)
    (hn : n.wfFrom (b + 1) = true) (h : ∀ a, Memory.read ((b, w) :: m) a = Memory.read ((b, x) :: n) a) (a : Nat) :
    m.read a = n.read a := by
  by_cases ha : a = b
  · rw [ha, Memory.read_below hm (Nat.lt_succ_self b), Memory.read_below hn (Nat.lt_succ_self b)]
  · rw [← Memory.read_cons_other ha w m, ← Memory.read_cons_other ha x n, h a]

theorem Memory.eq_of_read_eq {m n : Memory} {lo lo' : Nat} (hm : m.wfFrom lo = true) (hn : n.wfFrom lo' = true)
    (h : ∀ a, m.read a = n.read a) : m = n := by
  induction m generalizing n lo lo' with
  | nil =>
    cases n with
    | nil => rfl
    | cons q n =>
      obtain ⟨-, -, hw, -⟩ := Memory.wfFrom_cons_iff.1 hn
      exact absurd ((h q.1).trans (Memory.read_cons_self q.1 q.2 n)).symm hw
  | cons p m ih =>
    obtain ⟨b, w⟩ := p
    obtain ⟨-, -, hw, hm'⟩ := Memory.wfFrom_cons_iff.1 hm
    cases n with
    | nil => exact absurd ((Memory.read_cons_self b w m).symm.trans (h b)) hw
    | cons q n =>
      obtain ⟨c, x⟩ := q
      obtain ⟨-, -, hx, hn'⟩ := Memory.wfFrom_cons_iff.1 hn
      have hb := h b
      have hc := h c
      rw [Memory.read_cons_self] at hb hc
      obtain hlt | rfl | hgt := Nat.lt_trichotomy b c
      · exact absurd (hb.trans (Memory.read_cons_below hn hlt)) hw
      · rw [Memory.read_cons_self] at hb
        rw [hb, ih hm' hn' (Memory.read_tail_eq hm' hn' h)]
      · exact absurd (hc.symm.trans (Memory.read_cons_below hm hgt)) hx

/-! ## The exact sum of ADC (spec/42_arith_logic.md R150) -/

theorem adcByte_toNat (a m : Byte) (c : Bool) : (adcByte a m c).toNat = adcSum a m c % 256 := BitVec.toNat_ofNat _ _

theorem and_sign_ne_zero_iff (v : Byte) : v &&& 0x80 ≠ 0 ↔ v.msb = true := by revert v; decide

/-- R150's formula for V compares sign bits. -/
theorem signs_differ_iff (a m r : Byte) :
    (a ^^^ r) &&& (m ^^^ r) &&& 0x80 ≠ 0 ↔ a.msb ≠ r.msb ∧ m.msb ≠ r.msb := by
  rw [and_sign_ne_zero_iff, BitVec.msb_and, BitVec.msb_xor, BitVec.msb_xor, Bool.and_eq_true, bne_iff_ne, bne_iff_ne]

theorem adc_overflow_iff (f : Flags) (a m : Byte) :
    (f.adc a m).v = true ↔
      a.toInt + m.toInt + (f.c.toNat : Int) < -128 ∨ 127 < a.toInt + m.toInt + (f.c.toNat : Int) := by
  have ha := a.isLt
  have hm := m.isLt
  have hc := f.c.toNat_lt
  have hr := adcByte_toNat a m f.c
  rw [Flags.adc]
  simp only [decide_eq_true_iff]
  rw [signs_differ_iff]
  simp only [BitVec.msb_eq_decide, BitVec.toInt_eq_toNat_cond, ne_eq, decide_eq_decide]
  rw [hr, adcSum]
  omega

end Sys2Proof.Machine

section
open Sys2Proof Sys2Proof.Machine

/-- Settles O8: both the step and the call look at the fault register first. -/
theorem faultedEngineIsStuck : Obligations.FaultedEngineIsStuck :=
  fun _ _ hv hf => ⟨step_of_fault hv hf, execute_of_fault hv hf⟩

/-- Settles O9: each of the constraints is one of those `Config.valid` checks. -/
theorem badConfigurationRefused : Obligations.BadConfigurationRefused := by
  intro s hbad
  have hv : ¬ s.cfg.valid = true := by
    rw [Config.valid_iff]
    rintro ⟨hvec, heven, hlo, hhi⟩
    obtain ⟨v, hmem, hv⟩ | hodd | hlow | hhigh := hbad
    · exact absurd (hvec v hmem) (Nat.not_le.2 hv)
    · omega
    · omega
    · omega
  exact ⟨step_of_invalid hv, execute_of_invalid hv⟩

/-- Settles O20: one byte access is its bounds check. -/
theorem byteAccess : Obligations.ByteAccess := by
  intro s addr v
  refine ⟨fun h => ⟨memRead_of_lt h s, ?_⟩, fun h => ⟨memRead_of_ge h s, memWrite_of_ge h v s⟩⟩
  rw [memWrite_of_lt h, ← State.putByte_eq_stored]
  rfl

/-- Settles O23, by induction on the two lists: the lesser of their first addresses reads a byte that is not zero in one
of them only. -/
theorem canonicalMemory : Obligations.CanonicalMemory := fun _ _ => Memory.eq_of_read_eq

/-- Settles O26: the carry and the result are quotient and remainder of the sum, and V says that both signs differ from
the result's. -/
theorem adcIsExactAddition : Obligations.AdcIsExactAddition := by
  intro f a m
  refine ⟨?sum, adc_overflow_iff f a m, fun _ => rfl⟩
  case sum =>
    have hle : adcSum a m f.c ≤ 511 := by
      have ha := a.isLt
      have hm := m.isLt
      have hc := f.c.toNat_le
      unfold adcSum
      omega
    rw [adcByte_toNat]
    change adcSum a m f.c = 256 * (decide (adcSum a m f.c > 255)).toNat + _
    by_cases hcarry : adcSum a m f.c > 255
    · rw [decide_eq_true hcarry, Bool.toNat_true]
      omega
    · rw [decide_eq_false hcarry, Bool.toNat_false]
      omega

/-- Settles O27: the address and the extra unit of each mode are its definition, in both settings of `ZP_WRAP`. -/
theorem effectiveAddresses : Obligations.EffectiveAddresses := by
  intro s z w
  refine ⟨rfl, rfl, fun h => ⟨if_pos h, if_pos h⟩, fun h => ?_, rfl, rfl, rfl, rfl, rfl, rfl, rfl, rfl⟩
  have hw : ¬ s.cfg.zpWrap = true := ne_true_of_eq_false h
  exact ⟨if_neg hw, if_neg hw⟩

end

namespace Sys2Proof.Machine

/-! ## The budget is debited and never read (spec/10_state.md R41) -/

/-- The budget raised by `d`. -/
def State.fund (d : Int) (s : State) : State := { s with budget := s.budget + d }

/-- The state a primitive leaves has its budget raised by `d`. -/
def Res.fund {α : Type} (d : Int) : Res α → Res α
  | .ok v s => .ok v (s.fund d)
  | .oob addr s => .oob addr (s.fund d)

/-- The state an instruction leaves, in its fault too, has its budget raised by `d`. -/
def fundOutcome (d : Int) : StepResult → StepResult
  | .next t => .next (t.fund d)
  | .fault (.outOfRange addr final) => .fault (.outOfRange addr (final.fund d))
  | .fault .stillFaulted => .fault .stillFaulted
  | .refused r => .refused r

section
variable (d : Int) (s : State)

theorem State.debit_fund (n : Nat) : (s.fund d).debit n = (s.debit n).fund d := by
  simp only [State.fund, State.debit, Int.sub_eq_add_neg, Int.add_right_comm]

theorem Res.bind_fund {α β : Type} {r r' : Res α} {k k' : α → State → Res β} (hr : r' = r.fund d)
    (hk : ∀ v t, k' v (t.fund d) = (k v t).fund d) : r'.bind k' = (r.bind k).fund d := by
  subst hr
  cases r with
  | ok v t => exact hk v t
  | oob addr t => rfl

theorem Res.ite_fund {α : Type} {c : Prop} [Decidable c] {r r' q q' : Res α} (hr : r' = r.fund d)
    (hq : q' = q.fund d) : (if c then r' else q') = (if c then r else q).fund d := by
  rw [hr, hq, apply_ite (Res.fund d)]

theorem fundOutcome_ite {c : Prop} [Decidable c] {r r' q q' : StepResult} (hr : r' = fundOutcome d r)
    (hq : q' = fundOutcome d q) : (if c then r' else q') = fundOutcome d (if c then r else q) := by
  rw [hr, hq, apply_ite (fundOutcome d)]

theorem complete_fund (cur : Nat) : complete cur (s.fund d) = fundOutcome d (complete cur s) :=
  fundOutcome_ite d rfl rfl

theorem Res.finish_fund {r r' : Res Nat} (h : r' = r.fund d) : r'.finish = fundOutcome d r.finish := by
  subst h
  cases r with
  | ok cur t => exact complete_fund d t cur
  | oob addr t => rfl

/-! ### The primitives -/

theorem memRead_fund (addr : Nat) : memRead addr (s.fund d) = (memRead addr s).fund d :=
  Res.ite_fund d (congrArg (Res.ok _) (s.debit_fund d 1)) rfl

theorem memWrite_fund (addr : Nat) (v : Byte) : memWrite addr v (s.fund d) = (memWrite addr v s).fund d :=
  Res.ite_fund d (congrArg (Res.ok _) ((s.putByte addr v).debit_fund d 1)) rfl

theorem readWord_fund (addr : Nat) : readWord addr (s.fund d) = (readWord addr s).fund d :=
  Res.bind_fund d (memRead_fund d s addr) fun _ t => Res.bind_fund d (memRead_fund d t _) fun _ _ => rfl

theorem writeWord_fund (addr : Nat) (v : Word) : writeWord addr v (s.fund d) = (writeWord addr v s).fund d :=
  Res.bind_fund d (memWrite_fund d s addr _) fun _ t => memWrite_fund d t _ _

theorem push16_fund (v : Word) : push16 v (s.fund d) = (push16 v s).fund d :=
  Res.ite_fund d rfl (writeWord_fund d (s.setSp (s.sp - 2)) _ v)

theorem pull16_fund : pull16 (s.fund d) = (pull16 s).fund d :=
  Res.bind_fund d (readWord_fund d s _) fun _ _ => Res.ite_fund d rfl rfl

theorem effective_fund (mode : AddrMode) : effective mode (s.fund d) = (effective mode s).fund d := by
  have hea : mode.ea (s.fund d) = mode.ea s := by cases mode <;> rfl
  rw [effective, hea, State.debit_fund]
  rfl

theorem operand_fund (o : Operand) : operand o (s.fund d) = (operand o s).fund d := by
  cases o with
  | immediate m => rfl
  | memory mode => exact Res.bind_fund d (effective_fund d s mode) fun addr t => memRead_fund d t addr

theorem trapEntry_fund (slot : Slot) (ret : Nat) : trapEntry slot ret (s.fund d) = (trapEntry slot ret s).fund d :=
  Res.ite_fund d rfl (Res.bind_fund d (push16_fund d s _) fun _ t => Res.bind_fund d (push16_fund d t _) fun _ u =>
    Res.bind_fund d (readWord_fund d (u.setFlags _) _) fun _ _ => rfl)

theorem invalidOpcode_fund (op : Byte) (ret : Nat) :
    invalidOpcode op ret (s.fund d) = (invalidOpcode op ret s).fund d :=
  Res.bind_fund d (memWrite_fund d s _ op) fun _ t => trapEntry_fund d t .invalid ret

theorem interruptReturn_fund : interruptReturn (s.fund d) = (interruptReturn s).fund d :=
  Res.bind_fund d (pull16_fund d s) fun _ t => Res.bind_fund d (pull16_fund d (t.setFlags _)) fun _ _ => rfl

/-! ### The shared meanings -/

theorem loadInto_fund {set : Byte → State → State} (hset : ∀ m u, set m (u.fund d) = (set m u).fund d)
    (o : Operand) :
    loadInto set o (s.fund d) = fundOutcome d (loadInto set o s) :=
  Res.finish_fund d (Res.bind_fund d (operand_fund d s o) fun m t => by rw [hset]; rfl)

theorem storeFrom_fund (v : Byte) (mode : AddrMode) :
    storeFrom v mode (s.fund d) = fundOutcome d (storeFrom v mode s) :=
  Res.finish_fund d (Res.bind_fund d (effective_fund d s mode) fun _ t =>
    Res.bind_fund d (memWrite_fund d t _ v) fun _ _ => rfl)

theorem addWithCarry_fund (o : Operand) : addWithCarry o (s.fund d) = fundOutcome d (addWithCarry o s) :=
  Res.finish_fund d (Res.bind_fund d (operand_fund d s o) fun _ _ => rfl)

theorem bitwise_fund (f : Byte → Byte → Byte) (o : Operand) :
    bitwise f o (s.fund d) = fundOutcome d (bitwise f o s) :=
  Res.finish_fund d (Res.bind_fund d (operand_fund d s o) fun _ _ => rfl)

theorem compareWith_fund (reg : Byte) (o : Operand) :
    compareWith reg o (s.fund d) = fundOutcome d (compareWith reg o s) :=
  Res.finish_fund d (Res.bind_fund d (operand_fund d s o) fun _ _ => rfl)

theorem readModifyWrite_fund (f : Byte → Byte) (mode : AddrMode) :
    readModifyWrite f mode (s.fund d) = fundOutcome d (readModifyWrite f mode s) :=
  Res.finish_fund d (Res.bind_fund d (effective_fund d s mode) fun _ t => Res.bind_fund d (memRead_fund d t _)
    fun _ u => Res.bind_fund d (memWrite_fund d u _ _) fun _ _ => rfl)

theorem stepRegister_fund {set : Byte → State → State} (hset : ∀ m u, set m (u.fund d) = (set m u).fund d)
    (v : Byte) : stepRegister set v (s.fund d) = fundOutcome d (stepRegister set v s) :=
  Res.finish_fund d (by rw [hset]; rfl)

theorem setFlagsOnly_fund (f : Flags) : setFlagsOnly f (s.fund d) = fundOutcome d (setFlagsOnly f s) :=
  Res.finish_fund d rfl

theorem branchOn_fund (taken : Bool) (r : Byte) :
    branchOn taken r (s.fund d) = fundOutcome d (branchOn taken r s) :=
  fundOutcome_ite d (fundOutcome_ite d rfl (complete_fund d s _)) (Res.finish_fund d rfl)

theorem pushWord_fund (v : Word) : pushWord v (s.fund d) = fundOutcome d (pushWord v s) :=
  Res.finish_fund d (Res.bind_fund d (push16_fund d s v) fun _ _ => rfl)

theorem pullWord_fund {use : Word → State → State} (huse : ∀ w u, use w (u.fund d) = (use w u).fund d) :
    pullWord use (s.fund d) = fundOutcome d (pullWord use s) :=
  Res.finish_fund d (Res.bind_fund d (pull16_fund d s) fun _ _ => by rw [huse]; rfl)

theorem execJsr_fund (w : Word) : execJsr w (s.fund d) = fundOutcome d (execJsr w s) :=
  fundOutcome_ite d rfl (Res.finish_fund d (Res.bind_fund d (push16_fund d s _) fun _ _ => rfl))

theorem execRts_fund : execRts (s.fund d) = fundOutcome d (execRts s) :=
  Res.finish_fund d (Res.bind_fund d (pull16_fund d s) fun _ _ => rfl)

theorem execBrk_fund (n : Byte) : exec (.brk n) (s.fund d) = fundOutcome d (exec (.brk n) s) := by
  cases hslot : slotOf n with
  | none =>
    rw [exec_brk_reserved _ hslot, exec_brk_reserved _ hslot]
    exact Res.finish_fund d (invalidOpcode_fund d s _ _)
  | some slot =>
    rw [exec_brk_slot _ hslot, exec_brk_slot _ hslot]
    exact Res.finish_fund d (trapEntry_fund d s slot _)

end

/-- Every instruction does the same thing with a higher budget, fault or not. -/
theorem exec_fund (d : Int) (i : Instr) (s : State) : exec i (s.fund d) = fundOutcome d (exec i s) := by
  cases i
  case ldaImm m | ldxImm m | ldyImm m => exact loadInto_fund d s (by intro _ _; rfl) (.immediate m)
  case ldaZp | ldaZpX | ldaAbs | ldaAbsX | ldaAbsY | ldxZp | ldxZpY | ldxAbs | ldxAbsY | ldyZp | ldyZpX | ldyAbs
      | ldyAbsX =>
    exact loadInto_fund d s (by intro _ _; rfl) (.memory _)
  case staZp | staZpX | staAbs | staAbsX | staAbsY | stxZp | stxZpY | stxAbs | styZp | styZpX | styAbs =>
    exact storeFrom_fund d s _ _
  case adcImm m => exact addWithCarry_fund d s (.immediate m)
  case adcZp | adcZpX | adcAbs | adcAbsX | adcAbsY => exact addWithCarry_fund d s (.memory _)
  case andImm m | oraImm m | eorImm m => exact bitwise_fund d s _ (.immediate m)
  case andZp | andZpX | andAbs | andAbsX | andAbsY | oraZp | oraZpX | oraAbs | oraAbsX | oraAbsY
      | eorZp | eorZpX | eorAbs | eorAbsX | eorAbsY =>
    exact bitwise_fund d s _ (.memory _)
  case cmpImm m | cpxImm m | cpyImm m => exact compareWith_fund d s _ (.immediate m)
  case cmpZp | cmpZpX | cmpAbs | cmpAbsX | cmpAbsY | cpxZp | cpxAbs | cpyZp | cpyAbs =>
    exact compareWith_fund d s _ (.memory _)
  case incZp | incZpX | incAbs | incAbsX | decZp | decZpX | decAbs | decAbsX => exact readModifyWrite_fund d s _ _
  case inx | iny | dex | dey => exact stepRegister_fund d s (by intro _ _; rfl) _
  case bcc | bcs | beq | bne | bmi | bpl | bvc | bvs => exact branchOn_fund d s _ _
  case clc | cld | clv | cli | nop => exact setFlagsOnly_fund d s _
  case jmp => exact complete_fund d s _
  case jsr => exact execJsr_fund d s _
  case pha | php => exact pushWord_fund d s _
  case pla | plp => exact pullWord_fund d s (by intro _ _; rfl)
  case rts => exact execRts_fund d s
  case brk => exact execBrk_fund d s _
  case rti => exact Res.finish_fund d (interruptReturn_fund d s)

end Sys2Proof.Machine

section
open Sys2Proof Sys2Proof.Machine

/-- Settles O19: raising the budget before an instruction raises it after, as the primitives only debit it. -/
theorem budgetIsNotRead : Obligations.BudgetIsNotRead := by
  intro i s t d
  exact ⟨fun h => (exec_fund d i s).trans (congrArg (fundOutcome d) h),
    fun addr h => (exec_fund d i s).trans (congrArg (fundOutcome d) h)⟩

end

namespace Sys2Proof.Machine

/-! ## The result of each shared meaning that completes (spec/40_execution.md R109, R110) -/

theorem Operand.readable_zeroPageY (z : Byte) (s : State) : (Operand.memory (.zeroPageY z)).readable s :=
  lt_memSize ((zeroPageIndexed_lt s.cfg z s.y).trans (by decide))

/-- The result of ADC (spec/42_arith_logic.md R150): the register and its four flags. -/
def State.added (m : Byte) (s : State) : State :=
  let t : Nat := s.a.toNat + m.toNat + s.flags.c.toNat
  let r : Byte := BitVec.ofNat 8 (t % 256)
  { s with
    a := r
    flags := { s.flags.ofResult r with c := decide (255 < t), v := decide ((s.a ^^^ r) &&& (m ^^^ r) &&& 0x80 ≠ 0) } }

theorem adcByte_eq_mod (a m : Byte) (c : Bool) : adcByte a m c = BitVec.ofNat 8 (adcSum a m c % 256) := by
  apply BitVec.eq_of_toNat_eq
  rw [adcByte_toNat, BitVec.toNat_ofNat, Nat.mod_mod]

theorem setFlags_setA_adc (m : Byte) (s : State) :
    (s.setFlags (s.flags.adc s.a m)).setA (adcByte s.a m s.flags.c) = s.added m := by
  rw [Flags.adc, Flags.zn_eq_ofResult, adcByte_eq_mod]
  rfl

section
variable {o : Operand} {mode : AddrMode} {s : State}

theorem loadInto_of_readable {set : Byte → State → State} {acc : Access} (hset : Loads set acc) (hr : o.readable s)
    (hpc : s.pc.toNat + o.length < memSize) :
    loadInto set o s = .next (((set (o.value s) s).setFlags (s.flags.ofResult (o.value s))).completed o.length
      o.units) := by
  cases hset <;> (
    refine (loadInto_next_iff (by simp)).2 ⟨hr, hpc, ?_⟩
    rw [← Flags.zn_eq_ofResult]
    rfl)

theorem storeFrom_of_lt {v : Byte} (hea : mode.ea s < memSize) (hpc : s.pc.toNat + mode.length < memSize) :
    storeFrom v mode s = .next ((s.stored [(mode.ea s, v)]).completed mode.length (mode.extra + 1)) :=
  storeFrom_next_iff.2 ⟨hea, hpc, rfl⟩

theorem addWithCarry_of_readable (hr : o.readable s) (hpc : s.pc.toNat + o.length < memSize) :
    addWithCarry o s = .next ((s.added (o.value s)).completed o.length o.units) := by
  refine addWithCarry_next_iff.2 ⟨hr, hpc, ?_⟩
  rw [setFlags_setA_adc]
  rfl

theorem bitwise_of_readable {f : Byte → Byte → Byte} (hr : o.readable s) (hpc : s.pc.toNat + o.length < memSize) :
    bitwise f o s = .next (((s.setA (f s.a (o.value s))).setFlags (s.flags.ofResult (f s.a (o.value s)))).completed
      o.length o.units) := by
  refine bitwise_next_iff.2 ⟨hr, hpc, ?_⟩
  rw [← Flags.zn_eq_ofResult]
  rfl

theorem readModifyWrite_of_lt {f : Byte → Byte} (hea : mode.ea s < memSize)
    (hpc : s.pc.toNat + mode.length < memSize) :
    readModifyWrite f mode s = .next (((s.stored [(mode.ea s, f (s.mem.read (mode.ea s)))]).setFlags
      (s.flags.ofResult (f (s.mem.read (mode.ea s))))).completed mode.length (mode.extra + 2)) := by
  refine readModifyWrite_next_iff.2 ⟨hea, hpc, ?_⟩
  rw [← Flags.zn_eq_ofResult]
  rfl

/-- In sequence without a data access nothing is debited. -/
theorem advance_eq_completed (len : Nat) (s : State) : s.advance len = s.completed len 0 := by
  simp only [State.advance, State.setPc, State.completed, Int.ofNat_zero, Int.sub_zero]

theorem stepRegister_of_lt {set : Byte → State → State} (hset : ∀ v u, (set v u).pc = u.pc) {v : Byte}
    (hpc : s.pc.toNat + 1 < memSize) :
    stepRegister set v s = .next (((set v s).setFlags ((set v s).flags.ofResult v)).completed 1 0) := by
  rw [← Flags.zn_eq_ofResult, ← advance_eq_completed]
  exact (stepRegister_next_iff hset).2 ⟨hpc, rfl⟩

theorem setFlagsOnly_of_lt {f : Flags} (hpc : s.pc.toNat + 1 < memSize) :
    setFlagsOnly f s = .next ((s.setFlags f).completed 1 0) := by
  rw [← advance_eq_completed]
  exact setFlagsOnly_next_iff.2 ⟨hpc, rfl⟩

theorem pushWord_of_le {v : Word} (hsp : 2 ≤ s.sp.toNat) (hpc : s.pc.toNat + 1 < memSize) :
    pushWord v s = .next (((s.stored [(s.sp.toNat - 2, hiByte v), (s.sp.toNat - 1, loByte v)]).setSp
      (s.sp - 2)).completed 1 2) := by
  rw [← wordAt_sub_two hsp]
  exact pushWord_next_iff.2 ⟨hsp, hpc, rfl⟩

end

theorem wordOf_getLsbD_of_lt (h l : Byte) {k : Nat} (hk : k < 8) : (wordOf h l).getLsbD k = l.getLsbD k := by
  rw [wordOf, BitVec.getLsbD_append, if_pos hk]

/-- The flags of a word are bits of its low byte (spec/10_state.md R38). -/
theorem unpackFlags_wordOf (h l : Byte) :
    unpackFlags (wordOf h l) = ⟨l[0], l[1], l[2], l[3], l[4], l[5], l[6]⟩ := by
  simp only [unpackFlags, wordOf_getLsbD_of_lt, Nat.reduceLT]
  rfl

end Sys2Proof.Machine

section
open Sys2Proof Sys2Proof.Machine

/-- Settles O28: every form is `loadInto` a, and only the absolute indexed ones need their address to exist as a
condition. -/
theorem ldaLoads : Obligations.LdaLoads := by
  intro s m z w
  exact ⟨loadInto_of_readable (o := .immediate m) .a trivial,
    loadInto_of_readable .a (Operand.readable_zeroPage z s), loadInto_of_readable .a (Operand.readable_zeroPageX z s),
    loadInto_of_readable .a (Operand.readable_absolute w s),
    fun hpc hea => loadInto_of_readable (o := .memory (.absoluteX w)) .a hea hpc,
    fun hpc hea => loadInto_of_readable (o := .memory (.absoluteY w)) .a hea hpc⟩

/-- Settles O29: every form is `loadInto` x. -/
theorem ldxLoads : Obligations.LdxLoads := by
  intro s m z w
  exact ⟨loadInto_of_readable (o := .immediate m) .x trivial,
    loadInto_of_readable .x (Operand.readable_zeroPage z s), loadInto_of_readable .x (Operand.readable_zeroPageY z s),
    loadInto_of_readable .x (Operand.readable_absolute w s),
    fun hpc hea => loadInto_of_readable (o := .memory (.absoluteY w)) .x hea hpc⟩

/-- Settles O30: every form is `loadInto` y. -/
theorem ldyLoads : Obligations.LdyLoads := by
  intro s m z w
  exact ⟨loadInto_of_readable (o := .immediate m) .y trivial,
    loadInto_of_readable .y (Operand.readable_zeroPage z s), loadInto_of_readable .y (Operand.readable_zeroPageX z s),
    loadInto_of_readable .y (Operand.readable_absolute w s),
    fun hpc hea => loadInto_of_readable (o := .memory (.absoluteX w)) .y hea hpc⟩

/-- Settles O31: every form is `storeFrom` its register. -/
theorem storesWrite : Obligations.StoresWrite := by
  intro s z w
  refine ⟨?staZp, ?staZpX, ?staAbs, ?staAbsX, ?staAbsY, ?stxZp, ?stxZpY, ?stxAbs, ?styZp, ?styZpX, ?styAbs⟩
  case staZp | stxZp | styZp => exact storeFrom_of_lt (Operand.readable_zeroPage z s)
  case staZpX | styZpX => exact storeFrom_of_lt (Operand.readable_zeroPageX z s)
  case stxZpY => exact storeFrom_of_lt (Operand.readable_zeroPageY z s)
  case staAbs | stxAbs | styAbs => exact storeFrom_of_lt (Operand.readable_absolute w s)
  case staAbsX => exact fun hpc hea => storeFrom_of_lt (mode := .absoluteX w) hea hpc
  case staAbsY => exact fun hpc hea => storeFrom_of_lt (mode := .absoluteY w) hea hpc

/-- Settles O32: every form is `addWithCarry`. -/
theorem adcAdds : Obligations.AdcAdds := by
  intro s m z w
  exact ⟨addWithCarry_of_readable (o := .immediate m) trivial,
    addWithCarry_of_readable (Operand.readable_zeroPage z s), addWithCarry_of_readable (Operand.readable_zeroPageX z s),
    addWithCarry_of_readable (Operand.readable_absolute w s),
    fun hpc hea => addWithCarry_of_readable (o := .memory (.absoluteX w)) hea hpc,
    fun hpc hea => addWithCarry_of_readable (o := .memory (.absoluteY w)) hea hpc⟩

/-- Settles O33: every form is `bitwise` with its operation. -/
theorem bitwiseResults : Obligations.BitwiseResults := by
  intro s m z w
  refine ⟨?andImm, ?andZp, ?andZpX, ?andAbs, ?andAbsX, ?andAbsY, ?oraImm, ?oraZp, ?oraZpX, ?oraAbs, ?oraAbsX,
    ?oraAbsY, ?eorImm, ?eorZp, ?eorZpX, ?eorAbs, ?eorAbsX, ?eorAbsY⟩
  case andImm | oraImm | eorImm => exact bitwise_of_readable (o := .immediate m) trivial
  case andZp | oraZp | eorZp => exact bitwise_of_readable (Operand.readable_zeroPage z s)
  case andZpX | oraZpX | eorZpX => exact bitwise_of_readable (Operand.readable_zeroPageX z s)
  case andAbs | oraAbs | eorAbs => exact bitwise_of_readable (Operand.readable_absolute w s)
  case andAbsX | oraAbsX | eorAbsX => exact fun hpc hea => bitwise_of_readable (o := .memory (.absoluteX w)) hea hpc
  case andAbsY | oraAbsY | eorAbsY => exact fun hpc hea => bitwise_of_readable (o := .memory (.absoluteY w)) hea hpc

/-- Settles O35: every form is `readModifyWrite` with one more or one less. -/
theorem incDecMemory : Obligations.IncDecMemory := by
  intro s z w
  refine ⟨?incZp, ?incZpX, ?incAbs, ?incAbsX, ?decZp, ?decZpX, ?decAbs, ?decAbsX⟩
  case incZp | decZp => exact readModifyWrite_of_lt (Operand.readable_zeroPage z s)
  case incZpX | decZpX => exact readModifyWrite_of_lt (Operand.readable_zeroPageX z s)
  case incAbs | decAbs => exact readModifyWrite_of_lt (Operand.readable_absolute w s)
  case incAbsX | decAbsX => exact fun hpc hea => readModifyWrite_of_lt (mode := .absoluteX w) hea hpc

/-- Settles O36: each is `stepRegister` of its register. -/
theorem indexRegisterSteps : Obligations.IndexRegisterSteps := by
  intro s hpc
  exact ⟨stepRegister_of_lt (set := State.setX) (by simp) hpc, stepRegister_of_lt (set := State.setY) (by simp) hpc,
    stepRegister_of_lt (set := State.setX) (by simp) hpc, stepRegister_of_lt (set := State.setY) (by simp) hpc⟩

/-- Settles O37: the conditions are those under which each completes. -/
theorem jumpCallReturn : Obligations.JumpCallReturn := by
  intro s w
  refine ⟨execJmp_next_iff.2 rfl, fun hpc hsp => execJsr_next_iff.2 ⟨hpc, hsp, ?_⟩,
    fun hsp => execRts_next_iff.2 ⟨hsp, rfl⟩⟩
  rw [wordAt_sub_two hsp, ofNat_toNat_add]
  rfl

/-- Settles O39: each pushes its word, whose high byte is zero. -/
theorem stackPushes : Obligations.StackPushes := by
  intro s hsp hpc
  have hpha : exec .pha s = _ := pushWord_of_le hsp hpc
  have hphp : exec .php s = _ := pushWord_of_le hsp hpc
  rw [setWidth_eq_wordOf, hiByte_wordOf, loByte_wordOf] at hpha
  rw [hiByte_packFlags, loByte_eq_setWidth] at hphp
  exact ⟨hpha, hphp⟩

/-- Settles O40: the low byte of the pulled word is the byte at `sp + 1`. -/
theorem stackPulls : Obligations.StackPulls := by
  intro s hsp hpc hi lo
  refine ⟨(pullWord_next_iff (by simp)).2 ⟨hsp, hpc, ?_⟩, (pullWord_next_iff (by simp)).2 ⟨hsp, hpc, rfl⟩,
    unpackFlags_wordOf hi lo⟩
  rw [topWord, loByte_wordOf, ← Flags.zn_eq_ofResult]
  rfl

/-- Settles O41: each is `setFlagsOnly`. -/
theorem flagClearsAndNop : Obligations.FlagClearsAndNop := by
  intro s hpc
  exact ⟨setFlagsOnly_of_lt hpc, setFlagsOnly_of_lt hpc, setFlagsOnly_of_lt hpc, setFlagsOnly_of_lt hpc,
    setFlagsOnly_of_lt hpc⟩

/-- Settles O44: the condition is that under which RTI completes. -/
theorem rtiReturns : Obligations.RtiReturns := fun _ hsp => execRti_next_iff.2 ⟨hsp, rfl⟩

end

namespace Sys2Proof.Machine

/-! ## Branches (spec/43_control.md R185; spec/40_execution.md R118) -/

section
variable {taken : Bool} {r : Byte} {s : State}

theorem branchOn_of_not_taken (ht : taken = false) (h : s.pc.toNat + 2 < memSize) :
    branchOn taken r s = .next { s with pc := s.pc + 2 } :=
  branchOn_next_iff.2 (.inl ⟨ht, h, rfl⟩)

theorem branchOn_of_not_taken_past (ht : taken = false) (h : memSize ≤ s.pc.toNat + 2) :
    branchOn taken r s = raiseFault (s.pc.toNat + 2 : Nat) s := by
  subst ht
  exact sequential_finish_of_ge h

theorem branchOn_of_taken (ht : taken = true) (hlo : 0 ≤ branchTarget r s) (hhi : branchTarget r s ≤ 0xFFFF) :
    branchOn taken r s = .next { s with pc := BitVec.ofInt 16 (branchTarget r s) } := by
  refine branchOn_next_iff.2 (.inr ⟨ht, hlo, hhi, ?_⟩)
  rw [← BitVec.ofInt_natCast, Int.toNat_of_nonneg hlo]
  rfl

theorem branchOn_of_taken_past (ht : taken = true) (h : branchTarget r s < 0 ∨ 0xFFFF < branchTarget r s) :
    branchOn taken r s = raiseFault (branchTarget r s) s := by
  subst ht
  exact if_pos h

end

/-! ## An access past the top (spec/40_execution.md R116; spec/60_exceptions.md R243) -/

section
variable {mode : AddrMode} {s : State}

theorem operand_of_past (h : memSize ≤ mode.ea s) :
    operand (.memory mode) s = .oob (mode.ea s) (s.debit mode.extra) :=
  memRead_of_ge h (s.debit mode.extra)

theorem loadInto_of_past (h : memSize ≤ mode.ea s) (set : Byte → State → State) :
    loadInto set (.memory mode) s = raiseFault (mode.ea s) (s.debit mode.extra) := by
  rw [loadInto, operand_of_past h, Res.bind_oob, Res.finish_oob]

theorem storeFrom_of_past (h : memSize ≤ mode.ea s) (v : Byte) :
    storeFrom v mode s = raiseFault (mode.ea s) (s.debit mode.extra) := by
  rw [storeFrom, effective, Res.bind_ok, memWrite_of_ge h, Res.bind_oob, Res.finish_oob]

theorem addWithCarry_of_past (h : memSize ≤ mode.ea s) :
    addWithCarry (.memory mode) s = raiseFault (mode.ea s) (s.debit mode.extra) := by
  rw [addWithCarry, operand_of_past h, Res.bind_oob, Res.finish_oob]

theorem bitwise_of_past (h : memSize ≤ mode.ea s) (f : Byte → Byte → Byte) :
    bitwise f (.memory mode) s = raiseFault (mode.ea s) (s.debit mode.extra) := by
  rw [bitwise, operand_of_past h, Res.bind_oob, Res.finish_oob]

theorem compareWith_of_past (h : memSize ≤ mode.ea s) (reg : Byte) :
    compareWith reg (.memory mode) s = raiseFault (mode.ea s) (s.debit mode.extra) := by
  rw [compareWith, operand_of_past h, Res.bind_oob, Res.finish_oob]

theorem readModifyWrite_of_past (h : memSize ≤ mode.ea s) (f : Byte → Byte) :
    readModifyWrite f mode s = raiseFault (mode.ea s) (s.debit mode.extra) := by
  rw [readModifyWrite, effective, Res.bind_ok, memRead_of_ge h, Res.bind_oob, Res.finish_oob]

end

/-! ## The stack's limits (spec/20_memory.md R57) and return addresses past the top (spec/10_state.md R26) -/

section
variable {s : State}

theorem pushWord_of_lt_two (h : s.sp.toNat < 2) (v : Word) : pushWord v s = raiseFault (s.sp.toNat - 2) s := by
  rw [pushWord, push16_of_lt h, Res.bind_oob, Res.finish_oob]

theorem execJsr_of_ge (h : memSize ≤ s.pc.toNat + 3) (w : Word) : execJsr w s = raiseFault (s.pc.toNat + 3 : Nat) s :=
  if_pos h

theorem execJsr_of_lt_two (hpc : s.pc.toNat + 3 < memSize) (h : s.sp.toNat < 2) (w : Word) :
    execJsr w s = raiseFault (s.sp.toNat - 2) s := by
  refine (if_neg (Nat.not_le.2 hpc)).trans ?_
  rw [push16_of_lt h, Res.bind_oob, Res.finish_oob]

theorem pullWord_of_top (h : s.sp = 0xFFFE) (use : Word → State → State) :
    pullWord use s = raiseFault 0x10000 (s.debit 2) := by
  rw [pullWord, pull16_of_top_word (by rw [h]; rfl), Res.bind_oob, Res.finish_oob]

theorem execRts_of_top (h : s.sp = 0xFFFE) : execRts s = raiseFault 0x10000 (s.debit 2) := by
  rw [execRts, pull16_of_top_word (by rw [h]; rfl), Res.bind_oob, Res.finish_oob]

theorem execRti_of_top (h : s.sp = 0xFFFE) : execRti s = raiseFault 0x10000 (s.debit 2) := by
  rw [execRti, interruptReturn, pull16_of_top_word (by rw [h]; rfl), Res.bind_oob, Res.finish_oob]

/-- RTI with one word on the stack: the flags are restored, and the second pull finds the end. -/
theorem execRti_of_top_but_one (h : s.sp = 0xFFFC) :
    execRti s =
      raiseFault 0x10000 (((s.setFlags (unpackFlags (topWord s))).setSp 0xFFFE).debit 4) := by
  have hpull : s.sp.toNat + 2 < memSize := by rw [h]; decide
  have hsp : s.sp + 2 = 0xFFFE := by rw [h]; rfl
  rw [execRti, interruptReturn, pull16_of_lt hpull, Res.bind_ok, hsp, pull16_of_top_word rfl, Res.bind_oob,
    Res.finish_oob, ← State.debit_debit 2 2]
  rfl

end

/-! ## The entry sequence that does not complete (spec/60_exceptions.md R236, R238, R243) -/

/-- The record byte of the invalid-opcode entry has been stored, after the fetch `n` units debited. -/
def State.recorded (op : Byte) (n : Nat) (s : State) : State := (s.stored [(s.cfg.invopAddr.toNat, op)]).debit n

section
variable {s : State} {n : Byte} {slot : Slot} {ret : Nat}

theorem exec_brk_of_lt (hn : n.toNat < numSlots) (s : State) :
    ∃ slot, exec (.brk n) s = (trapEntry slot (s.pc.toNat + 2) s).finish :=
  (exists_slotOf_of_lt hn).imp fun _ hslot => exec_brk_slot s hslot

theorem exec_brk_of_ge (hn : numSlots ≤ n.toNat) (s : State) :
    exec (.brk n) s = (trapEntry .invalid (s.pc.toNat + 2) (s.recorded 0x00 1)).finish := by
  rw [exec_brk_reserved s ((slotOf_eq_none_iff n).2 hn), invalidOpcode_eq]
  rfl

theorem step_of_invalid_byte (hrun : s.running) (hop : s.mem.read s.pc.toNat ∈ invalidOpcodes) :
    step s = (trapEntry .invalid (s.pc.toNat + 1)
      ((s.recorded (s.mem.read s.pc.toNat) 2).setEngine .trapping)).finish := by
  rw [step_of_running hrun, runInstruction_eq, decodeAndExecute_of_invalid (lookup_eq_none_of_invalid hop),
    invalidOpcode_eq, State.recorded, ← State.debit_debit 1 1]
  rfl

theorem trapEntry_finish_of_ge (hret : memSize ≤ ret) : (trapEntry slot ret s).finish = raiseFault ret s := by
  rw [trapEntry_of_ge hret, Res.finish_oob]

theorem trapEntry_finish_of_lt_two (hret : ret < memSize) (h : s.sp.toNat < 2) :
    (trapEntry slot ret s).finish = raiseFault (s.sp.toNat - 2) s := by
  rw [trapEntry_of_lt_two hret h, Res.finish_oob]

theorem trapEntry_finish_of_lt_four (hret : ret < memSize) (h2 : 2 ≤ s.sp.toNat) (h4 : s.sp.toNat < 4) :
    (trapEntry slot ret s).finish = raiseFault (s.sp.toNat - 4) (((s.stored
      [(s.sp.toNat - 2, hiByte (BitVec.ofNat 16 ret)), (s.sp.toNat - 1, loByte (BitVec.ofNat 16 ret))]).setSp
        (s.sp - 2)).debit 2) := by
  rw [trapEntry_of_lt_four hret h2 h4, Res.finish_oob, wordAt_sub_two h2]

/-- The entry after its record byte stores five bytes and costs one unit more. -/
theorem entered_recorded (op : Byte) (ret : Nat) (s : State) :
    (s.recorded op 1).entered .invalid ret =
      { (s.stored ((s.cfg.invopAddr.toNat, op) :: entryFrame ret s)).vectored (vecAddr s.cfg .invalid).toNat with
        sp     := s.sp - 4
        flags  := { s.flags with b := true }
        budget := s.budget - 7 } := by
  have hseq := State.stored_stored [(s.cfg.invopAddr.toNat, op)] (entryFrame ret s) s
  have hunits : s.budget - 7 = s.budget - 1 - 6 := by omega
  rw [← List.singleton_append, ← hseq, hunits]
  rfl

end

end Sys2Proof.Machine

section
open Sys2Proof Sys2Proof.Machine

/-- Settles O38: each branch is `branchOn` its condition. -/
theorem branchRule : Obligations.BranchRule := by
  intro s r target faultAt p hp
  have hexec : exec p.1 s = branchOn p.2 r s := by
    simp only [List.mem_cons, List.not_mem_nil, or_false] at hp
    obtain rfl | rfl | rfl | rfl | rfl | rfl | rfl | rfl := hp <;> rfl
  rw [hexec]
  exact ⟨branchOn_of_not_taken, branchOn_of_not_taken_past, branchOn_of_taken, branchOn_of_taken_past⟩

/-- Settles O45: every form finds its effective address out of range, past the debit of the extra unit. -/
theorem indexedAccessPastTopFaults : Obligations.IndexedAccessPastTopFaults := by
  intro s w faultAt
  refine ⟨fun h => ?x, fun h => ?y⟩ <;> simp only [List.forall_mem_cons]
  case x =>
    have hx : memSize ≤ (AddrMode.absoluteX w).ea s := h
    exact ⟨loadInto_of_past hx _, loadInto_of_past hx _, storeFrom_of_past hx _, addWithCarry_of_past hx,
      bitwise_of_past hx _, bitwise_of_past hx _, bitwise_of_past hx _, compareWith_of_past hx _,
      readModifyWrite_of_past hx _, readModifyWrite_of_past hx _, List.forall_mem_nil _⟩
  case y =>
    have hy : memSize ≤ (AddrMode.absoluteY w).ea s := h
    exact ⟨loadInto_of_past hy _, loadInto_of_past hy _, storeFrom_of_past hy _, addWithCarry_of_past hy,
      bitwise_of_past hy _, bitwise_of_past hy _, bitwise_of_past hy _, compareWith_of_past hy _,
      List.forall_mem_nil _⟩

/-- Settles O43: a slot's entry is the entry sequence, and a reserved operand's is that of slot INVALID after the record
byte. -/
theorem brkEntersSlot : Obligations.BrkEntersSlot := by
  intro s n slot ret pushed entry hpc h4 hvec
  have hframe : entryFrame (s.pc.toNat + 2) s = pushed := by rw [entryFrame_eq h4, ofNat_toNat_add]; rfl
  refine ⟨fun hn => ?_, fun hn hslot => ?_⟩
  · have hslot : slotOf n = some slot := by
      simp only [List.mem_cons, List.not_mem_nil, Prod.mk.injEq, or_false] at hn
      obtain ⟨rfl, rfl⟩ | ⟨rfl, rfl⟩ | ⟨rfl, rfl⟩ | ⟨rfl, rfl⟩ | ⟨rfl, rfl⟩ := hn <;> rfl
    rw [exec_brk_slot s hslot, trapEntry_finish_next_iff.2 ⟨hpc, h4, hvec, rfl⟩, State.entered, hframe]
    rfl
  · subst hslot
    rw [exec_brk_of_ge hn, (trapEntry_finish_next_iff (s := s.recorded 0x00 1)).2 ⟨hpc, h4, hvec, rfl⟩,
      entered_recorded, hframe]
    rfl

/-- Settles O47: a push checks `sp` before it stores, a pull after it reads, and the entry sequence makes two pushes. -/
theorem stackLimitFaults : Obligations.StackLimitFaults := by
  intro s faultAt recorded pushed
  refine ⟨fun h => ⟨pushWord_of_lt_two h _, pushWord_of_lt_two h _, fun w hpc => execJsr_of_lt_two hpc h w, ?brkNoRoom,
      ?reservedNoRoom, ?invalidNoRoom⟩,
    fun h2 h4 => ⟨?brkOneWord, ?reservedOneWord, ?invalidOneWord⟩, fun h => ?pulls, fun h => ?rti⟩
  case brkNoRoom =>
    intro n hn hpc
    obtain ⟨slot, hbrk⟩ := exec_brk_of_lt hn s
    exact hbrk.trans (trapEntry_finish_of_lt_two hpc h)
  case reservedNoRoom =>
    intro n hn hpc
    exact (exec_brk_of_ge hn s).trans (trapEntry_finish_of_lt_two (s := s.recorded 0x00 1) hpc h)
  case invalidNoRoom =>
    intro hrun hop hpc
    exact (step_of_invalid_byte hrun hop).trans
      (trapEntry_finish_of_lt_two (s := (s.recorded (s.mem.read s.pc.toNat) 2).setEngine .trapping) hpc h)
  case brkOneWord =>
    intro n hn hpc
    obtain ⟨slot, hbrk⟩ := exec_brk_of_lt hn s
    rw [hbrk, trapEntry_finish_of_lt_four hpc h2 h4, ofNat_toNat_add]
    rfl
  case reservedOneWord =>
    intro n hn hpc
    rw [exec_brk_of_ge hn, trapEntry_finish_of_lt_four (s := s.recorded 0x00 1) hpc h2 h4, ofNat_toNat_add]
    rfl
  case invalidOneWord =>
    intro hrun hop hpc
    rw [step_of_invalid_byte hrun hop, trapEntry_finish_of_lt_four
      (s := (s.recorded (s.mem.read s.pc.toNat) 2).setEngine .trapping) hpc h2 h4, ofNat_toNat_add]
    rfl
  case pulls =>
    simp only [List.forall_mem_cons]
    exact ⟨pullWord_of_top h _, pullWord_of_top h _, execRts_of_top h, execRti_of_top h, List.forall_mem_nil _⟩
  case rti =>
    have htop : topWord s = wordOf (s.mem.read 0xFFFC) (s.mem.read 0xFFFD) := by rw [topWord, h]; rfl
    rw [exec_rti, execRti_of_top_but_one h, htop]
    rfl

/-- Settles O48: the return address is checked before the first push, and after the record byte is stored. -/
theorem returnAddressPastTopFaults : Obligations.ReturnAddressPastTopFaults := by
  intro s faultAt
  refine ⟨fun h w => ?jsr, fun h n hn => ?brk, fun h n hn => ?reserved, fun hrun h hop => ?invalid⟩
  case jsr =>
    have htop : s.pc.toNat + 3 = memSize := by rw [h]; rfl
    rw [exec_jsr, execJsr_of_ge htop.ge, htop]
    rfl
  case brk =>
    have htop : s.pc.toNat + 2 = memSize := by rw [h]; rfl
    obtain ⟨slot, hbrk⟩ := exec_brk_of_lt hn s
    rw [hbrk, trapEntry_finish_of_ge htop.ge, htop]
    rfl
  case reserved =>
    have htop : s.pc.toNat + 2 = memSize := by rw [h]; rfl
    rw [exec_brk_of_ge hn, trapEntry_finish_of_ge htop.ge, htop]
    rfl
  case invalid =>
    have htop : s.pc.toNat + 1 = memSize := by rw [h]; rfl
    have hread : s.mem.read s.pc.toNat = s.mem.read 0xFFFF := by rw [h]; rfl
    rw [step_of_invalid_byte hrun (hread ▸ hop), trapEntry_finish_of_ge htop.ge, htop, hread]
    rfl

end
